-- ==== Sys2Proof/Word.lean ====
section
/-! DEFINITION. Word.lean: the two widths of PBD, a byte of data memory (R83) and a 32-bit register or bus word (R32). -/

namespace Sys2Proof

/-- A byte of data memory or of the stream: the only width of a data access (R83, 20_memory.md). -/
abbrev Byte := BitVec 8

/-- A 32-bit register, address or command word (R7, 00_scope.md). -/
abbrev Word := BitVec 32

end Sys2Proof
end

