-- ==== Sys2Proof/Syntax.lean ====
section
/-! DEFINITION. Syntax.lean: the instructions of PBD, one constructor per row of spec/opcode_table.json: the twelve commands
of a CMD word (R112) and the three element classes of a PackBits stream (R118, R119, R120). -/

namespace Sys2Proof

/-- An instruction. `ch` is the channel index CH = v[15:8] of a command word (R111); `n` and `m` are the seven low bits of a
control byte (R118, R119). -/
inductive Instr where
  | nop                        -- NOP           R141
  | decodeImage                -- DECODE_IMAGE  R142
  | skipCounts                 -- SKIP_COUNTS   R152
  | rleChan (ch : BitVec 8)    -- RLE_CHAN      R166
  | rawChan (ch : BitVec 8)    -- RAW_CHAN      R190
  | mux                        -- MUX           R195
  | swap16                     -- SWAP16        R211
  | swap32                     -- SWAP32        R212
  | swapbuf16                  -- SWAPBUF16     R213
  | swapbuf32                  -- SWAPBUF32     R214
  | ldbe16                     -- LDBE16        R215
  | ldbe32                     -- LDBE32        R216
  | lit (n : BitVec 7)         -- LIT           R161
  | nop80                      -- NOP80         R163
  | rep (m : BitVec 7)         -- REP           R162
deriving DecidableEq, Repr

end Sys2Proof
end

