-- ==== Sys2Proof/WellFormed.lean ====
section
/-! DEFINITION. WellFormed.lean: which terms of Instr the spec's encodings have. The one check is REP's `m ≠ 0` (R119): the
byte 0x80 is NOP80 (R120). A channel index is legal at every value of CH (R114). -/

namespace Sys2Proof

/-- The term stands for some word of the spec's encodings. -/
def Instr.wellFormed (i : Instr) : Bool :=
  match i with
  | .rep m => m != 0
  | .nop | .decodeImage | .skipCounts | .rleChan _ | .rawChan _ | .mux => true
  | .swap16 | .swap32 | .swapbuf16 | .swapbuf32 | .ldbe16 | .ldbe32 => true
  | .lit _ | .nop80 => true

end Sys2Proof
end

