-- ==== Sys2Proof/Decode.lean ====
section
/-! DEFINITION. Decode.lean: the decoder of command words (R115) and of control bytes (R117 to R122), then the encoder, from
the same tables. -/

namespace Sys2Proof

/-- Why a command word is illegal: the three cases of R113. -/
inductive DecodeError where
  | reservedBits   -- (a) RSV ≠ 0
  | unassignedOp   -- (b) an OP that R112 does not assign
  | strayChannel   -- (c) CH ≠ 0 with an OP that does not use CH
deriving DecidableEq, Repr

/-- The two encoded languages of 30_encoding.md: a CMD32 word (R110) or a control byte (R117). -/
inductive Encoding where
  | command (v : Word)
  | control (c : Byte)
deriving DecidableEq, Repr

/-- OP = v[7:0] (R110). -/
def opField (v : Word) : BitVec 8 := v.extractLsb' 0 8

/-- CH = v[15:8] (R110). -/
def chField (v : Word) : BitVec 8 := v.extractLsb' 8 8

/-- RSV = v[31:16] (R110). -/
def rsvField (v : Word) : BitVec 16 := v.extractLsb' 16 16

/-- A command whose OP does not use CH (R113 (c)). -/
def withoutChannel (ch : BitVec 8) (i : Instr) : Except DecodeError Instr :=
  if ch = 0 then .ok i else .error .strayChannel

/-- Decode of the accepted command word (R115), total on all 2^32 words. -/
def decodeCommand (v : Word) : Except DecodeError Instr :=
  if rsvField v ≠ 0 then .error .reservedBits
  else match (opField v).toNat with
    | 0x03 => .ok (.rleChan (chField v))
    | 0x04 => .ok (.rawChan (chField v))
    | 0x00 => withoutChannel (chField v) .nop
    | 0x01 => withoutChannel (chField v) .decodeImage
    | 0x02 => withoutChannel (chField v) .skipCounts
    | 0x05 => withoutChannel (chField v) .mux
    | 0x08 => withoutChannel (chField v) .swap16
    | 0x09 => withoutChannel (chField v) .swap32
    | 0x0A => withoutChannel (chField v) .swapbuf16
    | 0x0B => withoutChannel (chField v) .swapbuf32
    | 0x0C => withoutChannel (chField v) .ldbe16
    | 0x0D => withoutChannel (chField v) .ldbe32
    | _ => .error .unassignedOp

/-- What the control byte selects (R117, R167): `lit` below 128, `rep` above, `nop80` at 128. -/
def selectElement {α : Type} (c : Byte) (lit rep : BitVec 7 → α) (nop80 : α) : α :=
  if c.toNat < 128 then lit (c.extractLsb' 0 7)
  else if 128 < c.toNat then rep (c.extractLsb' 0 7)
  else nop80

/-- The element a control byte begins: every byte begins one (R122). -/
def decodeElement (c : Byte) : Instr := selectElement c .lit .rep .nop80

/-- The decoder of both languages. -/
def decode (e : Encoding) : Except DecodeError Instr :=
  match e with
  | .command v => decodeCommand v
  | .control c => .ok (decodeElement c)

/-- The decoder on a row's word as spec/opcode_table.json numbers its bits: a row of 32 bits is a command word, a row of 8
bits a control byte. No row has another length. -/
def decodeTableWord (nbits w : Nat) : Option Instr :=
  match nbits with
  | 32 => (decodeCommand (BitVec.ofNat 32 w)).toOption
  | 8 => some (decodeElement (BitVec.ofNat 8 w))
  | _ => none

/-- A CMD32 word with RSV = 0 (R110). -/
def commandWord (op ch : BitVec 8) : Word := 0#16 ++ ch ++ op

/-- The encoding of an instruction (R112, R118, R119, R120). -/
def encode (i : Instr) : Encoding :=
  match i with
  | .nop => .command (commandWord 0x00 0)
  | .decodeImage => .command (commandWord 0x01 0)
  | .skipCounts => .command (commandWord 0x02 0)
  | .rleChan ch => .command (commandWord 0x03 ch)
  | .rawChan ch => .command (commandWord 0x04 ch)
  | .mux => .command (commandWord 0x05 0)
  | .swap16 => .command (commandWord 0x08 0)
  | .swap32 => .command (commandWord 0x09 0)
  | .swapbuf16 => .command (commandWord 0x0A 0)
  | .swapbuf32 => .command (commandWord 0x0B 0)
  | .ldbe16 => .command (commandWord 0x0C 0)
  | .ldbe32 => .command (commandWord 0x0D 0)
  | .lit n => .control (0#1 ++ n)
  | .nop80 => .control 0x80
  | .rep m => .control (1#1 ++ m)

end Sys2Proof
end

