-- ==== Sys2Proof/Config.lean ====
section
/-! DEFINITION. Config.lean: what a platform fixes and the spec leaves open, and the free values. Every constant here is
without a body, so no proof can learn a value of it. The two parameters a step does depend on, RAM_VALID and REG_BASE, are
plain data of State (log 7, log 8), so that every statement holds for every choice of them. -/

namespace Sys2Proof.Config

/-- LATENCY (R8, R291; log 9): the clock cycles a command takes. The model has no time; nothing depends on it. -/
opaque latency : Nat

/-- HOST_CACHE_COHERENT (R8, R100; log 9): memory is one coherent array in the model; nothing depends on it. -/
opaque hostCacheCoherent : Bool

/-- IRQ_LINE (R8, R255; log 9): the input of the host's interrupt controller that irq is wired to. -/
opaque irqLine : Nat

/-- The free value number `n`, for a register read while BUSY (R56, U14; log 6). -/
opaque freeWord : Nat → Word

/-- The free value number `n` for the byte at an address, for memory after a hard reset during BUSY (R282, U19; log 6). -/
opaque freeByte : Nat → Nat → Byte

/-- The byte at an address at power-on, which stands there until something is written (R283, U20: any value; log 1). -/
opaque powerOnByte : Nat → Byte

end Sys2Proof.Config
end

