-- ==== Sys2Proof/Machine/State.lean ====
section
/-! DEFINITION. Machine/State.lean: the state of PBD as plain data (10_state.md), the host's moves, the faults and the
refusals, and the state after reset (R60). -/

namespace Sys2Proof.Machine

/-- Data memory (R59): the bytes that have been written since power-on, addresses strictly rising. -/
abbrev Memory := List Host.Cell

/-- What an address that is not listed reads as: its byte at power-on, which is unspecified (R283) and any value (U20): a free value
(log 1). -/
def unlistedByte (a : Nat) : Byte := Config.powerOnByte a

/-- The canonical form of Memory: addresses strictly rising, so each written byte is listed once (log 1). -/
abbrev Memory.wf (m : Memory) : Prop := m.Pairwise (fun c d => c.1 < d.1)

/-- An interval of data addresses `[base, base + len)`, in unbounded integers (R14). -/
structure Range where
  base : Nat
  len : Nat
deriving DecidableEq, Repr

/-- The size of a host access to the register window (R85). -/
inductive AccessSize where
  | byte | half | word | double
deriving DecidableEq, Repr

/-- One move of an agent (R16): the host's accesses and inputs, or the sequencer's command step. -/
inductive Move where
  | regWrite (addr : Word) (size : AccessSize) (v : Word)   -- a bus write meant for the window (R80, R87); 32-bit addresses: log 8
  | regRead (addr : Word) (size : AccessSize)               -- a bus read meant for the window (R80, R87)
  | memWrite (addr : Word) (b : Byte)                       -- the host writes a data byte (R80, R96)
  | memRead (addr : Word)                                   -- the host reads a data byte (R80, R96)
  | hardReset                                               -- rst_n asserted and released (R280, R282)
  | secondHost                                              -- a register access of a second host (R261)
  | sequencer                                               -- the sequencer's command step, now (R95)
deriving DecidableEq, Repr

/-- The block's error codes (R240). They are no stops of the model: a command that raises one takes the error completion
(R250) and the machine goes on. -/
inductive ErrCode where
  | truncated | unsupportedDepth | unsupportedCompression | unknownCompression | rleOverrun
  | badParam | illegalCmd | addrRange | overlap
deriving DecidableEq, Repr

/-- The state of PBD and of what it shares with the host (R30), flat and plain. BUSY is the view `State.busy` of
`cmdPending` (R57), irq the view `State.irq` (R58), and ID is a constant (R33). -/
structure State where
  /-- CTRL.IE (R34). -/
  ie : Bool
  /-- STATUS.DONE (R35). -/
  done : Bool
  /-- STATUS.ERR (R35). -/
  err : Bool
  /-- STATUS.DROP (R35). -/
  drop : Bool
  /-- STATUS.ECODE (R35, R240). -/
  ecode : BitVec 4
  /-- CMD (R36): the last accepted command word. -/
  cmd : Word
  /-- WIDTH (R37). -/
  width : Word
  /-- HEIGHT (R38). -/
  height : Word
  /-- CHANNELS (R39). -/
  channels : Word
  /-- DEPTH (R40). -/
  depth : Word
  /-- COMP[15:0] (R41). -/
  comp : BitVec 16
  /-- MUX_STRIDE (R42). -/
  muxStride : Word
  /-- SRC_ADDR (R43). -/
  srcAddr : Word
  /-- SRC_LEN (R44). -/
  srcLen : Word
  /-- CURSOR (R45). -/
  cursor : Word
  /-- PLANE_ADDR (R46). -/
  planeAddr : Word
  /-- DST_ADDR (R47). -/
  dstAddr : Word
  /-- XFER_LEN (R48). -/
  xferLen : Word
  /-- DATA_IN (R49). -/
  dataIn : Word
  /-- DATA_OUT (R50). -/
  dataOut : Word
  /-- OUT_COUNT (R51). -/
  outCount : Word
  /-- CUR_CH[4:0] (R52). -/
  curCh : BitVec 5
  /-- cmd_pending (R57): the accepted command not yet performed. -/
  cmdPending : Option Word
  /-- A channel's decode is in progress (R160): `k`, `count` and the position are CUR_CH, OUT_COUNT, CURSOR (log 2, log 3). -/
  inChannel : Bool
  /-- Data memory (R59). -/
  mem : Memory
  /-- RAM_VALID (R8, R86), as the intervals that do not exist; no step changes it (log 7). -/
  ramHoles : List Range
  /-- REG_BASE (R8, R32), 32 bits wide (DESIGN CHOICE, log 8); no step changes it. -/
  regBase : Word
  /-- The model's own: the moves still to come, the next first (log 4). -/
  schedule : List Move
  /-- The model's own: what the host's last read returned (log 5). -/
  hostData : Word
  /-- The model's own: how many free values have been drawn (log 6). -/
  draws : Nat
deriving DecidableEq, Repr

/-- Why the machine is stuck. -/
inductive Fault where
  /-- Raised by LIT, REP and NOP80 where the static checks of a decode of channel CUR_CH fail (whether a channel is open is not asked,
  log 20), and by a step between two elements whose command decodes no channel, fails its static checks or has no channel CUR_CH: the
  spec gives an element its meaning inside DecodePlane only (R160, R167). Safe (log 20): no run from reset reaches it. -/
  | noChannel
deriving DecidableEq, Repr

/-- Why the model has no meaning for a step (R264). Every refusal is safe: it makes claims unprovable, never false. -/
inductive Refusal where
  /-- An instruction without a meaning yet. No arm of exec answers it. -/
  | notModelled (mnemonic : String)
  /-- A command whose ranges include a byte outside RAM_VALID (R86, U16), raised by every command that accesses memory and by
  the elements; a host access to such a byte (log 19). Safe. -/
  | outsideRam
  /-- A host access to the window that is not a 32-bit access at an aligned offset (R85, U15). Safe. -/
  | badAccess
  /-- A host memory access inside a range of the accepted command while BUSY (R96, U17). Safe. -/
  | race
  /-- A register access of a second host (R261, U18). Safe. -/
  | secondHost
  /-- A bus access meant for the window at an address outside it (log 15). Safe. -/
  | outsideWindow
deriving DecidableEq, Repr

/-- The outcome of a step of PBD. -/
abbrev Outcome := Host.Outcome State Fault Refusal

/-- The machine right after reset (R60): MUX_STRIDE is 1, every other register 0, nothing pending. The platform's parameters
and the model's own fields have the values log 4 to log 8 name. -/
def State.reset : State :=
  { ie := false, done := false, err := false, drop := false, ecode := 0, cmd := 0,
    width := 0, height := 0, channels := 0, depth := 0, comp := 0, muxStride := 1,
    srcAddr := 0, srcLen := 0, cursor := 0, planeAddr := 0, dstAddr := 0, xferLen := 0,
    dataIn := 0, dataOut := 0, outCount := 0, curCh := 0, cmdPending := none,
    inChannel := false, mem := [], ramHoles := [], regBase := 0, schedule := [],
    hostData := 0, draws := 0 }

end Sys2Proof.Machine
end

