-- ==== Sys2Proof/Machine/Operands.lean ====
section
/-! DEFINITION. Machine/Operands.lean: the operand values of the commands, all unbounded integers computed from the registers
(R7, R9, R13, R14), and the bytes of memory and of the stream (R11, R12). -/

namespace Sys2Proof.Machine

/-- MAX_W = MAX_H (R7). -/
abbrev maxSide : Nat := 30000

/-- MAX_C (R7). -/
abbrev maxChannels : Nat := 24

/-- The number of data addresses, 2^ADDR_WIDTH (R7). -/
abbrev addrSpace : Nat := 0x100000000

/-- BUSY (R57): a command is accepted and not yet performed. -/
def State.busy (s : State) : Bool := s.cmdPending.isSome

/-- N, the plane length in bytes (R9). -/
def State.planeLen (s : State) : Nat := s.width.toNat * s.height.toNat

/-- C (R9). -/
def State.chanCount (s : State) : Nat := s.channels.toNat

/-- S (R9). -/
def State.stride (s : State) : Nat := s.muxStride.toNat

/-- BPC, the bytes of a channel sample of the raw path (R9). -/
def State.bytesPerSample (s : State) : Nat := s.depth.toNat / 8

/-- T, the length of the row-count table (R9). -/
def State.tableLen (s : State) : Nat := 2 * s.height.toNat * s.channels.toNat

/-- PlaneAddr(k, p) (R13). -/
def State.planeByte (s : State) (k p : Nat) : Nat := s.planeAddr.toNat + k * s.planeLen + p

/-- DstAddr(q) (R13). -/
def State.dstByte (s : State) (q : Nat) : Nat := s.dstAddr.toNat + q

/-- The address of the stream byte at an offset (R12). -/
def State.srcPos (s : State) (i : Nat) : Nat := s.srcAddr.toNat + i

/-- The output position of channel `k`'s byte `p` (R197). -/
def State.muxPos (s : State) (k p : Nat) : Nat := k * s.stride + p * s.chanCount * s.stride

/-- The stream `[SRC_ADDR, SRC_ADDR + SRC_LEN)` (R86). -/
def State.streamRange (s : State) : Range := ⟨s.srcAddr.toNat, s.srcLen.toNat⟩

/-- The planes `[PLANE_ADDR, PLANE_ADDR + C*N)` (R86). -/
def State.planesRange (s : State) : Range := ⟨s.planeAddr.toNat, s.chanCount * s.planeLen⟩

/-- The output `[DST_ADDR, DST_ADDR + N*C*S)` (R86, R196). -/
def State.outputRange (s : State) : Range := ⟨s.dstAddr.toNat, s.planeLen * s.chanCount * s.stride⟩

/-- The swap buffer `[SRC_ADDR, SRC_ADDR + XFER_LEN)` (R86). -/
def State.swapRange (s : State) : Range := ⟨s.srcAddr.toNat, s.xferLen.toNat⟩

/-- An address lies in a range. -/
def Range.holds (r : Range) (a : Nat) : Bool := decide (r.base ≤ a ∧ a < r.base + r.len)

/-- The disjointness of R248: one of the ranges is empty, or one ends before the other begins. -/
def Range.apart (r q : Range) : Bool :=
  decide (r.len = 0 ∨ q.len = 0 ∨ r.base + r.len ≤ q.base ∨ q.base + q.len ≤ r.base)

/-- RAM_VALID (R8). -/
def State.ramValid (s : State) (a : Nat) : Bool := s.ramHoles.all fun h => !h.holds a

/-- The byte at an address exists: it is one of the 2^32 locations and satisfies RAM_VALID (R80 (b)). -/
def State.byteExists (s : State) (a : Nat) : Bool := decide (a < addrSpace) && s.ramValid a

/-- Every byte of a range exists. -/
def State.rangeExists (s : State) (r : Range) : Bool :=
  decide (r.len = 0 ∨ r.base + r.len ≤ addrSpace) && s.ramHoles.all fun h => h.apart r

/-- MemRead(a, 1) (R11). -/
def Memory.read : Memory → Nat → Byte
  | [], x => unlistedByte x
  | (a, b) :: m, x => if a = x then b else Memory.read m x

/-- SrcByte(i) for an `i` the caller has checked against SRC_LEN (R12). -/
def State.srcByte (s : State) (i : Nat) : Byte := s.mem.read (s.srcPos i)

/-- The big-endian value of the `n` stream bytes from offset `i` (R81). -/
def State.streamBE (s : State) (i : Nat) : Nat → Nat
  | 0 => 0
  | n + 1 => s.streamBE i n * 256 + (s.srcByte (i + n)).toNat

/-- bswap16 (R210): `x[7:0] : x[15:8]`. -/
def bswap16 (x : BitVec 16) : BitVec 16 := x.extractLsb' 0 8 ++ x.extractLsb' 8 8

/-- bswap32 (R210): `x[7:0] : x[15:8] : x[23:16] : x[31:24]`. -/
def bswap32 (x : Word) : Word :=
  x.extractLsb' 0 8 ++ x.extractLsb' 8 8 ++ x.extractLsb' 16 8 ++ x.extractLsb' 24 8

/-- The run length of a LIT with low bits `n`: `c + 1` (R118). -/
def litRun (n : BitVec 7) : Nat := n.toNat + 1

/-- The run length of a REP with low bits `m`: `(c ^ 0xFF) + 2` (R119, C1). -/
def repRun (m : BitVec 7) : Nat := (((1#1 ++ m) : Byte) ^^^ 0xFF#8).toNat + 2

end Sys2Proof.Machine
end

