-- ==== Sys2Proof/Machine/Flags.lean ====
section
/-! DEFINITION. Machine/Flags.lean: every computation of a status bit: the code of an error (R240), the read views of CTRL and
STATUS (R34, R35), W1C (R35), acceptance (R36), and irq (R58). Completion, which is this block's way of taking an exception and of ending
without one, stands in Machine/Ops.lean. -/

namespace Sys2Proof.Machine

/-- ECODE (R240). -/
def ErrCode.code (e : ErrCode) : BitVec 4 :=
  match e with
  | .truncated => 1
  | .unsupportedDepth => 2
  | .unsupportedCompression => 3
  | .unknownCompression => 4
  | .rleOverrun => 5
  | .badParam => 6
  | .illegalCmd => 7
  | .addrRange => 8
  | .overlap => 9

/-- The word a read of CTRL returns: IE at bit 0, SRST and the reserved bits 0 (R34). -/
def State.ctrlWord (s : State) : Word := 0#31 ++ BitVec.ofBool s.ie

/-- The word a read of STATUS returns (R35). -/
def State.statusWord (s : State) : Word :=
  0#20 ++ s.ecode ++ 0#4 ++ BitVec.ofBool s.drop ++ BitVec.ofBool s.err ++ BitVec.ofBool s.done ++ BitVec.ofBool s.busy

/-- irq = CTRL.IE & (STATUS.DONE | STATUS.ERR) (R58, R255). -/
def State.irq (s : State) : Bool := s.ie && (s.done || s.err)

/-- The input of the host's interrupt controller that irq drives now, if any (R255; log 9). -/
def State.irqInput (s : State) : Option Nat := if s.irq then some Config.irqLine else none

/-- A STATUS write while BUSY = 0 (R35): v[1] clears DONE, v[2] clears ERR and ECODE, v[3] clears DROP. -/
def State.writeStatus (s : State) (v : Word) : State :=
  { s with
    done := s.done && !v.getLsbD 1
    err := s.err && !v.getLsbD 2
    ecode := if v.getLsbD 2 then 0 else s.ecode
    drop := s.drop && !v.getLsbD 3 }

/-- Acceptance of a command word (R36): DROP is not changed. -/
def State.accept (s : State) (v : Word) : State :=
  { s with cmd := v, done := false, err := false, ecode := 0, cmdPending := some v }

end Sys2Proof.Machine
end

