-- ==== Sys2Proof/Machine/Ops.lean ====
section
/-! DEFINITION. Machine/Ops.lean: the shared operations: writing memory (R11), the pseudocode's loops and its `raise` and `done`
(R11, R250, R253), the checks (R246 to R248) and the frame of every command step (R86, R116). -/

namespace Sys2Proof.Machine

/-- MemWrite(x, 1, v) (R11), keeping the canonical form. -/
def Memory.write : Memory → Nat → Byte → Memory
  | [], x, v => [(x, v)]
  | (a, b) :: m, x, v =>
    if x < a then (x, v) :: (a, b) :: m
    else if x = a then (x, v) :: m
    else (a, b) :: Memory.write m x v

/-- `for i in [0, n)` over memory, in rising order (R11). -/
def Memory.forEach (m : Memory) : Nat → (Nat → Memory → Memory) → Memory
  | 0, _ => m
  | n + 1, body => body n (m.forEach n body)

/-- Writing a list of bytes at consecutive addresses. -/
def Memory.writeList (m : Memory) (a : Nat) : List Byte → Memory
  | [] => m
  | b :: bs => Memory.writeList (m.write a b) (a + 1) bs

/-- How a piece of pseudocode ends (R11): it runs on from a state, or it raised an error in a state. -/
inductive Exit where
  | ok (s : State)
  | raise (e : ErrCode) (s : State)
deriving DecidableEq, Repr

/-- Sequencing of pseudocode: a `raise` ends the command (R140). -/
def Exit.andThen (x : Exit) (f : State → Exit) : Exit :=
  match x with
  | .ok s => f s
  | .raise e s => .raise e s

/-- `for k in [0, n)` over pseudocode, in rising order (R11). -/
def forChannels : Nat → (Nat → State → Exit) → State → Exit
  | 0, _, s => .ok s
  | n + 1, body, s => (forChannels n body s).andThen (body n)

/-- Error completion, this block's taking of an exception (R250): ERR and ECODE are set, BUSY and cmd_pending cleared, nothing
else is saved. -/
def State.completeErr (s : State) (e : ErrCode) : State :=
  { s with err := true, ecode := e.code, cmdPending := none, inChannel := false }

/-- Success completion (R253). -/
def State.completeDone (s : State) : State :=
  { s with done := true, cmdPending := none, inChannel := false }

/-- The end of a command's pseudocode: exactly one `done` or one `raise` (R116). -/
def Exit.complete (x : Exit) : Outcome :=
  match x with
  | .ok s => .next s.completeDone
  | .raise e s => .next (s.completeErr e)

/-- Between the elements of a channel a `raise` completes the command and a pass without one does not (R167). -/
def Exit.resume (x : Exit) : Outcome :=
  match x with
  | .ok s => .next s
  | .raise e s => .next (s.completeErr e)

/-- CheckGeom (R246). -/
def checkGeom (s : State) : Option ErrCode :=
  if 1 ≤ s.width.toNat ∧ s.width.toNat ≤ maxSide ∧ 1 ≤ s.height.toNat ∧ s.height.toNat ≤ maxSide ∧
      1 ≤ s.channels.toNat ∧ s.channels.toNat ≤ maxChannels
  then none else some .badParam

/-- CheckStride (R246). -/
def checkStride (s : State) : Option ErrCode :=
  if s.stride = 1 ∨ s.stride = 2 then none else some .badParam

/-- `if ch >= C: raise BAD_PARAM` (R166, R190, R246). -/
def checkChannel (s : State) (ch : Nat) : Option ErrCode :=
  if ch < s.chanCount then none else some .badParam

/-- XFER_LEN must be a multiple of the unit (R213, R214, R246). -/
def checkUnit (s : State) (unit : Nat) : Option ErrCode :=
  if s.xferLen.toNat % unit = 0 then none else some .badParam

/-- DEPTH must be 8 or 16 (R242). -/
def checkDepth (s : State) : Option ErrCode :=
  if s.depth.toNat = 8 ∨ s.depth.toNat = 16 then none else some .unsupportedDepth

/-- CheckRange (R247). -/
def checkRange (r : Range) : Option ErrCode :=
  if r.len = 0 ∨ r.base + r.len ≤ addrSpace then none else some .addrRange

/-- CheckDisjoint (R248). -/
def checkDisjoint (r q : Range) : Option ErrCode :=
  if r.apart q then none else some .overlap

/-- One command reports exactly one error, the first its pseudocode reaches (R249). -/
def firstError : List (Option ErrCode) → Option ErrCode
  | [] => none
  | some e :: _ => some e
  | none :: cs => firstError cs

/-- The frame of a command step (R116): its static checks in order, then, since its ranges are fixed before it touches memory,
the refusal of a range outside RAM_VALID (R86; log 10), then its effect and its completion. -/
def runCommand (checks : List (Option ErrCode)) (ranges : List Range) (effect : State → Exit) (s : State) : Outcome :=
  match firstError checks with
  | some e => .next (s.completeErr e)
  | none => if ranges.all s.rangeExists then (effect s).complete else .refused .outsideRam

end Sys2Proof.Machine
end

