-- ==== Sys2Proof/Machine/Packbits.lean ====
section
/-! DEFINITION. Machine/Packbits.lean: the PackBits decompressor (41_packbits.md): the three elements, DecodePlane and RLE_CHAN. -/

namespace Sys2Proof.Machine

/-- The effect of LIT on a channel's decode (R161): both bounds are checked before any byte is written (R164, R165). -/
def litEffect (n : BitVec 7) (s : State) : Exit :=
  let i := s.cursor.toNat
  let count := s.outCount.toNat
  let run := litRun n
  if s.srcLen.toNat < i + 1 + run then .raise .truncated s
  else if s.planeLen < count + run then .raise .rleOverrun s
  else .ok { s with
    mem := s.mem.forEach run fun j m => m.write (s.planeByte s.curCh.toNat (count + j)) (m.read (s.srcPos (i + 1 + j)))
    outCount := BitVec.ofNat 32 (count + run)
    cursor := BitVec.ofNat 32 (i + 1 + run) }

/-- The effect of REP on a channel's decode (R162). -/
def repEffect (m : BitVec 7) (s : State) : Exit :=
  let i := s.cursor.toNat
  let count := s.outCount.toNat
  let run := repRun m
  if s.srcLen.toNat < i + 2 then .raise .truncated s
  else if s.planeLen < count + run then .raise .rleOverrun s
  else .ok { s with
    mem := s.mem.forEach run fun j mem => mem.write (s.planeByte s.curCh.toNat (count + j)) (s.srcByte (i + 1))
    outCount := BitVec.ofNat 32 (count + run)
    cursor := BitVec.ofNat 32 (i + 2) }

/-- The effect of NOP80 on a channel's decode (R163): one stream byte is consumed, OUT_COUNT keeps its value. -/
def nop80Effect (s : State) : Exit :=
  .ok { s with cursor := BitVec.ofNat 32 (s.cursor.toNat + 1) }

/-- One pass of DecodePlane's loop (R167): the control byte at CURSOR, then the element it selects. -/
def elementPass (s : State) : Exit :=
  let i := s.cursor.toNat
  if s.srcLen.toNat ≤ i then .raise .truncated s
  else selectElement (s.srcByte i) (fun n => litEffect n s) (fun m => repEffect m s) (nop80Effect s)

/-- The loop of DecodePlane (R167): `while count < N`. The fuel bounds the passes (R168) and never runs out. -/
def elementLoop : Nat → State → Exit
  | 0, s => .ok s
  | fuel + 1, s =>
    if s.outCount.toNat < s.planeLen then (elementPass s).andThen (elementLoop fuel)
    else .ok { s with inChannel := false }

/-- The start of DecodePlane(k) (R167): CUR_CH is k, the count is 0 and stands in OUT_COUNT (R160; log 3). -/
def beginChannel (k : Nat) (s : State) : State :=
  { s with curCh := BitVec.ofNat 5 k, outCount := 0, inChannel := true }

/-- A bound on the passes of DecodePlane (R168). -/
def passBound (s : State) : Nat := s.srcLen.toNat - s.cursor.toNat + 1

/-- DecodePlane(k) (R167). -/
def decodePlane (k : Nat) (s : State) : Exit := elementLoop (passBound s) (beginChannel k s)

/-- The static checks of RLE_CHAN in the order of R166. -/
def rleChanChecks (ch : Nat) (s : State) : List (Option ErrCode) :=
  [checkGeom s, checkChannel s ch, checkRange s.streamRange, checkRange s.planesRange,
    checkDisjoint s.streamRange s.planesRange]

/-- The ranges of RLE_CHAN (R86). -/
def rleChanRanges (s : State) : List Range := [s.streamRange, s.planesRange]

/-- RLE_CHAN ch (R166). -/
def execRleChan (ch : BitVec 8) (s : State) : Outcome :=
  runCommand (rleChanChecks ch.toNat s) (rleChanRanges s) (decodePlane ch.toNat) s

/-- An element as an instruction: if the static checks of a decode of channel CUR_CH fail (R160, R166) the machine is stuck, and if
its ranges do not exist the step is refused (R86); else it has its effect. DESIGN CHOICE (log 20): these checks are all that is asked,
so an element executed with no channel open, the plane full or CURSOR at or past SRC_LEN, where the spec gives it no meaning (R167),
has the effect its rule's pseudocode gives on the registers as they stand. No step executes it there. -/
def runElement (effect : State → Exit) (s : State) : Outcome :=
  match firstError (rleChanChecks s.curCh.toNat s) with
  | some _ => .fault .noChannel
  | none => if (rleChanRanges s).all s.rangeExists then (effect s).resume else .refused .outsideRam

/-- LIT (R161): one element of the channel's decode that stands at CURSOR. -/
def execLit (n : BitVec 7) (s : State) : Outcome := runElement (litEffect n) s

/-- REP (R162). -/
def execRep (m : BitVec 7) (s : State) : Outcome := runElement (repEffect m) s

/-- NOP80 (R163). -/
def execNop80 (s : State) : Outcome := runElement nop80Effect s

end Sys2Proof.Machine
end

