-- ==== Sys2Proof/Machine/Planar.lean ====
section
/-! DEFINITION. Machine/Planar.lean: the raw plane copy and the planar-to-interleaved mux (42_planar_mux.md): CopyPlane and
RAW_CHAN, Mux and MUX. -/

namespace Sys2Proof.Machine

/-- The start of CopyPlane(k) (R191). -/
def beginCopy (k : Nat) (s : State) : State := { s with curCh := BitVec.ofNat 5 k, outCount := 0 }

/-- CopyPlane(k) (R191): the whole plane is checked before any byte is written; at DEPTH 16 the high byte of each big-endian
sample is kept. -/
def copyPlane (k : Nat) (s₀ : State) : Exit :=
  let s := beginCopy k s₀
  let i := s.cursor.toNat
  if s.srcLen.toNat < i + s.planeLen * s.bytesPerSample then .raise .truncated s
  else .ok { s with
    mem := s.mem.forEach s.planeLen fun p m => m.write (s.planeByte k p) (m.read (s.srcPos (i + p * s.bytesPerSample)))
    cursor := BitVec.ofNat 32 (i + s.planeLen * s.bytesPerSample)
    outCount := BitVec.ofNat 32 s.planeLen }

/-- The static checks of RAW_CHAN in the order of R190. -/
def rawChanChecks (ch : Nat) (s : State) : List (Option ErrCode) :=
  [checkGeom s, checkChannel s ch, checkDepth s, checkRange s.streamRange, checkRange s.planesRange,
    checkDisjoint s.streamRange s.planesRange]

/-- The ranges of RAW_CHAN (R86). -/
def rawChanRanges (s : State) : List Range := [s.streamRange, s.planesRange]

/-- RAW_CHAN ch (R190). -/
def execRawChan (ch : BitVec 8) (s : State) : Outcome :=
  runCommand (rawChanChecks ch.toNat s) (rawChanRanges s) (copyPlane ch.toNat) s

/-- Mux (R197): channel k's byte p goes to output position k*S + p*C*S. -/
def muxEffect (s : State) : State :=
  { s with mem := s.mem.forEach s.planeLen fun p m => m.forEach s.chanCount fun k m =>
      m.write (s.dstByte (s.muxPos k p)) (m.read (s.planeByte k p)) }

/-- The static checks of MUX in the order of R195. -/
def muxChecks (s : State) : List (Option ErrCode) :=
  [checkGeom s, checkStride s, checkRange s.planesRange, checkRange s.outputRange,
    checkDisjoint s.planesRange s.outputRange]

/-- The ranges of MUX (R86). -/
def muxRanges (s : State) : List Range := [s.planesRange, s.outputRange]

/-- MUX (R195). -/
def execMux (s : State) : Outcome :=
  runCommand (muxChecks s) (muxRanges s) (fun s => .ok (muxEffect s)) s

end Sys2Proof.Machine
end

