-- ==== Sys2Proof/Machine/Sequencing.lean ====
section
/-! DEFINITION. Machine/Sequencing.lean: the image-data sequencing commands (40_decode_image.md): NOP, DECODE_IMAGE,
SKIP_COUNTS. -/

namespace Sys2Proof.Machine

/-- NOP (R141): `done`. -/
def execNop (s : State) : Outcome := (Exit.ok s).complete

/-- The skip of the row-count table (R147, R152): its bytes are not read. -/
def skipTable (s : State) : Exit :=
  if s.srcLen.toNat < s.cursor.toNat + s.tableLen then .raise .truncated s
  else .ok { s with cursor := BitVec.ofNat 32 (s.cursor.toNat + s.tableLen) }

/-- The static checks of SKIP_COUNTS in the order of R152. -/
def skipCountsChecks (s : State) : List (Option ErrCode) := [checkGeom s, checkRange s.streamRange]

/-- SKIP_COUNTS (R152): it reads no memory, so it uses no range of it (log 10). -/
def execSkipCounts (s : State) : Outcome := runCommand (skipCountsChecks s) [] skipTable s

/-- The compression-code read (R144): 2 stream bytes, big-endian, into COMP. -/
def readCode (s : State) : Exit :=
  let cur := s.cursor.toNat
  if s.srcLen.toNat < cur + 2 then .raise .truncated s
  else .ok { s with comp := BitVec.ofNat 16 (s.streamBE cur 2), cursor := BitVec.ofNat 32 (cur + 2) }

/-- The compression dispatch (R145) and the depth check (R146). -/
def dispatchCode (s : State) : Exit :=
  let code := s.comp.toNat
  if code = 2 ∨ code = 3 then .raise .unsupportedCompression s
  else if code ≠ 0 ∧ code ≠ 1 then .raise .unknownCompression s
  else if s.depth.toNat ≠ 8 ∧ s.depth.toNat ≠ 16 then .raise .unsupportedDepth s
  else .ok s

/-- The RLE path (R147): the table is skipped, then channel 0 to C-1 are decoded in order. -/
def rlePath (s : State) : Exit := (skipTable s).andThen fun s => forChannels s.chanCount decodePlane s

/-- The raw path (R148). -/
def rawPath (s : State) : Exit := forChannels s.chanCount copyPlane s

/-- The planes of DECODE_IMAGE, from the code read on (R143). -/
def decodePlanes (s : State) : Exit :=
  (readCode s).andThen fun s => (dispatchCode s).andThen fun s => if s.comp.toNat = 1 then rlePath s else rawPath s

/-- The effect of DECODE_IMAGE (R143): after every plane is written, Mux (R149). -/
def decodeImageEffect (s : State) : Exit := (decodePlanes s).andThen fun s => .ok (muxEffect s)

/-- The static checks of DECODE_IMAGE in the order of R143. -/
def decodeImageChecks (s : State) : List (Option ErrCode) :=
  [checkGeom s, checkStride s, checkRange s.streamRange, checkRange s.planesRange, checkRange s.outputRange,
    checkDisjoint s.streamRange s.planesRange, checkDisjoint s.streamRange s.outputRange,
    checkDisjoint s.planesRange s.outputRange]

/-- The ranges of DECODE_IMAGE (R86). -/
def decodeImageRanges (s : State) : List Range := [s.streamRange, s.planesRange, s.outputRange]

/-- DECODE_IMAGE (R142, R143). -/
def execDecodeImage (s : State) : Outcome :=
  runCommand (decodeImageChecks s) (decodeImageRanges s) decodeImageEffect s

end Sys2Proof.Machine
end

