-- ==== Sys2Proof/Machine/Swapper.lean ====
section
/-! DEFINITION. Machine/Swapper.lean: the byte-order swapper (43_byteswap.md): SWAP16, SWAP32, SWAPBUF16, SWAPBUF32, LDBE16,
LDBE32. -/

namespace Sys2Proof.Machine

/-- SWAP16 (R211). -/
def execSwap16 (s : State) : Outcome :=
  (Exit.ok { s with dataOut := (bswap16 (s.dataIn.extractLsb' 0 16)).setWidth 32 }).complete

/-- SWAP32 (R212). -/
def execSwap32 (s : State) : Outcome := (Exit.ok { s with dataOut := bswap32 s.dataIn }).complete

/-- The reversal of the 2 bytes at `a` (R213). -/
def swapUnit16 (m : Memory) (a : Nat) : Memory :=
  let b0 := m.read a
  let b1 := m.read (a + 1)
  (m.write a b1).write (a + 1) b0

/-- The reversal of the 4 bytes at `a` (R214). -/
def swapUnit32 (m : Memory) (a : Nat) : Memory :=
  let b0 := m.read a
  let b1 := m.read (a + 1)
  let b2 := m.read (a + 2)
  let b3 := m.read (a + 3)
  (((m.write a b3).write (a + 1) b2).write (a + 2) b1).write (a + 3) b0

/-- The static checks of SWAPBUF16 (unit 2, R213) and SWAPBUF32 (unit 4, R214), in order. -/
def swapbufChecks (unit : Nat) (s : State) : List (Option ErrCode) := [checkUnit s unit, checkRange s.swapRange]

/-- The range of SWAPBUF16 and SWAPBUF32 (R86). -/
def swapbufRanges (s : State) : List Range := [s.swapRange]

/-- The in-place swap of SWAPBUF16 (R213). -/
def swapbuf16Effect (s : State) : Exit :=
  .ok { s with mem := s.mem.forEach (s.xferLen.toNat / 2) fun u m => swapUnit16 m (s.srcAddr.toNat + 2 * u) }

/-- SWAPBUF16 (R213). -/
def execSwapbuf16 (s : State) : Outcome := runCommand (swapbufChecks 2 s) (swapbufRanges s) swapbuf16Effect s

/-- The in-place swap of SWAPBUF32 (R214). -/
def swapbuf32Effect (s : State) : Exit :=
  .ok { s with mem := s.mem.forEach (s.xferLen.toNat / 4) fun u m => swapUnit32 m (s.srcAddr.toNat + 4 * u) }

/-- SWAPBUF32 (R214). -/
def execSwapbuf32 (s : State) : Outcome := runCommand (swapbufChecks 4 s) (swapbufRanges s) swapbuf32Effect s

/-- The big-endian load of `n` stream bytes at CURSOR (R215, R216): the value is zero-extended into DATA_OUT. -/
def loadBE (n : Nat) (s : State) : Exit :=
  let i := s.cursor.toNat
  if s.srcLen.toNat < i + n then .raise .truncated s
  else .ok { s with dataOut := BitVec.ofNat 32 (s.streamBE i n), cursor := BitVec.ofNat 32 (i + n) }

/-- The static check of LDBE16 and LDBE32 (R215, R216). -/
def ldbeChecks (s : State) : List (Option ErrCode) := [checkRange s.streamRange]

/-- The range of LDBE16 and LDBE32 (R86). -/
def ldbeRanges (s : State) : List Range := [s.streamRange]

/-- LDBE16 (R215). -/
def execLdbe16 (s : State) : Outcome := runCommand (ldbeChecks s) (ldbeRanges s) (loadBE 2) s

/-- LDBE32 (R216). -/
def execLdbe32 (s : State) : Outcome := runCommand (ldbeChecks s) (ldbeRanges s) (loadBE 4) s

end Sys2Proof.Machine
end

