-- ==== Sys2Proof/Machine/Dispatch.lean ====
section
/-! DEFINITION. Machine/Dispatch.lean: one arm per constructor of Instr (R112, R117). -/

namespace Sys2Proof.Machine

def exec (i : Instr) (s : State) : Host.Outcome State Fault Refusal :=
  match i with
  | .nop => Sys2Proof.Machine.execNop s
  | .decodeImage => Sys2Proof.Machine.execDecodeImage s
  | .skipCounts => Sys2Proof.Machine.execSkipCounts s
  | .rleChan ch => Sys2Proof.Machine.execRleChan ch s
  | .rawChan ch => Sys2Proof.Machine.execRawChan ch s
  | .mux => Sys2Proof.Machine.execMux s
  | .swap16 => Sys2Proof.Machine.execSwap16 s
  | .swap32 => Sys2Proof.Machine.execSwap32 s
  | .swapbuf16 => Sys2Proof.Machine.execSwapbuf16 s
  | .swapbuf32 => Sys2Proof.Machine.execSwapbuf32 s
  | .ldbe16 => Sys2Proof.Machine.execLdbe16 s
  | .ldbe32 => Sys2Proof.Machine.execLdbe32 s
  | .lit n => Sys2Proof.Machine.execLit n s
  | .nop80 => Sys2Proof.Machine.execNop80 s
  | .rep m => Sys2Proof.Machine.execRep m s

end Sys2Proof.Machine
end

