-- ==== Sys2Proof/Machine/Sequencer.lean ====
section
/-! DEFINITION. Machine/Sequencer.lean: the sequencer's step (R95, R115), the step between two elements of a channel (R167), and
the ranges of the accepted command (R86, R282). -/

namespace Sys2Proof.Machine

/-- The static checks of a command in the order of R249: those it makes before it touches memory or writes a register. -/
def staticChecks (i : Instr) (s : State) : List (Option ErrCode) :=
  match i with
  | .decodeImage => decodeImageChecks s
  | .skipCounts => skipCountsChecks s
  | .rleChan ch => rleChanChecks ch.toNat s
  | .rawChan ch => rawChanChecks ch.toNat s
  | .mux => muxChecks s
  | .swapbuf16 => swapbufChecks 2 s
  | .swapbuf32 => swapbufChecks 4 s
  | .ldbe16 | .ldbe32 => ldbeChecks s
  | .nop | .swap16 | .swap32 | .lit _ | .nop80 | .rep _ => []

/-- The ranges a command reads or writes once its static checks hold (R86). -/
def usedRanges (i : Instr) (s : State) : List Range :=
  match i with
  | .decodeImage => decodeImageRanges s
  | .rleChan _ => rleChanRanges s
  | .rawChan _ => rawChanRanges s
  | .mux => muxRanges s
  | .swapbuf16 | .swapbuf32 => swapbufRanges s
  | .ldbe16 | .ldbe32 => ldbeRanges s
  | .nop | .skipCounts | .swap16 | .swap32 | .lit _ | .nop80 | .rep _ => []

/-- The ranges a command could write (R282). -/
def writtenRanges (i : Instr) (s : State) : List Range :=
  match i with
  | .decodeImage => [s.planesRange, s.outputRange]
  | .rleChan _ | .rawChan _ => [s.planesRange]
  | .mux => [s.outputRange]
  | .swapbuf16 | .swapbuf32 => [s.swapRange]
  | .nop | .skipCounts | .swap16 | .swap32 | .ldbe16 | .ldbe32 | .lit _ | .nop80 | .rep _ => []

/-- The accepted command, if one is pending and its word is legal (R57, R113). -/
def State.acceptedCommand (s : State) : Option Instr := s.cmdPending.bind fun w => (decodeCommand w).toOption

/-- The ranges `f` of the accepted command; none if a static check fails, since the command then accesses no memory (log 11). -/
def State.acceptedRanges (f : Instr → State → List Range) (s : State) : List Range :=
  match s.acceptedCommand with
  | some i => if firstError (staticChecks i s) = none then f i s else []
  | none => []

/-- The end of a channel's decode (R167): RLE_CHAN is done; DECODE_IMAGE begins the next channel, or runs Mux after the last
(R147, R149). -/
def closeChannel (i : Instr) (s : State) : State :=
  match i with
  | .decodeImage =>
    if s.curCh.toNat + 1 < s.chanCount then beginChannel (s.curCh.toNat + 1) s
    else (muxEffect s).completeDone
  | .rleChan _ | .nop | .skipCounts | .rawChan _ | .mux | .swap16 | .swap32 | .swapbuf16 | .swapbuf32
  | .ldbe16 | .ldbe32 | .lit _ | .nop80 | .rep _ => s.completeDone

/-- The command decodes channels through DecodePlane (R166, R143). -/
def decodesChannels (i : Instr) : Bool :=
  match i with
  | .decodeImage | .rleChan _ => true
  | .nop | .skipCounts | .rawChan _ | .mux | .swap16 | .swap32 | .swapbuf16 | .swapbuf32
  | .ldbe16 | .ldbe32 | .lit _ | .nop80 | .rep _ => false

/-- The step between two elements of DecodePlane under the command `i` (R167): while count < N the control byte at CURSOR is
fetched and its element executed; then the channel ends. No run from reset stands here, since a command is one step (R95;
log 2). -/
def channelStep (i : Instr) (s : State) : Outcome :=
  if decodesChannels i = true ∧ firstError (staticChecks i s) = none ∧ s.curCh.toNat < s.chanCount then
    if (usedRanges i s).all s.rangeExists then
      if s.outCount.toNat < s.planeLen then
        if s.srcLen.toNat ≤ s.cursor.toNat then .next (s.completeErr .truncated)
        else exec (decodeElement (s.srcByte s.cursor.toNat)) s
      else .next (closeChannel i s)
    else .refused .outsideRam
  else .fault .noChannel

/-- The sequencer's step (R95): Decode of the accepted word (R115), then the command; an illegal word raises ILLEGAL_CMD (R113,
R245); with nothing pending the block is idle (R263). -/
def sequencerStep (s : State) : Outcome :=
  match s.cmdPending with
  | none => .next s
  | some w =>
    match decodeCommand w with
    | .error _ => .next (s.completeErr .illegalCmd)
    | .ok i => if s.inChannel then channelStep i s else exec i s

end Sys2Proof.Machine
end

