-- ==== Sys2Proof/Machine/Window.lean ====
section
/-! DEFINITION. Machine/Window.lean: the register window (10_state.md): names and offsets (R32), reads (R33 to R56), writes
(R34 to R55) and the soft reset (R281). -/

namespace Sys2Proof.Machine

/-- The 20 registers of the window (R32). -/
inductive RegName where
  | id | ctrl | status | cmd | width | height | channels | depth | comp | muxStride | srcAddr | srcLen | cursor
  | planeAddr | dstAddr | xferLen | dataIn | dataOut | outCount | curCh
deriving DecidableEq, Repr

/-- The registers in the order of their offsets (R32). -/
def allRegs : List RegName :=
  [.id, .ctrl, .status, .cmd, .width, .height, .channels, .depth, .comp, .muxStride, .srcAddr, .srcLen, .cursor,
    .planeAddr, .dstAddr, .xferLen, .dataIn, .dataOut, .outCount, .curCh]

/-- The offset of a register in the window (R32). -/
def RegName.offset (r : RegName) : Nat :=
  match r with
  | .id => 0x00 | .ctrl => 0x04 | .status => 0x08 | .cmd => 0x0C
  | .width => 0x10 | .height => 0x14 | .channels => 0x18 | .depth => 0x1C
  | .comp => 0x20 | .muxStride => 0x24 | .srcAddr => 0x28 | .srcLen => 0x2C
  | .cursor => 0x30 | .planeAddr => 0x34 | .dstAddr => 0x38 | .xferLen => 0x3C
  | .dataIn => 0x40 | .dataOut => 0x44 | .outCount => 0x48 | .curCh => 0x4C

/-- The register at an offset; none at a reserved offset (R53). -/
def regAt (off : Nat) : Option RegName := allRegs.find? fun r => r.offset == off

/-- The size of the window in bytes (R7, R32). -/
def windowSize : Nat := 0x100

/-- The constant of ID (R33). -/
def idValue : Word := 0x50534431

/-- The offset an access of the host reaches in the window, or why the model refuses it: an address outside the window
(log 15), or an access that is not a 32-bit access at a multiple of 4 (R85). DESIGN CHOICE (log 8): REG_BASE and the host's bus
addresses are 32 bits wide, so the part of a window that passes 2^32 is reached by no access; the spec gives the width of data
addresses only (R7, R80). -/
def State.windowOffset (s : State) (addr : Word) (size : AccessSize) : Except Refusal Nat :=
  let off := addr.toNat - s.regBase.toNat
  if addr.toNat < s.regBase.toNat ∨ s.regBase.toNat + windowSize ≤ addr.toNat then .error .outsideWindow
  else if size = .word ∧ off % 4 = 0 then .ok off
  else .error .badAccess

/-- The value a register holds (R33 to R52), zero-extended where it has fewer than 32 bits. -/
def State.regValue (s : State) (r : RegName) : Word :=
  match r with
  | .id => idValue
  | .ctrl => s.ctrlWord
  | .status => s.statusWord
  | .cmd => s.cmd
  | .width => s.width
  | .height => s.height
  | .channels => s.channels
  | .depth => s.depth
  | .comp => s.comp.setWidth 32
  | .muxStride => s.muxStride
  | .srcAddr => s.srcAddr
  | .srcLen => s.srcLen
  | .cursor => s.cursor
  | .planeAddr => s.planeAddr
  | .dstAddr => s.dstAddr
  | .xferLen => s.xferLen
  | .dataIn => s.dataIn
  | .dataOut => s.dataOut
  | .outCount => s.outCount
  | .curCh => s.curCh.setWidth 32

/-- The bits of a progress register that a read while BUSY leaves open (R56), none for the other registers. The hard-wired zero
bits of COMP and CUR_CH (R54, U13) are not open (DEDUCED, log 12). -/
def RegName.openBits (r : RegName) : Option Word :=
  match r with
  | .comp => some 0x0000FFFF
  | .curCh => some 0x0000001F
  | .cursor | .dataOut | .outCount => some 0xFFFFFFFF
  | .id | .ctrl | .status | .cmd | .width | .height | .channels | .depth | .muxStride => none
  | .srcAddr | .srcLen | .planeAddr | .dstAddr | .xferLen | .dataIn => none

/-- A register read (R87: no side effect on the block): the value goes to the host. While BUSY a progress register reads a free
value (R56, U14). -/
def State.readReg (s : State) (r : RegName) : State :=
  match s.busy, r.openBits with
  | true, some bits => { s with hostData := Config.freeWord s.draws &&& bits, draws := s.draws + 1 }
  | _, _ => { s with hostData := s.regValue r }

/-- A read at an offset of the window: a reserved offset reads 0 (R53). -/
def State.readOffset (s : State) (off : Nat) : State :=
  match regAt off with
  | some r => s.readReg r
  | none => { s with hostData := 0 }

/-- Every register at its reset value (R60), everything that is not a register of PBD kept: memory (R283), the platform, and
the model's own fields. -/
def State.resetRegs (s : State) : State :=
  { State.reset with
    mem := s.mem, ramHoles := s.ramHoles, regBase := s.regBase,
    schedule := s.schedule, hostData := s.hostData, draws := s.draws }

/-- A CTRL write while BUSY = 0 (R34): bit 1 is the soft reset (R281) and then bit 0 is discarded, else bit 0 is IE. -/
def State.writeCtrl (s : State) (v : Word) : State :=
  if v.getLsbD 1 then s.resetRegs else { s with ie := v.getLsbD 0 }

/-- A register write while BUSY = 0: an RW register stores the 32 bits written (R54), an RO register ignores them (R32). -/
def State.writeReg (s : State) (r : RegName) (v : Word) : State :=
  match r with
  | .ctrl => s.writeCtrl v
  | .status => s.writeStatus v
  | .cmd => s.accept v
  | .width => { s with width := v }
  | .height => { s with height := v }
  | .channels => { s with channels := v }
  | .depth => { s with depth := v }
  | .muxStride => { s with muxStride := v }
  | .srcAddr => { s with srcAddr := v }
  | .srcLen => { s with srcLen := v }
  | .cursor => { s with cursor := v }
  | .planeAddr => { s with planeAddr := v }
  | .dstAddr => { s with dstAddr := v }
  | .xferLen => { s with xferLen := v }
  | .dataIn => { s with dataIn := v }
  | .id | .comp | .dataOut | .outCount | .curCh => s

/-- A write at an offset of the window: ignored while BUSY, where a CMD write sets DROP (R55); ignored at a reserved offset
(R53). -/
def State.writeOffset (s : State) (off : Nat) (v : Word) : State :=
  match s.busy, regAt off with
  | true, some .cmd => { s with drop := true }
  | true, _ => s
  | false, some r => s.writeReg r v
  | false, none => s

end Sys2Proof.Machine
end

