-- ==== Sys2Proof/Machine/HostPort.lean ====
section
/-! DEFINITION. Machine/HostPort.lean: the host's moves: accesses to the register window (R80 (a), R85), accesses to data memory
(R80 (b), R96) and the hard reset (R280, R282). -/

namespace Sys2Proof.Machine

/-- A host memory access at `a` races the accepted command (R96). -/
def State.races (s : State) (a : Nat) : Bool := (s.acceptedRanges usedRanges).any fun r => r.holds a

/-- A host access to a data byte: refused where it races (R96) or where the byte does not exist (log 19). -/
def hostAccess (a : Nat) (s s' : State) : Outcome :=
  if s.races a then .refused .race
  else if s.byteExists a then .next s'
  else .refused .outsideRam

/-- The bytes of a range become free values, each of its own (R282, U19; log 13): those that exist. -/
def State.scramble (s : State) (r : Range) (m : Memory) : Memory :=
  m.forEach r.len fun j m =>
    if s.byteExists (r.base + j) then m.write (r.base + j) (Config.freeByte s.draws (r.base + j)) else m

/-- The hard reset (R280): every register at its reset value; a pending command is abandoned, and every byte it could write
becomes a free value (R282). It is one step (U28; log 22). -/
def hardReset (s : State) : State :=
  let r := s.resetRegs
  match s.cmdPending with
  | none => r
  | some _ => { r with mem := (s.acceptedRanges writtenRanges).foldl (fun m q => s.scramble q m) s.mem, draws := s.draws + 1 }

/-- A register write of the host (R54, R55, R87). -/
def hostRegWrite (addr : Word) (size : AccessSize) (v : Word) (s : State) : Outcome :=
  match s.windowOffset addr size with
  | .ok off => .next (s.writeOffset off v)
  | .error r => .refused r

/-- A register read of the host (R56, R87). -/
def hostRegRead (addr : Word) (size : AccessSize) (s : State) : Outcome :=
  match s.windowOffset addr size with
  | .ok off => .next (s.readOffset off)
  | .error r => .refused r

/-- A move of an agent (R16), taken from the head of the schedule. -/
def runMove (m : Move) (s : State) : Outcome :=
  match m with
  | .regWrite addr size v => hostRegWrite addr size v s
  | .regRead addr size => hostRegRead addr size s
  | .memWrite addr b => hostAccess addr.toNat s { s with mem := s.mem.write addr.toNat b }
  | .memRead addr => hostAccess addr.toNat s { s with hostData := (s.mem.read addr.toNat).setWidth 32 }
  | .hardReset => .next (hardReset s)
  | .secondHost => .refused .secondHost
  | .sequencer => sequencerStep s

/-- The next move: the head of the schedule, or the sequencer's where the schedule is empty (R16, R95; log 4). -/
def nextMove (s : State) : Outcome :=
  match s.schedule with
  | [] => sequencerStep s
  | m :: rest => runMove m { s with schedule := rest }

/-- A command word stands accepted and the sequencer moves next (R36; log 16). -/
def State.withCommand (s : State) (w : Word) : State :=
  { s.accept w with inChannel := false, schedule := [] }

/-- A channel's decode stands at an element with control byte `c` (R160; log 16): RLE_CHAN 0 is accepted, its channel is begun, the
stream at offset 0 holds `c` and then 128 bytes of zero, the plane takes the longest run, all of it exists and nothing
overlaps. -/
def State.withElement (s : State) (c : Byte) : State :=
  { (beginChannel 0 (s.withCommand (commandWord 0x03 0))) with
    width := 128, height := 1, channels := 1, srcAddr := 0, srcLen := 129, cursor := 0, planeAddr := 0x100,
    ramHoles := [], mem := s.mem.writeList 0 (c :: List.replicate 128 0x00) }

end Sys2Proof.Machine
end

