-- ==== Sys2Proof/Machine/Step.lean ====
section
/-! DEFINITION. Machine/Step.lean: one step of the machine (R16, R95), and the placing of the next instruction. -/

namespace Sys2Proof.Machine

/-- One step: one move of one agent. -/
def step (s : State) : Host.Outcome State Fault Refusal := nextMove s

/-- `s` with the instruction of a table row placed where the next step runs it: a command word accepted (R36), or, for a row of 8
bits, a control byte at CURSOR inside a channel's decode (R160); log 16. -/
def State.withFetchWord (s : State) (nbits w : Nat) : State :=
  if nbits = 8 then s.withElement (BitVec.ofNat 8 w) else s.withCommand (BitVec.ofNat 32 w)

end Sys2Proof.Machine
end

