-- ==== Sys2Proof/Machine/Program.lean ====
section
/-! DEFINITION. Machine/Program.lean: the spec's own notation for streams and host programs (30_encoding.md rules R125 to R128):
the bytes a stream directive stands for and the moves a host form stands for. -/

namespace Sys2Proof.Machine

/-- A stream directive (R127) or stream pseudo-instruction (R128). -/
inductive Directive where
  | lit (bs : List Byte)
  | rep (n : Nat) (b : Byte)
  | nop80
  | be16 (v : BitVec 16)
  | be32 (v : Word)
  | bytes (bs : List Byte)
  | fill (n : Nat) (b : Byte)
  | literal (bs : List Byte)
deriving DecidableEq, Repr

/-- The operands R127 and R128 allow. -/
def Directive.legal (d : Directive) : Bool :=
  match d with
  | .lit bs => decide (1 ≤ bs.length ∧ bs.length ≤ 128)
  | .rep n _ => decide (2 ≤ n ∧ n ≤ 128)
  | .fill n _ => decide (1 ≤ n)
  | .literal bs => decide (1 ≤ bs.length)
  | .nop80 | .be16 _ | .be32 _ | .bytes _ => true

/-- `.lit b0, …, bk` emits `k, b0, …, bk` (R127). -/
def emitLit (bs : List Byte) : List Byte := BitVec.ofNat 8 (bs.length - 1) :: bs

/-- `.rep n, b` emits `257-n, b` (R127). -/
def emitRep (n : Nat) (b : Byte) : List Byte := [BitVec.ofNat 8 (257 - n), b]

/-- `.fill n, b` (R128): runs of 128, then the rest. -/
def emitFill (n : Nat) (b : Byte) : List Byte :=
  (List.replicate (n / 128) (emitRep 128 b)).flatten ++
    (if n % 128 = 0 then [] else if n % 128 = 1 then emitLit [b] else emitRep (n % 128) b)

/-- `.literal b0, …` (R128): literal runs of 128 bytes, then the rest. The fuel is the number of bytes. -/
def emitLiteral : Nat → List Byte → List Byte
  | 0, _ => []
  | fuel + 1, bs =>
    if bs.length ≤ 128 then emitLit bs else emitLit (bs.take 128) ++ emitLiteral fuel (bs.drop 128)

/-- The stream bytes of a directive (R127, R128). -/
def Directive.emit (d : Directive) : List Byte :=
  match d with
  | .lit bs => emitLit bs
  | .rep n b => emitRep n b
  | .nop80 => [0x80]
  | .be16 v => [v.extractLsb' 8 8, v.extractLsb' 0 8]
  | .be32 v => [v.extractLsb' 24 8, v.extractLsb' 16 8, v.extractLsb' 8 8, v.extractLsb' 0 8]
  | .bytes bs => bs
  | .fill n b => emitFill n b
  | .literal bs => emitLiteral bs.length bs

/-- The plane bytes that a directive made of PackBits elements names (R127, R128); none for a directive that is no element. -/
def Directive.plane (d : Directive) : Option (List Byte) :=
  match d with
  | .lit bs => some bs
  | .rep n b => some (List.replicate n b)
  | .nop80 => some []
  | .fill n b => some (List.replicate n b)
  | .literal bs => some bs
  | .be16 _ | .be32 _ | .bytes _ => none

/-- A form of a host program (R126). The host's own branches are outside the block (log 21). -/
inductive HostForm where
  | wr (r : RegName) (v : Word)
  | rd (r : RegName)
  | mem (addr : Word) (bs : List Byte)
  | issue (i : Instr)
  | wait (polls : Nat)
deriving DecidableEq, Repr

/-- The bus address REG_BASE + offset of a register (R126), in 32 bits: DESIGN CHOICE (log 8). -/
def regAddress (base : Word) (r : RegName) : Word := base + BitVec.ofNat 32 r.offset

/-- Host stores of bytes at consecutive data addresses (R126). DESIGN CHOICE (log 19): where the bytes pass 2^32 they go on at address
0; the spec says nothing of it (R14 is about PBD's own addresses). -/
def storeMoves (addr : Word) : List Byte → List Move
  | [] => []
  | b :: bs => .memWrite addr b :: storeMoves (addr + 1) bs

/-- A 32-bit store of the host, as the bytes its little-endian order places (R82, R83). -/
def storeWordMoves (addr v : Word) : List Move :=
  storeMoves addr [v.extractLsb' 0 8, v.extractLsb' 8 8, v.extractLsb' 16 8, v.extractLsb' 24 8]

/-- The moves of a host form (R126): `wait` polls STATUS, the sequencer moves (R291), and the next poll ends the loop. -/
def HostForm.moves (base : Word) (f : HostForm) : List Move :=
  match f with
  | .wr r v => [.regWrite (regAddress base r) .word v]
  | .rd r => [.regRead (regAddress base r) .word]
  | .mem addr bs => storeMoves addr bs
  | .issue i =>
    match encode i with
    | .command w => [.regWrite (regAddress base .cmd) .word w]
    | .control _ => []
  | .wait polls =>
    List.replicate polls (.regRead (regAddress base .status) .word) ++
      [.sequencer, .regRead (regAddress base .status) .word]

/-- The moves of a host program (R126). -/
def programMoves (base : Word) (fs : List HostForm) : List Move := fs.flatMap (HostForm.moves base)

end Sys2Proof.Machine
end

