-- ==== Sys2Proof/Safety.lean ====
section
/-! DEFINITION. Safety.lean: what a good state of PBD is (the invariant every step keeps), and the words the statements are
written in. -/

namespace Sys2Proof.Machine

/-- Memory is canonical and lists only bytes that exist (R59, R86). -/
def State.MemoryOk (s : State) : Prop := s.mem.wf ∧ ∀ c ∈ s.mem, s.byteExists c.1 = true

/-- DONE and ERR are never both 1 (R35), ECODE is 0 exactly when ERR is 0 and never reserved (R35, R240), and both are clear
while BUSY (R36). -/
def State.StatusOk (s : State) : Prop :=
  (s.done = true → s.err = false) ∧
  (s.err = false → s.ecode = 0) ∧
  (s.err = true → 1 ≤ s.ecode.toNat ∧ s.ecode.toNat ≤ 9) ∧
  (s.busy = true → s.done = false ∧ s.err = false)

/-- A channel's decode is in progress only while a command that decodes channels is pending (R57, R160). -/
def State.ChannelOk (s : State) : Prop :=
  s.inChannel = true → ∃ i, s.acceptedCommand = some i ∧ decodesChannels i = true

/-- The invariant of the machine. -/
def State.Inv (s : State) : Prop := s.MemoryOk ∧ s.StatusOk ∧ s.ChannelOk

/-- The `n` bytes of memory from an address. -/
def State.bytesAt (s : State) (a n : Nat) : List Byte := (List.range n).map fun j => s.mem.read (a + j)

/-- Success completion as a state (R253): DONE set, BUSY and cmd_pending cleared. -/
abbrev State.finished (s : State) : State := { s with done := true, cmdPending := none, inChannel := false }

/-- Error completion as a state (R250): ERR set, ECODE the code, BUSY and cmd_pending cleared. -/
abbrev State.failed (s : State) (code : BitVec 4) : State :=
  { s with err := true, ecode := code, cmdPending := none, inChannel := false }

/-- The geometry of R7 and R246: `1 ≤ WIDTH, HEIGHT ≤ 30000` and `1 ≤ CHANNELS ≤ 24`. -/
abbrev State.GeomLegal (s : State) : Prop :=
  (1 ≤ s.width.toNat ∧ s.width.toNat ≤ 30000) ∧ (1 ≤ s.height.toNat ∧ s.height.toNat ≤ 30000) ∧
  (1 ≤ s.channels.toNat ∧ s.channels.toNat ≤ 24)

/-- Every byte of the range exists (R86). -/
abbrev State.AllExist (s : State) (r : Range) : Prop := ∀ j < r.len, s.byteExists (r.base + j) = true

/-- Two ranges are apart as R248 says. -/
abbrev Range.Apart (r q : Range) : Prop :=
  r.len = 0 ∨ q.len = 0 ∨ r.base + r.len ≤ q.base ∨ q.base + q.len ≤ r.base

/-- The command's static checks hold and its ranges exist (R86, R249): it is neither turned away nor refused. -/
abbrev State.ready (s : State) (i : Instr) : Prop :=
  firstError (staticChecks i s) = none ∧ (usedRanges i s).all s.rangeExists = true

/-- A channel's decode stands at an element with its checks made (R160, R167). -/
abbrev State.atElement (s : State) : Prop :=
  s.ready (.rleChan (s.curCh.setWidth 8)) ∧ s.cursor.toNat < s.srcLen.toNat ∧ s.outCount.toNat < s.planeLen

/-- An instruction that stands in CMD, not in a stream. -/
def isCommand (i : Instr) : Bool :=
  match i with
  | .lit _ | .nop80 | .rep _ => false
  | .nop | .decodeImage | .skipCounts | .rleChan _ | .rawChan _ | .mux | .swap16 | .swap32
  | .swapbuf16 | .swapbuf32 | .ldbe16 | .ldbe32 => true

/-- `a` is a byte of plane `k` (R13). -/
abbrev State.inPlane (s : State) (k a : Nat) : Prop := ∃ p < s.planeLen, a = s.planeByte k p

/-- `a` is an output byte that Mux writes (R197): `DstAddr(k*S + p*C*S)` for a `k < C` and a `p < N`. -/
abbrev State.inMuxOutput (s : State) (a : Nat) : Prop :=
  ∃ k < s.chanCount, ∃ p < s.planeLen, a = s.dstByte (s.muxPos k p)

/-- The bytes a list of directives puts into the stream (R127, R128). -/
def streamOf (ds : List Directive) : List Byte := ds.flatMap Directive.emit

/-- The plane bytes a list of element directives names (R127, R128). -/
def planeOf (ds : List Directive) : List Byte := ds.flatMap fun d => d.plane.getD []

/-- The directives name PackBits elements with the operands the spec allows (R127, R128). -/
abbrev namesElements (ds : List Directive) : Prop := ∀ d ∈ ds, d.legal = true ∧ d.plane.isSome = true

/-- They name elements, fill a plane of `n` bytes exactly, and the channel ends with the last of them (R167). -/
abbrev fillsChannel (n : Nat) (ds : List Directive) : Prop :=
  namesElements ds ∧ (planeOf ds).length = n ∧ (planeOf ds.dropLast).length < n

/-- The stream holds the bytes `bs` from offset `i` on (R12). -/
abbrev State.streamHolds (s : State) (i : Nat) (bs : List Byte) : Prop :=
  i + bs.length ≤ s.srcLen.toNat ∧ s.bytesAt (s.srcPos i) bs.length = bs

/-- With `count` bytes of the plane written, the element at stream offset `i` raises the error of code `e`: TRUNCATED (1) if its control
byte, payload or value byte is past SRC_LEN (R165, R243), else RLE_OVERRUN (5) if its run would pass N (R164, R244). -/
abbrev State.elementFails (s : State) (i count : Nat) (e : BitVec 4) : Prop :=
  (e = 1 ∧ (s.srcLen.toNat ≤ i ∨ ((s.srcByte i).toNat < 128 ∧ s.srcLen.toNat < i + 1 + ((s.srcByte i).toNat + 1)) ∨
    (128 < (s.srcByte i).toNat ∧ s.srcLen.toNat < i + 2))) ∨
  (e = 5 ∧ (((s.srcByte i).toNat < 128 ∧ i + 1 + ((s.srcByte i).toNat + 1) ≤ s.srcLen.toNat ∧
      s.planeLen < count + ((s.srcByte i).toNat + 1)) ∨
    (128 < (s.srcByte i).toNat ∧ i + 2 ≤ s.srcLen.toNat ∧ s.planeLen < count + (257 - (s.srcByte i).toNat))))

/-- A channel whose stream begins at offset `i` fails with code `e` just past the elements that `ds` names: they leave the plane short
of bytes, and the element after them fails (R167, R251 (c)). -/
abbrev State.failsAfter (s : State) (i : Nat) (ds : List Directive) (e : BitVec 4) : Prop :=
  namesElements ds ∧ (planeOf ds).length < s.planeLen ∧ (ds = [] ∨ s.streamHolds i (streamOf ds)) ∧
  s.elementFails (i + (streamOf ds).length) (planeOf ds).length e

/-- Bytes of plane `k`, from its first on, are `bs` (R13). -/
abbrev State.planeHolds (s : State) (m : Memory) (k : Nat) (bs : List Byte) : Prop :=
  ∀ p < bs.length, bs[p]? = some (m.read (s.planeByte k p))

end Sys2Proof.Machine
end

