-- ==== Sys2Proof/Certificates/Slice0/Obligations.lean ====
section
/-! DEFINITION. Obligations.lean: the statements about PBD, each with the rule of spec/ it formalises. Numerals stand where the
spec gives numerals, so that a statement does not lean on the model's own constants. `State.finished` and `State.failed` are the two
completions (R253, R250), written out in Safety.lean. -/

open Sys2Proof Sys2Proof.Machine

/-! ## Encodings -/

/-- R112, R118 to R120: words written out from the tables decode to the instruction they stand for. -/
def Obligations.SpecWordsDecode : Prop :=
  decode (.command 0x00000000) = .ok .nop ∧ decode (.command 0x00000001) = .ok .decodeImage ∧
  decode (.command 0x00000203) = .ok (.rleChan 2) ∧ decode (.command 0x00000004) = .ok (.rawChan 0) ∧
  decode (.command 0x00000005) = .ok .mux ∧ decode (.command 0x0000000D) = .ok .ldbe32 ∧
  decode (.control 0b00000011) = .ok (.lit 3) ∧ decode (.control 0b10000000) = .ok .nop80 ∧
  decode (.control 0b11111110) = .ok (.rep 0b1111110)

/-- Every well-formed instruction, at every value of its operand, is what its encoding decodes to. -/
def Obligations.DecodeInvertsEncode : Prop := ∀ i : Instr, i.wellFormed = true → decode (encode i) = .ok i

/-- Every word that decodes is the encoding of the well-formed instruction it decodes to. -/
def Obligations.EncodeInvertsDecode : Prop :=
  ∀ (e : Encoding) (i : Instr), decode e = .ok i → i.wellFormed = true ∧ encode i = e

/-- R113, R245: a word with RSV ≠ 0, an unassigned OP, or CH ≠ 0 on an OP that does not use it is accepted like any other, and its step
raises ILLEGAL_CMD and changes nothing else; every other word is the encoding of a command. -/
def Obligations.IllegalWordsRaiseIllegalCmd : Prop :=
  ∀ v : Word,
    let op := v.toNat % 256
    let ch := v.toNat / 256 % 256
    let illegal := v.toNat / 65536 ≠ 0 ∨ op = 6 ∨ op = 7 ∨ 0x0E ≤ op ∨ (ch ≠ 0 ∧ op ≠ 3 ∧ op ≠ 4)
    (illegal → ∀ s : State, s.busy = false → s.schedule = [] →
      s.writeOffset 0x0C v = { s with cmd := v, done := false, err := false, ecode := 0, cmdPending := some v } ∧
      step (s.writeOffset 0x0C v) = .next ({ s with cmd := v, done := false } |>.failed 7)) ∧
    (¬illegal → ∃ i, decodeCommand v = .ok i ∧ isCommand i = true ∧ encode i = .command v)

/-- R117 to R120, R122: the control byte alone selects the element, and the run lengths are `c + 1` and `257 - c`. -/
def Obligations.ControlBytesSelectElements : Prop :=
  ∀ c : Byte,
    (c.toNat < 128 → ∃ n, decodeElement c = .lit n ∧ litRun n = c.toNat + 1) ∧
    (128 < c.toNat → ∃ m, decodeElement c = .rep m ∧ m ≠ 0 ∧ repRun m = 257 - c.toNat) ∧
    (c.toNat = 128 → decodeElement c = .nop80)

/-! ## The step -/

/-- R115, R95: with nothing else to move first (the schedule is the model's, log 4), the step is the accepted command. -/
def Obligations.StepRunsAcceptedCommand : Prop :=
  ∀ (s : State) (v : Word) (i : Instr), s.schedule = [] → s.inChannel = false → s.cmdPending = some v →
    decodeCommand v = .ok i → step s = exec i s

/-- R167, R117: between two elements of a channel (a place the model has and no run from reset reaches, log 2), the step is the
element whose control byte stands at CURSOR. -/
def Obligations.StepRunsNextElement : Prop :=
  ∀ (s : State) (i : Instr), s.schedule = [] → s.inChannel = true → s.acceptedCommand = some i →
    decodesChannels i = true → s.ready i → s.curCh.toNat < s.chanCount → s.outCount.toNat < s.planeLen →
    s.cursor.toNat < s.srcLen.toNat → step s = exec (decodeElement (s.srcByte s.cursor.toNat)) s

/-- R167, R147, R149, R165, for a channel run one element a step (log 2): a channel short of bytes ends in TRUNCATED; a full one ends RLE_CHAN, begins DECODE_IMAGE's next channel,
or, after the last, runs Mux and ends DECODE_IMAGE. -/
def Obligations.StepEndsChannel : Prop :=
  ∀ (s : State) (i : Instr), s.schedule = [] → s.inChannel = true → s.acceptedCommand = some i →
    decodesChannels i = true → s.ready i → s.curCh.toNat < s.chanCount →
    (s.outCount.toNat < s.planeLen → s.srcLen.toNat ≤ s.cursor.toNat → step s = .next (s.failed 1)) ∧
    (s.planeLen ≤ s.outCount.toNat →
      (∀ ch, i = .rleChan ch → step s = .next s.finished) ∧
      (i = .decodeImage → s.curCh.toNat + 1 < s.chanCount →
        step s = .next { s with curCh := BitVec.ofNat 5 (s.curCh.toNat + 1), outCount := 0 }) ∧
      (i = .decodeImage → s.chanCount ≤ s.curCh.toNat + 1 → s.mem.wf →
        ∃ m' : Memory, step s = .next (State.finished { s with mem := m' }) ∧
          (∀ k < s.chanCount, ∀ p < s.planeLen, m'.read (s.dstByte (s.muxPos k p)) = s.mem.read (s.planeByte k p)) ∧
          (∀ a, ¬s.inMuxOutput a → m'.read a = s.mem.read a)))

/-- R16, R94, R263: the moves of the schedule (the model's, log 4) are taken one at a time in their order, and an idle block stays as it is. -/
def Obligations.StepTakesMovesInOrder : Prop :=
  (∀ (s : State) (m : Move) (rest : List Move), s.schedule = m :: rest →
    step s = runMove m { s with schedule := rest }) ∧
  (∀ s : State, s.schedule = [] → s.cmdPending = none → step s = .next s)

/-! ## Checks before a command's effect -/

/-- R246: the three checks that raise BAD_PARAM, for every command that makes them, and that nothing else raises it. -/
def Obligations.BadParamChecks : Prop :=
  ∀ (s : State) (ch : BitVec 8),
    (¬s.GeomLegal → ∀ i ∈ [Instr.decodeImage, .skipCounts, .rleChan ch, .rawChan ch, .mux],
      exec i s = .next (s.failed 6)) ∧
    (¬(s.muxStride.toNat = 1 ∨ s.muxStride.toNat = 2) → ∀ i ∈ [Instr.decodeImage, .mux],
      exec i s = .next (s.failed 6)) ∧
    (s.channels.toNat ≤ ch.toNat → ∀ i ∈ [Instr.rleChan ch, .rawChan ch], exec i s = .next (s.failed 6)) ∧
    (s.xferLen.toNat % 2 ≠ 0 → exec .swapbuf16 s = .next (s.failed 6)) ∧
    (s.xferLen.toNat % 4 ≠ 0 → exec .swapbuf32 s = .next (s.failed 6)) ∧
    (∀ (i : Instr) (t : State), isCommand i = true → s.err = false → exec i s = .next t → t.err = true → t.ecode = 6 →
      (¬s.GeomLegal ∧ (i ∈ [Instr.decodeImage, .skipCounts, .mux] ∨ ∃ c, i = .rleChan c ∨ i = .rawChan c)) ∨
      (¬(s.muxStride.toNat = 1 ∨ s.muxStride.toNat = 2) ∧ i ∈ [Instr.decodeImage, .mux]) ∨
      (∃ c : BitVec 8, s.channels.toNat ≤ c.toNat ∧ (i = .rleChan c ∨ i = .rawChan c)) ∨
      (s.xferLen.toNat % 2 ≠ 0 ∧ i = .swapbuf16) ∨ (s.xferLen.toNat % 4 ≠ 0 ∧ i = .swapbuf32))

/-- R247, R249: with the BAD_PARAM checks passed (and RAW_CHAN's depth check, which comes first), a range that passes 2^32 raises
ADDR_RANGE in every command that uses it, whether or not its bytes exist. -/
def Obligations.AddressRangeChecks : Prop :=
  ∀ (s : State) (ch : BitVec 8),
    (s.GeomLegal →
      (2 ^ 32 < s.srcAddr.toNat + s.srcLen.toNat → exec .skipCounts s = .next (s.failed 8)) ∧
      (2 ^ 32 < s.srcAddr.toNat + s.srcLen.toNat ∨ 2 ^ 32 < s.planeAddr.toNat + s.channels.toNat * (s.width.toNat * s.height.toNat) →
        ch.toNat < s.channels.toNat →
          exec (.rleChan ch) s = .next (s.failed 8) ∧
          (s.depth.toNat = 8 ∨ s.depth.toNat = 16 → exec (.rawChan ch) s = .next (s.failed 8))) ∧
      (s.muxStride.toNat = 1 ∨ s.muxStride.toNat = 2 →
        (2 ^ 32 < s.planeAddr.toNat + s.channels.toNat * (s.width.toNat * s.height.toNat) ∨
          2 ^ 32 < s.dstAddr.toNat + s.width.toNat * s.height.toNat * s.channels.toNat * s.muxStride.toNat →
            exec .mux s = .next (s.failed 8) ∧ exec .decodeImage s = .next (s.failed 8)) ∧
        (2 ^ 32 < s.srcAddr.toNat + s.srcLen.toNat → exec .decodeImage s = .next (s.failed 8)))) ∧
    (2 ^ 32 < s.srcAddr.toNat + s.xferLen.toNat →
      (s.xferLen.toNat % 2 = 0 → exec .swapbuf16 s = .next (s.failed 8)) ∧
      (s.xferLen.toNat % 4 = 0 → exec .swapbuf32 s = .next (s.failed 8))) ∧
    (2 ^ 32 < s.srcAddr.toNat + s.srcLen.toNat →
      exec .ldbe16 s = .next (s.failed 8) ∧ exec .ldbe32 s = .next (s.failed 8))

/-- R248, R249: with the checks before it passed, two of a command's ranges that meet raise OVERLAP. -/
def Obligations.OverlapChecks : Prop :=
  ∀ (s : State) (ch : BitVec 8),
    let stream : Range := ⟨s.srcAddr.toNat, s.srcLen.toNat⟩
    let planes : Range := ⟨s.planeAddr.toNat, s.channels.toNat * (s.width.toNat * s.height.toNat)⟩
    let output : Range := ⟨s.dstAddr.toNat, s.width.toNat * s.height.toNat * s.channels.toNat * s.muxStride.toNat⟩
    s.GeomLegal → planes.base + planes.len ≤ 2 ^ 32 →
      (stream.base + stream.len ≤ 2 ^ 32 → ¬stream.Apart planes → ch.toNat < s.channels.toNat →
        exec (.rleChan ch) s = .next (s.failed 9) ∧
        (s.depth.toNat = 8 ∨ s.depth.toNat = 16 → exec (.rawChan ch) s = .next (s.failed 9))) ∧
      (s.muxStride.toNat = 1 ∨ s.muxStride.toNat = 2 → output.base + output.len ≤ 2 ^ 32 →
        (¬planes.Apart output → exec .mux s = .next (s.failed 9)) ∧
        (stream.base + stream.len ≤ 2 ^ 32 → ¬stream.Apart planes ∨ ¬stream.Apart output ∨ ¬planes.Apart output →
          exec .decodeImage s = .next (s.failed 9)))

/-- R86: with its static checks passed (the order is the model's reading, log 10), a command that uses a byte outside RAM_VALID has its
step refused, whatever its effect would have been. -/
def Obligations.RangesOutsideRamRefused : Prop :=
  ∀ (s : State) (i : Instr) (r : Range) (j : Nat), isCommand i = true → firstError (staticChecks i s) = none →
    r ∈ usedRanges i s → j < r.len → s.byteExists (r.base + j) = false → exec i s = .refused .outsideRam

/-! ## NOP, SKIP_COUNTS and the swapper -/

/-- R141: NOP completes and does nothing else; with IE = 1 it raises irq, with STATUS reading 2 when no bit stood before. -/
def Obligations.NopOnlyCompletes : Prop :=
  decodeCommand 0x00000000 = .ok .nop ∧
  ∀ s : State, exec .nop s = .next s.finished ∧ s.finished.irq = s.ie ∧
    (s.err = false → s.ecode = 0 → s.drop = false → s.finished.statusWord = 0x00000002)

/-- R152: SKIP_COUNTS moves CURSOR past the `2 * HEIGHT * CHANNELS` bytes of the table, or ends with the first error of its order;
it reads no memory. -/
def Obligations.SkipCountsMovesCursor : Prop :=
  decodeCommand 0x00000002 = .ok .skipCounts ∧
  ∀ s : State,
    let after := s.cursor.toNat + 2 * s.height.toNat * s.channels.toNat
    (¬s.GeomLegal → exec .skipCounts s = .next (s.failed 6)) ∧
    (s.GeomLegal → 2 ^ 32 < s.srcAddr.toNat + s.srcLen.toNat → exec .skipCounts s = .next (s.failed 8)) ∧
    (s.GeomLegal → s.srcAddr.toNat + s.srcLen.toNat ≤ 2 ^ 32 → s.srcLen.toNat < after →
      exec .skipCounts s = .next (s.failed 1)) ∧
    (s.GeomLegal → s.srcAddr.toNat + s.srcLen.toNat ≤ 2 ^ 32 → after ≤ s.srcLen.toNat →
      exec .skipCounts s = .next (State.finished { s with cursor := BitVec.ofNat 32 after }))

/-- R211: SWAP16. -/
def Obligations.Swap16ReversesTwoBytes : Prop :=
  decodeCommand 0x00000008 = .ok .swap16 ∧
  ∀ s : State, exec .swap16 s = .next (State.finished { s with
    dataOut := BitVec.ofNat 32 (s.dataIn.toNat % 256 * 256 + s.dataIn.toNat / 256 % 256) })

/-- R212: SWAP32. -/
def Obligations.Swap32ReversesFourBytes : Prop :=
  decodeCommand 0x00000009 = .ok .swap32 ∧
  ∀ s : State, exec .swap32 s = .next (State.finished { s with
    dataOut := BitVec.ofNat 32 (s.dataIn.toNat % 256 * 2 ^ 24 + s.dataIn.toNat / 2 ^ 8 % 256 * 2 ^ 16 +
      s.dataIn.toNat / 2 ^ 16 % 256 * 2 ^ 8 + s.dataIn.toNat / 2 ^ 24) })

/-- R213: SWAPBUF16 exchanges the two bytes of every unit of the buffer and changes nothing else. -/
def Obligations.Swapbuf16ReversesUnits : Prop :=
  decodeCommand 0x0000000A = .ok .swapbuf16 ∧
  ∀ s : State, s.mem.wf →
    (s.xferLen.toNat % 2 ≠ 0 → exec .swapbuf16 s = .next (s.failed 6)) ∧
    (s.xferLen.toNat % 2 = 0 → 2 ^ 32 < s.srcAddr.toNat + s.xferLen.toNat → exec .swapbuf16 s = .next (s.failed 8)) ∧
    (s.xferLen.toNat % 2 = 0 → s.AllExist ⟨s.srcAddr.toNat, s.xferLen.toNat⟩ →
      ∃ m' : Memory, exec .swapbuf16 s = .next (State.finished { s with mem := m' }) ∧ m'.wf ∧
        (∀ u < s.xferLen.toNat / 2,
          m'.read (s.srcAddr.toNat + 2 * u) = s.mem.read (s.srcAddr.toNat + 2 * u + 1) ∧
          m'.read (s.srcAddr.toNat + 2 * u + 1) = s.mem.read (s.srcAddr.toNat + 2 * u)) ∧
        (∀ a, a < s.srcAddr.toNat ∨ s.srcAddr.toNat + s.xferLen.toNat ≤ a → m'.read a = s.mem.read a))

/-- R214: SWAPBUF32 reverses the four bytes of every unit of the buffer and changes nothing else. -/
def Obligations.Swapbuf32ReversesUnits : Prop :=
  decodeCommand 0x0000000B = .ok .swapbuf32 ∧
  ∀ s : State, s.mem.wf →
    (s.xferLen.toNat % 4 ≠ 0 → exec .swapbuf32 s = .next (s.failed 6)) ∧
    (s.xferLen.toNat % 4 = 0 → 2 ^ 32 < s.srcAddr.toNat + s.xferLen.toNat → exec .swapbuf32 s = .next (s.failed 8)) ∧
    (s.xferLen.toNat % 4 = 0 → s.AllExist ⟨s.srcAddr.toNat, s.xferLen.toNat⟩ →
      ∃ m' : Memory, exec .swapbuf32 s = .next (State.finished { s with mem := m' }) ∧ m'.wf ∧
        (∀ u < s.xferLen.toNat / 4, ∀ j < 4,
          m'.read (s.srcAddr.toNat + 4 * u + j) = s.mem.read (s.srcAddr.toNat + 4 * u + (3 - j))) ∧
        (∀ a, a < s.srcAddr.toNat ∨ s.srcAddr.toNat + s.xferLen.toNat ≤ a → m'.read a = s.mem.read a))

/-- R215: LDBE16 loads the two stream bytes at CURSOR as a big-endian value and moves CURSOR by 2, or fails with both unchanged. -/
def Obligations.Ldbe16LoadsBigEndian : Prop :=
  decodeCommand 0x0000000C = .ok .ldbe16 ∧
  ∀ s : State,
    let i := s.cursor.toNat
    let b := fun j => (s.mem.read (s.srcAddr.toNat + i + j)).toNat
    (2 ^ 32 < s.srcAddr.toNat + s.srcLen.toNat → exec .ldbe16 s = .next (s.failed 8)) ∧
    (s.AllExist ⟨s.srcAddr.toNat, s.srcLen.toNat⟩ →
      (s.srcLen.toNat < i + 2 → exec .ldbe16 s = .next (s.failed 1)) ∧
      (i + 2 ≤ s.srcLen.toNat → exec .ldbe16 s = .next (State.finished { s with
        dataOut := BitVec.ofNat 32 (b 0 * 256 + b 1), cursor := BitVec.ofNat 32 (i + 2) })))

/-- R216: LDBE32 loads the four stream bytes at CURSOR as a big-endian value and moves CURSOR by 4, or fails with both unchanged. -/
def Obligations.Ldbe32LoadsBigEndian : Prop :=
  decodeCommand 0x0000000D = .ok .ldbe32 ∧
  ∀ s : State,
    let i := s.cursor.toNat
    let b := fun j => (s.mem.read (s.srcAddr.toNat + i + j)).toNat
    (2 ^ 32 < s.srcAddr.toNat + s.srcLen.toNat → exec .ldbe32 s = .next (s.failed 8)) ∧
    (s.AllExist ⟨s.srcAddr.toNat, s.srcLen.toNat⟩ →
      (s.srcLen.toNat < i + 4 → exec .ldbe32 s = .next (s.failed 1)) ∧
      (i + 4 ≤ s.srcLen.toNat → exec .ldbe32 s = .next (State.finished { s with
        dataOut := BitVec.ofNat 32 (b 0 * 2 ^ 24 + b 1 * 2 ^ 16 + b 2 * 2 ^ 8 + b 3),
        cursor := BitVec.ofNat 32 (i + 4) })))

/-- R217: the swaps are their own inverses, on values and on a buffer in memory, every byte of which reads as before, and
bswap of the little-endian halfword or word at a place of the stream is what LDBE16 or LDBE32 returns for it. -/
def Obligations.SwapsAreInvolutions : Prop :=
  (∀ x, bswap16 (bswap16 x) = x) ∧ (∀ x, bswap32 (bswap32 x) = x) ∧
  (∀ (i : Instr) (s t u : State), i = .swapbuf16 ∨ i = .swapbuf32 → s.mem.wf →
    exec i s = .next t → exec i t = .next u → ∀ a, u.mem.read a = s.mem.read a) ∧
  (∀ s : State, s.ready .ldbe16 →
    let a := s.srcAddr.toNat + s.cursor.toNat
    (s.cursor.toNat + 2 ≤ s.srcLen.toNat → ∃ t, exec .ldbe16 s = .next t ∧
      t.dataOut = (bswap16 (s.mem.read (a + 1) ++ s.mem.read a)).setWidth 32) ∧
    (s.cursor.toNat + 4 ≤ s.srcLen.toNat → ∃ t, exec .ldbe32 s = .next t ∧
      t.dataOut = bswap32 (s.mem.read (a + 3) ++ s.mem.read (a + 2) ++ s.mem.read (a + 1) ++ s.mem.read a)))

/-! ## The PackBits decompressor -/

/-- R161, R164, R165 (one element as one step: log 2; k and count in CUR_CH and OUT_COUNT: log 3; no open channel asked: log 20): LIT at CURSOR, TRUNCATED before RLE_OVERRUN, nothing written in either case. -/
def Obligations.LitCopiesItsRun : Prop :=
  ∀ (s : State) (n : BitVec 7), s.mem.wf → s.atElement →
    let i := s.cursor.toNat
    let count := s.outCount.toNat
    let run := n.toNat + 1
    (s.srcLen.toNat < i + 1 + run → exec (.lit n) s = .next (s.failed 1)) ∧
    (i + 1 + run ≤ s.srcLen.toNat → s.planeLen < count + run → exec (.lit n) s = .next (s.failed 5)) ∧
    (i + 1 + run ≤ s.srcLen.toNat → count + run ≤ s.planeLen →
      ∃ m' : Memory, exec (.lit n) s = .next { s with
          mem := m', outCount := BitVec.ofNat 32 (count + run), cursor := BitVec.ofNat 32 (i + 1 + run) } ∧ m'.wf ∧
        (∀ j < run, m'.read (s.planeByte s.curCh.toNat (count + j)) = s.srcByte (i + 1 + j)) ∧
        (∀ a, (∀ j < run, a ≠ s.planeByte s.curCh.toNat (count + j)) → m'.read a = s.mem.read a))

/-- R162, R164, R165, C1 (one element as one step: log 2; k and count in CUR_CH and OUT_COUNT: log 3; no open channel asked: log 20): REP at CURSOR repeats one byte `257 - c` times, with `c = 128 + m`. -/
def Obligations.RepRepeatsItsByte : Prop :=
  ∀ (s : State) (m : BitVec 7), m ≠ 0 → s.mem.wf → s.atElement →
    let i := s.cursor.toNat
    let count := s.outCount.toNat
    let run := 257 - (128 + m.toNat)
    (s.srcLen.toNat < i + 2 → exec (.rep m) s = .next (s.failed 1)) ∧
    (i + 2 ≤ s.srcLen.toNat → s.planeLen < count + run → exec (.rep m) s = .next (s.failed 5)) ∧
    (i + 2 ≤ s.srcLen.toNat → count + run ≤ s.planeLen →
      ∃ m' : Memory, exec (.rep m) s = .next { s with
          mem := m', outCount := BitVec.ofNat 32 (count + run), cursor := BitVec.ofNat 32 (i + 2) } ∧ m'.wf ∧
        (∀ j < run, m'.read (s.planeByte s.curCh.toNat (count + j)) = s.srcByte (i + 1)) ∧
        (∀ a, (∀ j < run, a ≠ s.planeByte s.curCh.toNat (count + j)) → m'.read a = s.mem.read a))

/-- R163 (one element as one step: log 2; no open channel asked: log 20): NOP80 consumes its byte and writes nothing else. -/
def Obligations.Nop80MovesCursor : Prop :=
  ∀ s : State, s.atElement → exec .nop80 s = .next { s with cursor := BitVec.ofNat 32 (s.cursor.toNat + 1) }

/-- R121 (one element as one step: log 2; no open channel asked: log 20): the stream bytes an element occupies and the output bytes it contributes depend on its control
byte alone. -/
def Obligations.ElementLengths : Prop :=
  ∀ (s t : State) (c : Byte), s.atElement → s.busy = true →
    exec (decodeElement c) s = .next t → t.busy = true →
    t.cursor.toNat = s.cursor.toNat + (if c.toNat < 128 then c.toNat + 2 else if 128 < c.toNat then 2 else 1) ∧
    t.outCount.toNat = s.outCount.toNat + (if c.toNat < 128 then c.toNat + 1 else if 128 < c.toNat then 257 - c.toNat else 0)

/-- R161 to R167, R127, R128: RLE_CHAN decodes exactly the bytes that the directives of its stream name: whatever list of literal
runs, replicate runs, no-ops and pseudo-instructions fills the plane, the plane holds their bytes, CURSOR stands just past the
last element, and every other byte of memory is unchanged. -/
def Obligations.RleChanDecodesItsStream : Prop :=
  ∀ (s : State) (ch : BitVec 8) (ds : List Directive), s.mem.wf → s.ready (.rleChan ch) →
    fillsChannel s.planeLen ds → s.streamHolds s.cursor.toNat (streamOf ds) →
    ∃ m' : Memory, exec (.rleChan ch) s = .next (State.finished { s with
        curCh := ch.setWidth 5, outCount := BitVec.ofNat 32 s.planeLen
        cursor := BitVec.ofNat 32 (s.cursor.toNat + (streamOf ds).length), mem := m' }) ∧ m'.wf ∧
      (∀ p < s.planeLen, (planeOf ds)[p]? = some (m'.read (s.planeByte ch.toNat p))) ∧
      (∀ a, ¬s.inPlane ch.toNat a → m'.read a = s.mem.read a)

/-- R95, R167: the atomic RLE_CHAN is the same as its channel decode run one element a step (log 2). -/
def Obligations.RleChanIsElementwise : Prop :=
  ∀ (s : State) (ch : BitVec 8), s.schedule = [] → s.acceptedCommand = some (.rleChan ch) → s.ready (.rleChan ch) →
    ∃ n, Host.Core.run Sys2Proof.core n
      { s with curCh := ch.setWidth 5, outCount := 0, inChannel := true } = exec (.rleChan ch) s

/-- R164, R165, R243, R244, R251 (c): a failing RLE_CHAN is precise. If the stream holds elements that leave the plane short and then one
that is cut off or overruns, the command ends in that error with CUR_CH the channel, OUT_COUNT the number of bytes the elements before it
name, CURSOR at its control byte, those bytes in the plane and every other byte of memory unchanged. Every failure after the static
checks is one of these. -/
def Obligations.RleChanErrorsPrecise : Prop :=
  ∀ (s : State) (ch : BitVec 8), s.mem.wf → s.ready (.rleChan ch) →
    (∀ (ds : List Directive) (e : BitVec 4), s.failsAfter s.cursor.toNat ds e →
      ∃ m' : Memory, exec (.rleChan ch) s = .next (State.failed { s with
          curCh := ch.setWidth 5, outCount := BitVec.ofNat 32 (planeOf ds).length
          cursor := BitVec.ofNat 32 (s.cursor.toNat + (streamOf ds).length), mem := m' } e) ∧ m'.wf ∧
        s.planeHolds m' ch.toNat (planeOf ds) ∧
        (∀ a, (∀ p < (planeOf ds).length, a ≠ s.planeByte ch.toNat p) → m'.read a = s.mem.read a)) ∧
    (∀ t : State, s.err = false → exec (.rleChan ch) s = .next t → t.err = true →
      ∃ ds : List Directive, s.failsAfter s.cursor.toNat ds t.ecode)

/-- R166, R190: what RLE_CHAN and RAW_CHAN leave alone, whether they succeed or fail: they write STATUS, CUR_CH, OUT_COUNT, CURSOR and
bytes of plane ch. -/
def Obligations.ChannelCommandsFrame : Prop :=
  ∀ (s t : State) (ch : BitVec 8) (i : Instr), i = .rleChan ch ∨ i = .rawChan ch → s.mem.wf → exec i s = .next t →
    t = { s with done := t.done, err := t.err, ecode := t.ecode, cmdPending := none, inChannel := false,
                 curCh := t.curCh, outCount := t.outCount, cursor := t.cursor, mem := t.mem } ∧
    (∀ a, ¬s.inPlane ch.toNat a → t.mem.read a = s.mem.read a)

/-- R161 to R165 (one element as one step: log 2; k and count in CUR_CH and OUT_COUNT: log 3; in every state in which `exec` of it
answers next: log 20): what an element leaves alone. One that passes its bounds writes CURSOR, OUT_COUNT and the run's bytes of the
plane, and leaves STATUS, the accepted command and the open channel as they are; one that fails them ends the command with its error
and writes nothing else. -/
def Obligations.ElementFrame : Prop :=
  ∀ (s t : State) (c : Byte), s.mem.wf → exec (decodeElement c) s = .next t →
    (t = { s with outCount := t.outCount, cursor := t.cursor, mem := t.mem } ∨ t = s.failed 1 ∨ t = s.failed 5) ∧
    (t.cmdPending = s.cmdPending ∧ t.inChannel = s.inChannel ∨ t.cmdPending = none ∧ t.inChannel = false) ∧
    (∀ a, (∀ j < (if c.toNat < 128 then c.toNat + 1 else if 128 < c.toNat then 257 - c.toNat else 0),
        a ≠ s.planeByte s.curCh.toNat (s.outCount.toNat + j)) → t.mem.read a = s.mem.read a)

/-! ## Raw planes and the mux -/

/-- R190, R191, R242: RAW_CHAN copies the plane, at DEPTH 16 the high byte of every sample, after checking it whole; with legal geometry
and channel, a DEPTH other than 8 and 16 raises UNSUPPORTED_DEPTH and changes nothing else. -/
def Obligations.RawChanCopiesPlane : Prop :=
  (∀ (s : State) (ch : BitVec 8), s.GeomLegal → ch.toNat < s.channels.toNat → s.depth.toNat ≠ 8 → s.depth.toNat ≠ 16 →
    exec (.rawChan ch) s = .next (s.failed 2)) ∧
  ∀ (s : State) (ch : BitVec 8), s.mem.wf → s.ready (.rawChan ch) →
    let i := s.cursor.toNat
    let n := s.width.toNat * s.height.toNat
    let bpc := s.depth.toNat / 8
    (s.srcLen.toNat < i + n * bpc →
      exec (.rawChan ch) s = .next (State.failed { s with curCh := ch.setWidth 5, outCount := 0 } 1)) ∧
    (i + n * bpc ≤ s.srcLen.toNat →
      ∃ m' : Memory, exec (.rawChan ch) s = .next (State.finished { s with
          curCh := ch.setWidth 5, outCount := BitVec.ofNat 32 n, cursor := BitVec.ofNat 32 (i + n * bpc), mem := m' }) ∧ m'.wf ∧
        (∀ p < n, m'.read (s.planeByte ch.toNat p) = s.srcByte (i + p * bpc)) ∧
        (∀ a, ¬s.inPlane ch.toNat a → m'.read a = s.mem.read a))

/-- R195, R197: MUX puts channel k's byte p at output position `k*S + p*C*S`, and changes no register but STATUS and no other byte. -/
def Obligations.MuxInterleavesPlanes : Prop :=
  ∀ s : State, s.mem.wf → s.ready .mux →
    ∃ m' : Memory, exec .mux s = .next (State.finished { s with mem := m' }) ∧ m'.wf ∧
      (∀ k < s.channels.toNat, ∀ p < s.width.toNat * s.height.toNat,
        m'.read (s.dstAddr.toNat + (k * s.muxStride.toNat + p * s.channels.toNat * s.muxStride.toNat)) =
          s.mem.read (s.planeAddr.toNat + k * (s.width.toNat * s.height.toNat) + p)) ∧
      (∀ a, ¬s.inMuxOutput a → m'.read a = s.mem.read a)

/-- R198: the output positions are distinct, the largest is `S*(N*C - 1)`, with S = 1 every output byte is written, and with S = 2 the
odd positions keep their values. -/
def Obligations.MuxPositionsDistinct : Prop :=
  ∀ s : State, s.GeomLegal → s.muxStride.toNat = 1 ∨ s.muxStride.toNat = 2 →
    (∀ k < s.chanCount, ∀ p < s.planeLen, ∀ k' < s.chanCount, ∀ p' < s.planeLen,
      s.muxPos k p = s.muxPos k' p' → k = k' ∧ p = p') ∧
    (∀ k < s.chanCount, ∀ p < s.planeLen, s.muxPos k p = s.stride * (k + p * s.chanCount) ∧
      s.muxPos k p ≤ s.stride * (s.planeLen * s.chanCount - 1) ∧ s.muxPos k p < s.planeLen * s.chanCount * s.stride) ∧
    s.muxPos (s.chanCount - 1) (s.planeLen - 1) = s.stride * (s.planeLen * s.chanCount - 1) ∧
    (s.muxStride.toNat = 1 → ∀ q < s.planeLen * s.chanCount, s.inMuxOutput (s.dstAddr.toNat + q)) ∧
    (s.muxStride.toNat = 2 → s.mem.wf → s.ready .mux → ∀ t, exec .mux s = .next t →
      ∀ q, t.mem.read (s.dstAddr.toNat + (2 * q + 1)) = s.mem.read (s.dstAddr.toNat + (2 * q + 1)))

/-- R195, R213, R214: MUX, SWAPBUF16 and SWAPBUF32 write no register but STATUS, and no byte outside what they store to. -/
def Obligations.BufferCommandsFrame : Prop :=
  ∀ (s t : State) (i : Instr), i = .mux ∨ i = .swapbuf16 ∨ i = .swapbuf32 → s.mem.wf → exec i s = .next t →
    t = { s with done := t.done, err := t.err, ecode := t.ecode, cmdPending := none, inChannel := false, mem := t.mem } ∧
    (∀ a, (if i = .mux then ¬s.inMuxOutput a else a < s.srcAddr.toNat ∨ s.srcAddr.toNat + s.xferLen.toNat ≤ a) →
      t.mem.read a = s.mem.read a)

/-- R141, R152, R211, R212, R215, R216: the commands that store nothing leave memory as it is and write, beside STATUS, only DATA_OUT
(the swaps and the loads) and CURSOR (SKIP_COUNTS and the loads). -/
def Obligations.RegisterCommandsFrame : Prop :=
  ∀ s t : State,
    (exec .nop s = .next t →
      t = { s with done := t.done, cmdPending := none, inChannel := false }) ∧
    (exec .skipCounts s = .next t →
      t = { s with done := t.done, err := t.err, ecode := t.ecode, cmdPending := none, inChannel := false, cursor := t.cursor }) ∧
    (∀ i, i = .swap16 ∨ i = .swap32 → exec i s = .next t →
      t = { s with done := t.done, cmdPending := none, inChannel := false, dataOut := t.dataOut }) ∧
    (∀ i, i = .ldbe16 ∨ i = .ldbe32 → exec i s = .next t →
      t = { s with done := t.done, err := t.err, ecode := t.ecode, cmdPending := none, inChannel := false,
                   cursor := t.cursor, dataOut := t.dataOut })

/-! ## DECODE_IMAGE -/

/-- R144 to R148, R191, R251 (b), (c): the compression code is read big-endian into COMP with CURSOR moved by 2, then dispatched, then DEPTH
is checked, then the table's length, then channel after channel is decoded or copied; each failure leaves exactly what was written
before it. A failure in channel `k` leaves CUR_CH = k, the planes before it complete, and on the RLE path (an element that fails after
those that `ds` names) OUT_COUNT, CURSOR and the plane as RleChanErrorsPrecise says, on the raw path (a plane cut off) OUT_COUNT = 0 and
CURSOR at the plane's first byte. -/
def Obligations.DecodeImageDispatchErrors : Prop :=
  ∀ s : State, s.ready .decodeImage →
    let cur := s.cursor.toNat
    let code := (s.srcByte cur).toNat * 256 + (s.srcByte (cur + 1)).toNat
    let s' : State := { s with comp := BitVec.ofNat 16 code, cursor := BitVec.ofNat 32 (cur + 2) }
    let plane := s.planeLen * (s.depth.toNat / 8)
    (s.srcLen.toNat < cur + 2 → exec .decodeImage s = .next (s.failed 1)) ∧
    (cur + 2 ≤ s.srcLen.toNat →
      (code = 2 ∨ code = 3 → exec .decodeImage s = .next (s'.failed 3)) ∧
      (4 ≤ code → exec .decodeImage s = .next (s'.failed 4)) ∧
      (code = 0 ∨ code = 1 → s.depth.toNat ≠ 8 → s.depth.toNat ≠ 16 → exec .decodeImage s = .next (s'.failed 2)) ∧
      (code = 1 → s.depth.toNat = 8 ∨ s.depth.toNat = 16 →
        s.srcLen.toNat < cur + 2 + 2 * s.height.toNat * s.channels.toNat →
          exec .decodeImage s = .next (s'.failed 1)) ∧
      (code = 0 → s.depth.toNat = 8 ∨ s.depth.toNat = 16 → s.mem.wf → ∀ k < s.chanCount,
        cur + 2 + k * plane ≤ s.srcLen.toNat → s.srcLen.toNat < cur + 2 + (k + 1) * plane →
          ∃ m' : Memory, exec .decodeImage s = .next (State.failed { s with
              comp := 0, curCh := BitVec.ofNat 5 k, outCount := 0
              cursor := BitVec.ofNat 32 (cur + 2 + k * plane), mem := m' } 1) ∧ m'.wf ∧
            (∀ j < k, ∀ p < s.planeLen,
              m'.read (s.planeByte j p) = s.srcByte (cur + 2 + j * plane + p * (s.depth.toNat / 8))) ∧
            (∀ a, (∀ j < k, ¬s.inPlane j a) → m'.read a = s.mem.read a))) ∧
    (s.depth.toNat = 8 ∨ s.depth.toNat = 16 → s.mem.wf →
      ∀ (table : List Byte) (dss : List (List Directive)) (ds : List Directive) (e : BitVec 4),
        let before := [0x00, 0x01] ++ table ++ streamOf dss.flatten
        table.length = s.tableLen → dss.length < s.chanCount → (∀ x ∈ dss, fillsChannel s.planeLen x) →
        s.streamHolds cur before → s.failsAfter (cur + before.length) ds e →
          ∃ m' : Memory, exec .decodeImage s = .next (State.failed { s with
              comp := 1, curCh := BitVec.ofNat 5 dss.length, outCount := BitVec.ofNat 32 (planeOf ds).length
              cursor := BitVec.ofNat 32 (cur + before.length + (streamOf ds).length), mem := m' } e) ∧ m'.wf ∧
            (∀ k, ∀ x ∈ dss[k]?, s.planeHolds m' k (planeOf x)) ∧ s.planeHolds m' dss.length (planeOf ds) ∧
            (∀ a, (∀ k < dss.length, ¬s.inPlane k a) → (∀ p < (planeOf ds).length, a ≠ s.planeByte dss.length p) →
              m'.read a = s.mem.read a))

/-- R147, R149, R150, R161 to R167, R197: DECODE_IMAGE of an RLE image: the stream holds code 1, a table of any content, and for each
channel directives that fill its plane; then every output pixel byte is the byte the directives name, the planes hold them too,
and every other byte of memory is unchanged. -/
def Obligations.DecodeImageRestoresRleImage : Prop :=
  ∀ (s : State) (table : List Byte) (dss : List (List Directive)), s.mem.wf → s.ready .decodeImage →
    s.depth.toNat = 8 ∨ s.depth.toNat = 16 → table.length = s.tableLen → dss.length = s.chanCount →
    (∀ ds ∈ dss, fillsChannel s.planeLen ds) →
    let stream := [0x00, 0x01] ++ table ++ streamOf dss.flatten
    s.streamHolds s.cursor.toNat stream →
    ∃ m' : Memory, exec .decodeImage s = .next (State.finished { s with
        comp := 1, cursor := BitVec.ofNat 32 (s.cursor.toNat + stream.length)
        outCount := BitVec.ofNat 32 s.planeLen, curCh := BitVec.ofNat 5 (s.chanCount - 1), mem := m' }) ∧ m'.wf ∧
      (∀ k p, ∀ ds ∈ dss[k]?, p < s.planeLen →
        (planeOf ds)[p]? = some (m'.read (s.planeByte k p)) ∧
        (planeOf ds)[p]? = some (m'.read (s.dstByte (s.muxPos k p)))) ∧
      (∀ a, (∀ k < s.chanCount, ¬s.inPlane k a) → ¬s.inMuxOutput a → m'.read a = s.mem.read a)

/-- R148, R149, R150, R191, R197: DECODE_IMAGE of a raw image: the stream holds code 0 and C raw planes of N*BPC bytes. -/
def Obligations.DecodeImageRestoresRawImage : Prop :=
  ∀ s : State, s.mem.wf → s.ready .decodeImage → s.depth.toNat = 8 ∨ s.depth.toNat = 16 →
    let cur := s.cursor.toNat
    let bpc := s.depth.toNat / 8
    let stop := cur + 2 + s.chanCount * (s.planeLen * bpc)
    s.srcByte cur = 0 → s.srcByte (cur + 1) = 0 → stop ≤ s.srcLen.toNat →
    ∃ m' : Memory, exec .decodeImage s = .next (State.finished { s with
        comp := 0, cursor := BitVec.ofNat 32 stop
        outCount := BitVec.ofNat 32 s.planeLen, curCh := BitVec.ofNat 5 (s.chanCount - 1), mem := m' }) ∧ m'.wf ∧
      (∀ k < s.chanCount, ∀ p < s.planeLen,
        m'.read (s.planeByte k p) = s.srcByte (cur + 2 + k * (s.planeLen * bpc) + p * bpc) ∧
        m'.read (s.dstByte (s.muxPos k p)) = s.srcByte (cur + 2 + k * (s.planeLen * bpc) + p * bpc)) ∧
      (∀ a, (∀ k < s.chanCount, ¬s.inPlane k a) → ¬s.inMuxOutput a → m'.read a = s.mem.read a)

/-- R149, R251 (d): a failing DECODE_IMAGE never writes the output buffer. -/
def Obligations.FailedDecodeKeepsOutput : Prop :=
  ∀ s t : State, s.mem.wf → s.err = false → exec .decodeImage s = .next t → t.err = true →
    ∀ q < s.planeLen * s.chanCount * s.stride, t.mem.read (s.dstAddr.toNat + q) = s.mem.read (s.dstAddr.toNat + q)

/-- R150: a DECODE_IMAGE that succeeds leaves COMP 0 or 1, OUT_COUNT = N, CUR_CH = C-1, CURSOR inside the stream, and an output that is
the interleaving of the planes it leaves. -/
def Obligations.SuccessfulDecodeResults : Prop :=
  ∀ s t : State, s.mem.wf → s.done = false → exec .decodeImage s = .next t → t.done = true →
    (t.comp = 0 ∨ t.comp = 1) ∧ t.outCount.toNat = s.planeLen ∧ t.curCh.toNat = s.chanCount - 1 ∧
    s.cursor.toNat + 2 ≤ t.cursor.toNat ∧ t.cursor.toNat ≤ s.srcLen.toNat ∧ t.err = s.err ∧
    (∀ k < s.chanCount, ∀ p < s.planeLen,
      t.mem.read (s.dstByte (s.muxPos k p)) = t.mem.read (s.planeByte k p))

/-- R150: what DECODE_IMAGE leaves alone, whether it succeeds or fails. -/
def Obligations.DecodeImageFrame : Prop :=
  ∀ s t : State, s.mem.wf → exec .decodeImage s = .next t →
    t = { s with done := t.done, err := t.err, ecode := t.ecode, cmdPending := none, inChannel := false, comp := t.comp,
                 cursor := t.cursor, outCount := t.outCount, curCh := t.curCh, mem := t.mem } ∧
    (∀ a, (∀ k < s.chanCount, ¬s.inPlane k a) → ¬s.inMuxOutput a → t.mem.read a = s.mem.read a)

/-! ## Every command -/

/-- R116, R168, R250, R253, R291: no command hangs: its step completes with exactly one `done` or one `raise`, or is refused because a
range does not exist (R86). -/
def Obligations.EveryCommandCompletes : Prop :=
  ∀ (s : State) (i : Instr), isCommand i = true →
    (∃ t, exec i s = .next t ∧ t.cmdPending = none ∧ t.inChannel = false ∧
      ((t.done = true ∧ t.err = s.err ∧ t.ecode = s.ecode) ∨
       (t.err = true ∧ t.done = s.done ∧ 1 ≤ t.ecode.toNat ∧ t.ecode.toNat ≤ 9))) ∨
    (exec i s = .refused .outsideRam ∧ firstError (staticChecks i s) = none ∧
      ∃ r ∈ usedRanges i s, ∃ j < r.len, s.byteExists (r.base + j) = false)

/-- R45: no command moves CURSOR past SRC_LEN. -/
def Obligations.CursorStaysInStream : Prop :=
  ∀ (s t : State) (i : Instr), isCommand i = true → exec i s = .next t →
    t.cursor = s.cursor ∨ (s.cursor.toNat ≤ t.cursor.toNat ∧ t.cursor.toNat ≤ s.srcLen.toNat)

/-- R41, R50, R54, R254: no instruction writes a configuration register, CTRL, CMD or DROP; only DECODE_IMAGE writes COMP; only the swaps and
the loads write DATA_OUT. -/
def Obligations.ConfigurationNeverWritten : Prop :=
  ∀ (s t : State) (i : Instr), exec i s = .next t →
    t = { s with done := t.done, err := t.err, ecode := t.ecode, cmdPending := t.cmdPending, inChannel := t.inChannel,
                 comp := t.comp, cursor := t.cursor, dataOut := t.dataOut, outCount := t.outCount, curCh := t.curCh,
                 mem := t.mem } ∧
    (i ≠ .decodeImage → t.comp = s.comp) ∧
    (i ∉ [Instr.swap16, .swap32, .ldbe16, .ldbe32] → t.dataOut = s.dataOut)

/-! ## The register window -/

/-- R60, R58: the registers read their reset values after reset, nothing is pending, irq is 0. -/
def Obligations.ResetValues : Prop :=
  State.reset.regValue .id = 0x50534431 ∧ State.reset.regValue .muxStride = 1 ∧
  (∀ r : RegName, r ≠ .id → r ≠ .muxStride → State.reset.regValue r = 0) ∧
  State.reset.busy = false ∧ State.reset.cmdPending = none ∧ State.reset.irq = false

/-- R80, R85, R261: a 32-bit access of the host at an aligned offset of the window is the register access at that offset; every other
access to the window is refused, and so are a register access of a second host (log 14) and an access outside the window (log 15). -/
def Obligations.WindowAccesses : Prop :=
  (∀ (s : State) (rest : List Move), s.schedule = .secondHost :: rest → step s = .refused .secondHost) ∧
  (∀ (s : State) (addr v : Word) (size : AccessSize) (rest : List Move),
    addr.toNat < s.regBase.toNat ∨ s.regBase.toNat + 0x100 ≤ addr.toNat →
      (s.schedule = .regWrite addr size v :: rest → step s = .refused .outsideWindow) ∧
      (s.schedule = .regRead addr size :: rest → step s = .refused .outsideWindow)) ∧
  ∀ (s : State) (addr v : Word) (size : AccessSize) (rest : List Move) (off : Nat),
    addr.toNat = s.regBase.toNat + off → off < 0x100 →
    (size = .word ∧ off % 4 = 0 →
      (s.schedule = .regWrite addr size v :: rest → step s = .next ({ s with schedule := rest }.writeOffset off v)) ∧
      (s.schedule = .regRead addr size :: rest → step s = .next ({ s with schedule := rest }.readOffset off))) ∧
    (¬(size = .word ∧ off % 4 = 0) →
      (s.schedule = .regWrite addr size v :: rest → step s = .refused .badAccess) ∧
      (s.schedule = .regRead addr size :: rest → step s = .refused .badAccess))

/-- R36, R53, R54, R32: while BUSY = 0 a write stores the 32 bits of an RW register and changes nothing else; CMD accepts; RO registers and
reserved offsets ignore it. -/
def Obligations.IdleWritesStore : Prop :=
  ∀ (s : State) (v : Word), s.busy = false →
    (∀ r ∈ [RegName.width, .height, .channels, .depth, .muxStride, .srcAddr, .srcLen, .cursor, .planeAddr, .dstAddr, .xferLen, .dataIn],
      (s.writeOffset r.offset v).regValue r = v ∧ (∀ r', r' ≠ r → (s.writeOffset r.offset v).regValue r' = s.regValue r') ∧
      (s.writeOffset r.offset v).mem = s.mem ∧ (s.writeOffset r.offset v).cmdPending = none) ∧
    s.writeOffset 0x0C v = { s with cmd := v, done := false, err := false, ecode := 0, cmdPending := some v } ∧
    (∀ r ∈ [RegName.id, .comp, .dataOut, .outCount, .curCh], s.writeOffset r.offset v = s) ∧
    (∀ off, 0x50 ≤ off → off < 0x100 → off % 4 = 0 → s.writeOffset off v = s ∧ (s.readOffset off).hostData = 0)

/-- R34, R281: a CTRL write sets IE from bit 0, or, with bit 1, resets every register in the same step and keeps memory (R283). -/
def Obligations.CtrlWrites : Prop :=
  ∀ (s : State) (v : Word), s.busy = false →
    (v.getLsbD 1 = false → s.writeOffset 0x04 v = { s with ie := v.getLsbD 0 }) ∧
    (v.getLsbD 1 = true →
      (s.writeOffset 0x04 v).regValue .muxStride = 1 ∧
      (∀ r : RegName, r ≠ .id → r ≠ .muxStride → (s.writeOffset 0x04 v).regValue r = 0) ∧
      (s.writeOffset 0x04 v).irq = false ∧ (s.writeOffset 0x04 v).mem = s.mem) ∧
    (s.regValue .ctrl = if s.ie then 1 else 0)

/-- R35, R254: a read of STATUS returns BUSY, DONE, ERR, DROP at bits 0 to 3, ECODE at bits 11:8 and every other bit 0; a STATUS write while
BUSY = 0 clears exactly the bits written as 1, ERR together with ECODE. -/
def Obligations.StatusReadsAndClears : Prop :=
  (∀ s : State, (s.regValue .status).toNat =
    s.busy.toNat + 2 * s.done.toNat + 4 * s.err.toNat + 8 * s.drop.toNat + 256 * s.ecode.toNat) ∧
  ∀ (s : State) (v : Word), s.busy = false →
    ∃ t, s.writeOffset 0x08 v = t ∧
      t = { s with done := t.done, err := t.err, ecode := t.ecode, drop := t.drop } ∧
      t.done = (if v.toNat / 2 % 2 = 1 then false else s.done) ∧
      t.err = (if v.toNat / 4 % 2 = 1 then false else s.err) ∧
      t.ecode = (if v.toNat / 4 % 2 = 1 then 0 else s.ecode) ∧
      t.drop = (if v.toNat / 8 % 2 = 1 then false else s.drop)

/-- R55: while BUSY = 1 every write to the window is ignored, and a CMD write also sets DROP. -/
def Obligations.BusyWritesIgnored : Prop :=
  ∀ (s : State) (off : Nat) (v : Word), s.busy = true →
    s.writeOffset off v = if off = 0x0C then { s with drop := true } else s

/-- R56, R54, R87: a read changes nothing of the block; while BUSY = 1 the stable registers read their values, and a progress register reads a
free value of its own bits (log 6, log 12: true whatever the free value is). -/
def Obligations.ReadsHaveNoSideEffect : Prop :=
  ∀ (s : State) (r : RegName),
    (s.readOffset r.offset = { s with hostData := (s.readOffset r.offset).hostData, draws := (s.readOffset r.offset).draws }) ∧
    (s.busy = false → (s.readOffset r.offset).hostData = s.regValue r) ∧
    (r ∉ [RegName.comp, .cursor, .dataOut, .outCount, .curCh] → (s.readOffset r.offset).hostData = s.regValue r) ∧
    (r = .comp → (s.readOffset r.offset).hostData.toNat < 2 ^ 16) ∧
    (r = .curCh → (s.readOffset r.offset).hostData.toNat < 2 ^ 5)

/-- R58, R255, R256: irq is IE & (DONE | ERR); a W1C, IE = 0 and an acceptance lower it; DROP does not drive it. -/
def Obligations.IrqIsCompletionLevel : Prop :=
  ∀ (s : State) (v : Word),
    (s.irq = true ↔ s.ie = true ∧ (s.done = true ∨ s.err = true)) ∧
    (s.busy = false → (s.writeOffset 0x0C v).irq = false ∧ (s.writeOffset 0x04 0).irq = false ∧
      (s.writeOffset 0x08 6).irq = false) ∧
    ({ s with drop := !s.drop }.irq = s.irq)

/-! ## Memory accesses of the host, and the hard reset -/

/-- R96, R264: a host access inside a range of the accepted command while BUSY is refused (a command whose static checks fail has no
ranges: log 11); outside it, on a byte that exists, the access
takes place and touches nothing else. -/
def Obligations.HostMemoryAccesses : Prop :=
  ∀ (s : State) (a : Word) (b : Byte) (rest : List Move),
    ((∃ i, s.acceptedCommand = some i ∧ firstError (staticChecks i s) = none ∧
        ∃ r ∈ usedRanges i s, r.base ≤ a.toNat ∧ a.toNat < r.base + r.len) →
      (s.schedule = .memWrite a b :: rest → step s = .refused .race) ∧
      (s.schedule = .memRead a :: rest → step s = .refused .race)) ∧
    ((∀ i, s.acceptedCommand = some i → ∀ r ∈ usedRanges i s, a.toNat < r.base ∨ r.base + r.len ≤ a.toNat) →
      s.byteExists a.toNat = true →
      (s.schedule = .memWrite a b :: rest → s.mem.wf → ∃ m' : Memory, step s = .next { s with schedule := rest, mem := m' } ∧
        m'.wf ∧ ∀ x, m'.read x = if x = a.toNat then b else s.mem.read x) ∧
      (s.schedule = .memRead a :: rest → ∃ w : Word,
        step s = .next { s with schedule := rest, hostData := w } ∧ w.toNat = (s.mem.read a.toNat).toNat))

/-- R280, R282, R283: the hard reset gives every register its reset value and abandons the pending command; memory outside what that
command could write (log 13) is unchanged, all of it if nothing was pending. -/
def Obligations.HardResetResets : Prop :=
  ∀ (s : State) (rest : List Move), s.schedule = .hardReset :: rest →
    ∃ (m' : Memory) (d : Nat), step s = .next { State.reset with
        mem := m', draws := d, ramHoles := s.ramHoles, regBase := s.regBase, schedule := rest, hostData := s.hostData } ∧
      (s.busy = false → m' = s.mem) ∧
      (s.mem.wf → m'.wf ∧ ∀ a, (∀ r ∈ s.acceptedRanges writtenRanges, a < r.base ∨ r.base + r.len ≤ a) →
        m'.read a = s.mem.read a)

/-! ## The machine -/

/-- R30, R56, R8: no step changes the platform; while BUSY = 1 no step but a hard reset changes CTRL, CMD or a configuration register. -/
def Obligations.BusyFreezesConfiguration : Prop :=
  ∀ s t : State, step s = .next t →
    t.ramHoles = s.ramHoles ∧ t.regBase = s.regBase ∧
    (s.busy = true → (∀ rest, s.schedule ≠ .hardReset :: rest) →
      ∀ r ∈ [RegName.id, .ctrl, .cmd, .width, .height, .channels, .depth, .muxStride, .srcAddr, .srcLen, .planeAddr, .dstAddr, .xferLen, .dataIn],
        t.regValue r = s.regValue r)

/-- R16, R59, R80: only the sequencer, a host memory write and a hard reset of a busy block change data memory. -/
def Obligations.RegisterMovesKeepMemory : Prop :=
  ∀ (s t : State) (m : Move) (rest : List Move), s.schedule = m :: rest → step s = .next t → t.mem ≠ s.mem →
    m = .sequencer ∨ (∃ a b, m = .memWrite a b) ∨ (m = .hardReset ∧ s.busy = true)

/-- R95, R57: the sequencer's step leaves no channel open (log 2) and nothing pending: a command is one step. -/
def Obligations.CommandIsOneStep : Prop :=
  ∀ s t : State, s.schedule = [] → s.inChannel = false → step s = .next t → t.busy = false ∧ t.inChannel = false

/-- The invariant of Safety.lean holds after reset: memory is canonical and lists only bytes that exist (R59, R86), DONE and ERR exclude
each other and ECODE fits ERR (R35, R240), and a channel is open only under a command that decodes channels (R57, R160). -/
def Obligations.ResetMeetsInvariant : Prop := State.reset.Inv

/-- Every step keeps the invariant, from every state that meets it. -/
def Obligations.StepKeepsInvariant : Prop := ∀ s t : State, s.Inv → step s = .next t → t.Inv
end

