-- ==== Sys2Proof/Laws/Decode.lean ====
section
/-! SUPPORT. Laws/Decode.lean: the fields of a command word (R110), each said once. -/

namespace Sys2Proof

theorem commandWord_toNat (op ch : BitVec 8) : (commandWord op ch).toNat = ch.toNat * 256 + op.toNat := by
  have h : (commandWord op ch).toNat = ((0#16 ++ ch ++ op : BitVec (16 + 8 + 8))).toNat := rfl
  have := op.isLt
  have := ch.isLt
  rw [h, BitVec.toNat_append, BitVec.toNat_append, ← Nat.shiftLeft_add_eq_or_of_lt op.isLt,
    ← Nat.shiftLeft_add_eq_or_of_lt ch.isLt]
  simp [Nat.shiftLeft_eq]

theorem opField_toNat (v : Word) : (opField v).toNat = v.toNat % 256 := by simp [opField]
theorem chField_toNat (v : Word) : (chField v).toNat = v.toNat / 256 % 256 := by
  simp [chField, Nat.shiftRight_eq_div_pow]
theorem rsvField_toNat (v : Word) : (rsvField v).toNat = v.toNat / 65536 := by
  have := v.isLt
  simp only [rsvField, BitVec.extractLsb'_toNat, Nat.shiftRight_eq_div_pow]
  omega

@[simp] theorem opField_commandWord (op ch : BitVec 8) : opField (commandWord op ch) = op := by
  have := op.isLt
  apply BitVec.eq_of_toNat_eq
  rw [opField_toNat, commandWord_toNat]; omega

@[simp] theorem chField_commandWord (op ch : BitVec 8) : chField (commandWord op ch) = ch := by
  have := op.isLt
  have := ch.isLt
  apply BitVec.eq_of_toNat_eq
  rw [chField_toNat, commandWord_toNat]; omega

@[simp] theorem rsvField_commandWord (op ch : BitVec 8) : rsvField (commandWord op ch) = 0 := by
  have := op.isLt
  have := ch.isLt
  apply BitVec.eq_of_toNat_eq
  rw [rsvField_toNat, commandWord_toNat]
  change _ = 0
  omega

/-- A word with RSV = 0 is made of its two fields. -/
theorem eq_commandWord {v : Word} (h : rsvField v = 0) : v = commandWord (opField v) (chField v) := by
  have h0 : v.toNat / 65536 = 0 := by rw [← rsvField_toNat, h]; rfl
  apply BitVec.eq_of_toNat_eq
  rw [commandWord_toNat, opField_toNat, chField_toNat]
  omega

end Sys2Proof
end

