-- ==== Sys2Proof/Laws/State.lean ====
section
/-! SUPPORT. Laws/State.lean: one lemma per field per named update of State, true by rfl, so that no proof unfolds a record
update. -/

namespace Sys2Proof.Machine

@[simp] theorem State.completeErr_ie (s : State) (e : ErrCode) : (s.completeErr e).ie = s.ie := rfl
@[simp] theorem State.completeErr_done (s : State) (e : ErrCode) : (s.completeErr e).done = s.done := rfl
@[simp] theorem State.completeErr_err (s : State) (e : ErrCode) : (s.completeErr e).err = true := rfl
@[simp] theorem State.completeErr_drop (s : State) (e : ErrCode) : (s.completeErr e).drop = s.drop := rfl
@[simp] theorem State.completeErr_ecode (s : State) (e : ErrCode) : (s.completeErr e).ecode = e.code := rfl
@[simp] theorem State.completeErr_cmd (s : State) (e : ErrCode) : (s.completeErr e).cmd = s.cmd := rfl
@[simp] theorem State.completeErr_width (s : State) (e : ErrCode) : (s.completeErr e).width = s.width := rfl
@[simp] theorem State.completeErr_height (s : State) (e : ErrCode) : (s.completeErr e).height = s.height := rfl
@[simp] theorem State.completeErr_channels (s : State) (e : ErrCode) : (s.completeErr e).channels = s.channels := rfl
@[simp] theorem State.completeErr_depth (s : State) (e : ErrCode) : (s.completeErr e).depth = s.depth := rfl
@[simp] theorem State.completeErr_comp (s : State) (e : ErrCode) : (s.completeErr e).comp = s.comp := rfl
@[simp] theorem State.completeErr_muxStride (s : State) (e : ErrCode) : (s.completeErr e).muxStride = s.muxStride := rfl
@[simp] theorem State.completeErr_srcAddr (s : State) (e : ErrCode) : (s.completeErr e).srcAddr = s.srcAddr := rfl
@[simp] theorem State.completeErr_srcLen (s : State) (e : ErrCode) : (s.completeErr e).srcLen = s.srcLen := rfl
@[simp] theorem State.completeErr_cursor (s : State) (e : ErrCode) : (s.completeErr e).cursor = s.cursor := rfl
@[simp] theorem State.completeErr_planeAddr (s : State) (e : ErrCode) : (s.completeErr e).planeAddr = s.planeAddr := rfl
@[simp] theorem State.completeErr_dstAddr (s : State) (e : ErrCode) : (s.completeErr e).dstAddr = s.dstAddr := rfl
@[simp] theorem State.completeErr_xferLen (s : State) (e : ErrCode) : (s.completeErr e).xferLen = s.xferLen := rfl
@[simp] theorem State.completeErr_dataIn (s : State) (e : ErrCode) : (s.completeErr e).dataIn = s.dataIn := rfl
@[simp] theorem State.completeErr_dataOut (s : State) (e : ErrCode) : (s.completeErr e).dataOut = s.dataOut := rfl
@[simp] theorem State.completeErr_outCount (s : State) (e : ErrCode) : (s.completeErr e).outCount = s.outCount := rfl
@[simp] theorem State.completeErr_curCh (s : State) (e : ErrCode) : (s.completeErr e).curCh = s.curCh := rfl
@[simp] theorem State.completeErr_cmdPending (s : State) (e : ErrCode) : (s.completeErr e).cmdPending = none := rfl
@[simp] theorem State.completeErr_inChannel (s : State) (e : ErrCode) : (s.completeErr e).inChannel = false := rfl
@[simp] theorem State.completeErr_mem (s : State) (e : ErrCode) : (s.completeErr e).mem = s.mem := rfl
@[simp] theorem State.completeErr_ramHoles (s : State) (e : ErrCode) : (s.completeErr e).ramHoles = s.ramHoles := rfl
@[simp] theorem State.completeErr_regBase (s : State) (e : ErrCode) : (s.completeErr e).regBase = s.regBase := rfl
@[simp] theorem State.completeErr_schedule (s : State) (e : ErrCode) : (s.completeErr e).schedule = s.schedule := rfl
@[simp] theorem State.completeErr_hostData (s : State) (e : ErrCode) : (s.completeErr e).hostData = s.hostData := rfl
@[simp] theorem State.completeErr_draws (s : State) (e : ErrCode) : (s.completeErr e).draws = s.draws := rfl

@[simp] theorem State.completeDone_ie (s : State) : s.completeDone.ie = s.ie := rfl
@[simp] theorem State.completeDone_done (s : State) : s.completeDone.done = true := rfl
@[simp] theorem State.completeDone_err (s : State) : s.completeDone.err = s.err := rfl
@[simp] theorem State.completeDone_drop (s : State) : s.completeDone.drop = s.drop := rfl
@[simp] theorem State.completeDone_ecode (s : State) : s.completeDone.ecode = s.ecode := rfl
@[simp] theorem State.completeDone_cmd (s : State) : s.completeDone.cmd = s.cmd := rfl
@[simp] theorem State.completeDone_width (s : State) : s.completeDone.width = s.width := rfl
@[simp] theorem State.completeDone_height (s : State) : s.completeDone.height = s.height := rfl
@[simp] theorem State.completeDone_channels (s : State) : s.completeDone.channels = s.channels := rfl
@[simp] theorem State.completeDone_depth (s : State) : s.completeDone.depth = s.depth := rfl
@[simp] theorem State.completeDone_comp (s : State) : s.completeDone.comp = s.comp := rfl
@[simp] theorem State.completeDone_muxStride (s : State) : s.completeDone.muxStride = s.muxStride := rfl
@[simp] theorem State.completeDone_srcAddr (s : State) : s.completeDone.srcAddr = s.srcAddr := rfl
@[simp] theorem State.completeDone_srcLen (s : State) : s.completeDone.srcLen = s.srcLen := rfl
@[simp] theorem State.completeDone_cursor (s : State) : s.completeDone.cursor = s.cursor := rfl
@[simp] theorem State.completeDone_planeAddr (s : State) : s.completeDone.planeAddr = s.planeAddr := rfl
@[simp] theorem State.completeDone_dstAddr (s : State) : s.completeDone.dstAddr = s.dstAddr := rfl
@[simp] theorem State.completeDone_xferLen (s : State) : s.completeDone.xferLen = s.xferLen := rfl
@[simp] theorem State.completeDone_dataIn (s : State) : s.completeDone.dataIn = s.dataIn := rfl
@[simp] theorem State.completeDone_dataOut (s : State) : s.completeDone.dataOut = s.dataOut := rfl
@[simp] theorem State.completeDone_outCount (s : State) : s.completeDone.outCount = s.outCount := rfl
@[simp] theorem State.completeDone_curCh (s : State) : s.completeDone.curCh = s.curCh := rfl
@[simp] theorem State.completeDone_cmdPending (s : State) : s.completeDone.cmdPending = none := rfl
@[simp] theorem State.completeDone_inChannel (s : State) : s.completeDone.inChannel = false := rfl
@[simp] theorem State.completeDone_mem (s : State) : s.completeDone.mem = s.mem := rfl
@[simp] theorem State.completeDone_ramHoles (s : State) : s.completeDone.ramHoles = s.ramHoles := rfl
@[simp] theorem State.completeDone_regBase (s : State) : s.completeDone.regBase = s.regBase := rfl
@[simp] theorem State.completeDone_schedule (s : State) : s.completeDone.schedule = s.schedule := rfl
@[simp] theorem State.completeDone_hostData (s : State) : s.completeDone.hostData = s.hostData := rfl
@[simp] theorem State.completeDone_draws (s : State) : s.completeDone.draws = s.draws := rfl

@[simp] theorem State.accept_ie (s : State) (v : Word) : (s.accept v).ie = s.ie := rfl
@[simp] theorem State.accept_done (s : State) (v : Word) : (s.accept v).done = false := rfl
@[simp] theorem State.accept_err (s : State) (v : Word) : (s.accept v).err = false := rfl
@[simp] theorem State.accept_drop (s : State) (v : Word) : (s.accept v).drop = s.drop := rfl
@[simp] theorem State.accept_ecode (s : State) (v : Word) : (s.accept v).ecode = 0 := rfl
@[simp] theorem State.accept_cmd (s : State) (v : Word) : (s.accept v).cmd = v := rfl
@[simp] theorem State.accept_width (s : State) (v : Word) : (s.accept v).width = s.width := rfl
@[simp] theorem State.accept_height (s : State) (v : Word) : (s.accept v).height = s.height := rfl
@[simp] theorem State.accept_channels (s : State) (v : Word) : (s.accept v).channels = s.channels := rfl
@[simp] theorem State.accept_depth (s : State) (v : Word) : (s.accept v).depth = s.depth := rfl
@[simp] theorem State.accept_comp (s : State) (v : Word) : (s.accept v).comp = s.comp := rfl
@[simp] theorem State.accept_muxStride (s : State) (v : Word) : (s.accept v).muxStride = s.muxStride := rfl
@[simp] theorem State.accept_srcAddr (s : State) (v : Word) : (s.accept v).srcAddr = s.srcAddr := rfl
@[simp] theorem State.accept_srcLen (s : State) (v : Word) : (s.accept v).srcLen = s.srcLen := rfl
@[simp] theorem State.accept_cursor (s : State) (v : Word) : (s.accept v).cursor = s.cursor := rfl
@[simp] theorem State.accept_planeAddr (s : State) (v : Word) : (s.accept v).planeAddr = s.planeAddr := rfl
@[simp] theorem State.accept_dstAddr (s : State) (v : Word) : (s.accept v).dstAddr = s.dstAddr := rfl
@[simp] theorem State.accept_xferLen (s : State) (v : Word) : (s.accept v).xferLen = s.xferLen := rfl
@[simp] theorem State.accept_dataIn (s : State) (v : Word) : (s.accept v).dataIn = s.dataIn := rfl
@[simp] theorem State.accept_dataOut (s : State) (v : Word) : (s.accept v).dataOut = s.dataOut := rfl
@[simp] theorem State.accept_outCount (s : State) (v : Word) : (s.accept v).outCount = s.outCount := rfl
@[simp] theorem State.accept_curCh (s : State) (v : Word) : (s.accept v).curCh = s.curCh := rfl
@[simp] theorem State.accept_cmdPending (s : State) (v : Word) : (s.accept v).cmdPending = some v := rfl
@[simp] theorem State.accept_inChannel (s : State) (v : Word) : (s.accept v).inChannel = s.inChannel := rfl
@[simp] theorem State.accept_mem (s : State) (v : Word) : (s.accept v).mem = s.mem := rfl
@[simp] theorem State.accept_ramHoles (s : State) (v : Word) : (s.accept v).ramHoles = s.ramHoles := rfl
@[simp] theorem State.accept_regBase (s : State) (v : Word) : (s.accept v).regBase = s.regBase := rfl
@[simp] theorem State.accept_schedule (s : State) (v : Word) : (s.accept v).schedule = s.schedule := rfl
@[simp] theorem State.accept_hostData (s : State) (v : Word) : (s.accept v).hostData = s.hostData := rfl
@[simp] theorem State.accept_draws (s : State) (v : Word) : (s.accept v).draws = s.draws := rfl

@[simp] theorem State.writeStatus_ie (s : State) (v : Word) : (s.writeStatus v).ie = s.ie := rfl
@[simp] theorem State.writeStatus_done (s : State) (v : Word) : (s.writeStatus v).done = (s.done && !v.getLsbD 1) := rfl
@[simp] theorem State.writeStatus_err (s : State) (v : Word) : (s.writeStatus v).err = (s.err && !v.getLsbD 2) := rfl
@[simp] theorem State.writeStatus_drop (s : State) (v : Word) : (s.writeStatus v).drop = (s.drop && !v.getLsbD 3) := rfl
@[simp] theorem State.writeStatus_ecode (s : State) (v : Word) : (s.writeStatus v).ecode = (if v.getLsbD 2 then 0 else s.ecode) := rfl
@[simp] theorem State.writeStatus_cmd (s : State) (v : Word) : (s.writeStatus v).cmd = s.cmd := rfl
@[simp] theorem State.writeStatus_width (s : State) (v : Word) : (s.writeStatus v).width = s.width := rfl
@[simp] theorem State.writeStatus_height (s : State) (v : Word) : (s.writeStatus v).height = s.height := rfl
@[simp] theorem State.writeStatus_channels (s : State) (v : Word) : (s.writeStatus v).channels = s.channels := rfl
@[simp] theorem State.writeStatus_depth (s : State) (v : Word) : (s.writeStatus v).depth = s.depth := rfl
@[simp] theorem State.writeStatus_comp (s : State) (v : Word) : (s.writeStatus v).comp = s.comp := rfl
@[simp] theorem State.writeStatus_muxStride (s : State) (v : Word) : (s.writeStatus v).muxStride = s.muxStride := rfl
@[simp] theorem State.writeStatus_srcAddr (s : State) (v : Word) : (s.writeStatus v).srcAddr = s.srcAddr := rfl
@[simp] theorem State.writeStatus_srcLen (s : State) (v : Word) : (s.writeStatus v).srcLen = s.srcLen := rfl
@[simp] theorem State.writeStatus_cursor (s : State) (v : Word) : (s.writeStatus v).cursor = s.cursor := rfl
@[simp] theorem State.writeStatus_planeAddr (s : State) (v : Word) : (s.writeStatus v).planeAddr = s.planeAddr := rfl
@[simp] theorem State.writeStatus_dstAddr (s : State) (v : Word) : (s.writeStatus v).dstAddr = s.dstAddr := rfl
@[simp] theorem State.writeStatus_xferLen (s : State) (v : Word) : (s.writeStatus v).xferLen = s.xferLen := rfl
@[simp] theorem State.writeStatus_dataIn (s : State) (v : Word) : (s.writeStatus v).dataIn = s.dataIn := rfl
@[simp] theorem State.writeStatus_dataOut (s : State) (v : Word) : (s.writeStatus v).dataOut = s.dataOut := rfl
@[simp] theorem State.writeStatus_outCount (s : State) (v : Word) : (s.writeStatus v).outCount = s.outCount := rfl
@[simp] theorem State.writeStatus_curCh (s : State) (v : Word) : (s.writeStatus v).curCh = s.curCh := rfl
@[simp] theorem State.writeStatus_cmdPending (s : State) (v : Word) : (s.writeStatus v).cmdPending = s.cmdPending := rfl
@[simp] theorem State.writeStatus_inChannel (s : State) (v : Word) : (s.writeStatus v).inChannel = s.inChannel := rfl
@[simp] theorem State.writeStatus_mem (s : State) (v : Word) : (s.writeStatus v).mem = s.mem := rfl
@[simp] theorem State.writeStatus_ramHoles (s : State) (v : Word) : (s.writeStatus v).ramHoles = s.ramHoles := rfl
@[simp] theorem State.writeStatus_regBase (s : State) (v : Word) : (s.writeStatus v).regBase = s.regBase := rfl
@[simp] theorem State.writeStatus_schedule (s : State) (v : Word) : (s.writeStatus v).schedule = s.schedule := rfl
@[simp] theorem State.writeStatus_hostData (s : State) (v : Word) : (s.writeStatus v).hostData = s.hostData := rfl
@[simp] theorem State.writeStatus_draws (s : State) (v : Word) : (s.writeStatus v).draws = s.draws := rfl

@[simp] theorem beginChannel_ie (k : Nat) (s : State) : (beginChannel k s).ie = s.ie := rfl
@[simp] theorem beginChannel_done (k : Nat) (s : State) : (beginChannel k s).done = s.done := rfl
@[simp] theorem beginChannel_err (k : Nat) (s : State) : (beginChannel k s).err = s.err := rfl
@[simp] theorem beginChannel_drop (k : Nat) (s : State) : (beginChannel k s).drop = s.drop := rfl
@[simp] theorem beginChannel_ecode (k : Nat) (s : State) : (beginChannel k s).ecode = s.ecode := rfl
@[simp] theorem beginChannel_cmd (k : Nat) (s : State) : (beginChannel k s).cmd = s.cmd := rfl
@[simp] theorem beginChannel_width (k : Nat) (s : State) : (beginChannel k s).width = s.width := rfl
@[simp] theorem beginChannel_height (k : Nat) (s : State) : (beginChannel k s).height = s.height := rfl
@[simp] theorem beginChannel_channels (k : Nat) (s : State) : (beginChannel k s).channels = s.channels := rfl
@[simp] theorem beginChannel_depth (k : Nat) (s : State) : (beginChannel k s).depth = s.depth := rfl
@[simp] theorem beginChannel_comp (k : Nat) (s : State) : (beginChannel k s).comp = s.comp := rfl
@[simp] theorem beginChannel_muxStride (k : Nat) (s : State) : (beginChannel k s).muxStride = s.muxStride := rfl
@[simp] theorem beginChannel_srcAddr (k : Nat) (s : State) : (beginChannel k s).srcAddr = s.srcAddr := rfl
@[simp] theorem beginChannel_srcLen (k : Nat) (s : State) : (beginChannel k s).srcLen = s.srcLen := rfl
@[simp] theorem beginChannel_cursor (k : Nat) (s : State) : (beginChannel k s).cursor = s.cursor := rfl
@[simp] theorem beginChannel_planeAddr (k : Nat) (s : State) : (beginChannel k s).planeAddr = s.planeAddr := rfl
@[simp] theorem beginChannel_dstAddr (k : Nat) (s : State) : (beginChannel k s).dstAddr = s.dstAddr := rfl
@[simp] theorem beginChannel_xferLen (k : Nat) (s : State) : (beginChannel k s).xferLen = s.xferLen := rfl
@[simp] theorem beginChannel_dataIn (k : Nat) (s : State) : (beginChannel k s).dataIn = s.dataIn := rfl
@[simp] theorem beginChannel_dataOut (k : Nat) (s : State) : (beginChannel k s).dataOut = s.dataOut := rfl
@[simp] theorem beginChannel_outCount (k : Nat) (s : State) : (beginChannel k s).outCount = 0 := rfl
@[simp] theorem beginChannel_curCh (k : Nat) (s : State) : (beginChannel k s).curCh = BitVec.ofNat 5 k := rfl
@[simp] theorem beginChannel_cmdPending (k : Nat) (s : State) : (beginChannel k s).cmdPending = s.cmdPending := rfl
@[simp] theorem beginChannel_inChannel (k : Nat) (s : State) : (beginChannel k s).inChannel = true := rfl
@[simp] theorem beginChannel_mem (k : Nat) (s : State) : (beginChannel k s).mem = s.mem := rfl
@[simp] theorem beginChannel_ramHoles (k : Nat) (s : State) : (beginChannel k s).ramHoles = s.ramHoles := rfl
@[simp] theorem beginChannel_regBase (k : Nat) (s : State) : (beginChannel k s).regBase = s.regBase := rfl
@[simp] theorem beginChannel_schedule (k : Nat) (s : State) : (beginChannel k s).schedule = s.schedule := rfl
@[simp] theorem beginChannel_hostData (k : Nat) (s : State) : (beginChannel k s).hostData = s.hostData := rfl
@[simp] theorem beginChannel_draws (k : Nat) (s : State) : (beginChannel k s).draws = s.draws := rfl

@[simp] theorem beginCopy_ie (k : Nat) (s : State) : (beginCopy k s).ie = s.ie := rfl
@[simp] theorem beginCopy_done (k : Nat) (s : State) : (beginCopy k s).done = s.done := rfl
@[simp] theorem beginCopy_err (k : Nat) (s : State) : (beginCopy k s).err = s.err := rfl
@[simp] theorem beginCopy_drop (k : Nat) (s : State) : (beginCopy k s).drop = s.drop := rfl
@[simp] theorem beginCopy_ecode (k : Nat) (s : State) : (beginCopy k s).ecode = s.ecode := rfl
@[simp] theorem beginCopy_cmd (k : Nat) (s : State) : (beginCopy k s).cmd = s.cmd := rfl
@[simp] theorem beginCopy_width (k : Nat) (s : State) : (beginCopy k s).width = s.width := rfl
@[simp] theorem beginCopy_height (k : Nat) (s : State) : (beginCopy k s).height = s.height := rfl
@[simp] theorem beginCopy_channels (k : Nat) (s : State) : (beginCopy k s).channels = s.channels := rfl
@[simp] theorem beginCopy_depth (k : Nat) (s : State) : (beginCopy k s).depth = s.depth := rfl
@[simp] theorem beginCopy_comp (k : Nat) (s : State) : (beginCopy k s).comp = s.comp := rfl
@[simp] theorem beginCopy_muxStride (k : Nat) (s : State) : (beginCopy k s).muxStride = s.muxStride := rfl
@[simp] theorem beginCopy_srcAddr (k : Nat) (s : State) : (beginCopy k s).srcAddr = s.srcAddr := rfl
@[simp] theorem beginCopy_srcLen (k : Nat) (s : State) : (beginCopy k s).srcLen = s.srcLen := rfl
@[simp] theorem beginCopy_cursor (k : Nat) (s : State) : (beginCopy k s).cursor = s.cursor := rfl
@[simp] theorem beginCopy_planeAddr (k : Nat) (s : State) : (beginCopy k s).planeAddr = s.planeAddr := rfl
@[simp] theorem beginCopy_dstAddr (k : Nat) (s : State) : (beginCopy k s).dstAddr = s.dstAddr := rfl
@[simp] theorem beginCopy_xferLen (k : Nat) (s : State) : (beginCopy k s).xferLen = s.xferLen := rfl
@[simp] theorem beginCopy_dataIn (k : Nat) (s : State) : (beginCopy k s).dataIn = s.dataIn := rfl
@[simp] theorem beginCopy_dataOut (k : Nat) (s : State) : (beginCopy k s).dataOut = s.dataOut := rfl
@[simp] theorem beginCopy_outCount (k : Nat) (s : State) : (beginCopy k s).outCount = 0 := rfl
@[simp] theorem beginCopy_curCh (k : Nat) (s : State) : (beginCopy k s).curCh = BitVec.ofNat 5 k := rfl
@[simp] theorem beginCopy_cmdPending (k : Nat) (s : State) : (beginCopy k s).cmdPending = s.cmdPending := rfl
@[simp] theorem beginCopy_inChannel (k : Nat) (s : State) : (beginCopy k s).inChannel = s.inChannel := rfl
@[simp] theorem beginCopy_mem (k : Nat) (s : State) : (beginCopy k s).mem = s.mem := rfl
@[simp] theorem beginCopy_ramHoles (k : Nat) (s : State) : (beginCopy k s).ramHoles = s.ramHoles := rfl
@[simp] theorem beginCopy_regBase (k : Nat) (s : State) : (beginCopy k s).regBase = s.regBase := rfl
@[simp] theorem beginCopy_schedule (k : Nat) (s : State) : (beginCopy k s).schedule = s.schedule := rfl
@[simp] theorem beginCopy_hostData (k : Nat) (s : State) : (beginCopy k s).hostData = s.hostData := rfl
@[simp] theorem beginCopy_draws (k : Nat) (s : State) : (beginCopy k s).draws = s.draws := rfl

@[simp] theorem muxEffect_ie (s : State) : (muxEffect s).ie = s.ie := rfl
@[simp] theorem muxEffect_done (s : State) : (muxEffect s).done = s.done := rfl
@[simp] theorem muxEffect_err (s : State) : (muxEffect s).err = s.err := rfl
@[simp] theorem muxEffect_drop (s : State) : (muxEffect s).drop = s.drop := rfl
@[simp] theorem muxEffect_ecode (s : State) : (muxEffect s).ecode = s.ecode := rfl
@[simp] theorem muxEffect_cmd (s : State) : (muxEffect s).cmd = s.cmd := rfl
@[simp] theorem muxEffect_width (s : State) : (muxEffect s).width = s.width := rfl
@[simp] theorem muxEffect_height (s : State) : (muxEffect s).height = s.height := rfl
@[simp] theorem muxEffect_channels (s : State) : (muxEffect s).channels = s.channels := rfl
@[simp] theorem muxEffect_depth (s : State) : (muxEffect s).depth = s.depth := rfl
@[simp] theorem muxEffect_comp (s : State) : (muxEffect s).comp = s.comp := rfl
@[simp] theorem muxEffect_muxStride (s : State) : (muxEffect s).muxStride = s.muxStride := rfl
@[simp] theorem muxEffect_srcAddr (s : State) : (muxEffect s).srcAddr = s.srcAddr := rfl
@[simp] theorem muxEffect_srcLen (s : State) : (muxEffect s).srcLen = s.srcLen := rfl
@[simp] theorem muxEffect_cursor (s : State) : (muxEffect s).cursor = s.cursor := rfl
@[simp] theorem muxEffect_planeAddr (s : State) : (muxEffect s).planeAddr = s.planeAddr := rfl
@[simp] theorem muxEffect_dstAddr (s : State) : (muxEffect s).dstAddr = s.dstAddr := rfl
@[simp] theorem muxEffect_xferLen (s : State) : (muxEffect s).xferLen = s.xferLen := rfl
@[simp] theorem muxEffect_dataIn (s : State) : (muxEffect s).dataIn = s.dataIn := rfl
@[simp] theorem muxEffect_dataOut (s : State) : (muxEffect s).dataOut = s.dataOut := rfl
@[simp] theorem muxEffect_outCount (s : State) : (muxEffect s).outCount = s.outCount := rfl
@[simp] theorem muxEffect_curCh (s : State) : (muxEffect s).curCh = s.curCh := rfl
@[simp] theorem muxEffect_cmdPending (s : State) : (muxEffect s).cmdPending = s.cmdPending := rfl
@[simp] theorem muxEffect_inChannel (s : State) : (muxEffect s).inChannel = s.inChannel := rfl
@[simp] theorem muxEffect_ramHoles (s : State) : (muxEffect s).ramHoles = s.ramHoles := rfl
@[simp] theorem muxEffect_regBase (s : State) : (muxEffect s).regBase = s.regBase := rfl
@[simp] theorem muxEffect_schedule (s : State) : (muxEffect s).schedule = s.schedule := rfl
@[simp] theorem muxEffect_hostData (s : State) : (muxEffect s).hostData = s.hostData := rfl
@[simp] theorem muxEffect_draws (s : State) : (muxEffect s).draws = s.draws := rfl

@[simp] theorem State.resetRegs_ie (s : State) : s.resetRegs.ie = State.reset.ie := rfl
@[simp] theorem State.resetRegs_done (s : State) : s.resetRegs.done = State.reset.done := rfl
@[simp] theorem State.resetRegs_err (s : State) : s.resetRegs.err = State.reset.err := rfl
@[simp] theorem State.resetRegs_drop (s : State) : s.resetRegs.drop = State.reset.drop := rfl
@[simp] theorem State.resetRegs_ecode (s : State) : s.resetRegs.ecode = State.reset.ecode := rfl
@[simp] theorem State.resetRegs_cmd (s : State) : s.resetRegs.cmd = State.reset.cmd := rfl
@[simp] theorem State.resetRegs_width (s : State) : s.resetRegs.width = State.reset.width := rfl
@[simp] theorem State.resetRegs_height (s : State) : s.resetRegs.height = State.reset.height := rfl
@[simp] theorem State.resetRegs_channels (s : State) : s.resetRegs.channels = State.reset.channels := rfl
@[simp] theorem State.resetRegs_depth (s : State) : s.resetRegs.depth = State.reset.depth := rfl
@[simp] theorem State.resetRegs_comp (s : State) : s.resetRegs.comp = State.reset.comp := rfl
@[simp] theorem State.resetRegs_muxStride (s : State) : s.resetRegs.muxStride = State.reset.muxStride := rfl
@[simp] theorem State.resetRegs_srcAddr (s : State) : s.resetRegs.srcAddr = State.reset.srcAddr := rfl
@[simp] theorem State.resetRegs_srcLen (s : State) : s.resetRegs.srcLen = State.reset.srcLen := rfl
@[simp] theorem State.resetRegs_cursor (s : State) : s.resetRegs.cursor = State.reset.cursor := rfl
@[simp] theorem State.resetRegs_planeAddr (s : State) : s.resetRegs.planeAddr = State.reset.planeAddr := rfl
@[simp] theorem State.resetRegs_dstAddr (s : State) : s.resetRegs.dstAddr = State.reset.dstAddr := rfl
@[simp] theorem State.resetRegs_xferLen (s : State) : s.resetRegs.xferLen = State.reset.xferLen := rfl
@[simp] theorem State.resetRegs_dataIn (s : State) : s.resetRegs.dataIn = State.reset.dataIn := rfl
@[simp] theorem State.resetRegs_dataOut (s : State) : s.resetRegs.dataOut = State.reset.dataOut := rfl
@[simp] theorem State.resetRegs_outCount (s : State) : s.resetRegs.outCount = State.reset.outCount := rfl
@[simp] theorem State.resetRegs_curCh (s : State) : s.resetRegs.curCh = State.reset.curCh := rfl
@[simp] theorem State.resetRegs_cmdPending (s : State) : s.resetRegs.cmdPending = State.reset.cmdPending := rfl
@[simp] theorem State.resetRegs_inChannel (s : State) : s.resetRegs.inChannel = State.reset.inChannel := rfl
@[simp] theorem State.resetRegs_mem (s : State) : s.resetRegs.mem = s.mem := rfl
@[simp] theorem State.resetRegs_ramHoles (s : State) : s.resetRegs.ramHoles = s.ramHoles := rfl
@[simp] theorem State.resetRegs_regBase (s : State) : s.resetRegs.regBase = s.regBase := rfl
@[simp] theorem State.resetRegs_schedule (s : State) : s.resetRegs.schedule = s.schedule := rfl
@[simp] theorem State.resetRegs_hostData (s : State) : s.resetRegs.hostData = s.hostData := rfl
@[simp] theorem State.resetRegs_draws (s : State) : s.resetRegs.draws = s.draws := rfl

@[simp] theorem State.busy_completeErr (s : State) (e : ErrCode) : (s.completeErr e).busy = false := rfl
@[simp] theorem State.busy_completeDone (s : State) : s.completeDone.busy = false := rfl
@[simp] theorem State.busy_accept (s : State) (v : Word) : (s.accept v).busy = true := rfl

end Sys2Proof.Machine
end

