-- ==== Sys2Proof/Laws/Memory.lean ====
section
/-! SUPPORT. Laws/Memory.lean: what the memory operations do, each said once: reading after a write, the canonical form, the
loops of the pseudocode. -/

namespace Sys2Proof.Machine

variable {m m' : Memory} {x y a n : Nat} {v : Byte}

theorem Memory.wf_nil : Memory.wf [] := by simp [Memory.wf]

theorem Memory.wf_cons {c : Host.Cell} : Memory.wf (c :: m) ↔ (∀ d ∈ m, c.1 < d.1) ∧ m.wf := List.pairwise_cons

theorem Memory.wf_tail {c : Host.Cell} (h : Memory.wf (c :: m)) : m.wf := (Memory.wf_cons.mp h).2

theorem Memory.wf_head_lt {c : Host.Cell} (h : Memory.wf (c :: m)) : ∀ d ∈ m, c.1 < d.1 := (Memory.wf_cons.mp h).1

theorem Memory.read_of_not_listed (h : ∀ c ∈ m, c.1 ≠ x) : m.read x = unlistedByte x := by
  induction m with
  | nil => rfl
  | cons c m ih =>
    obtain ⟨b, w⟩ := c
    have hb : b ≠ x := h (b, w) (by simp)
    simp only [Memory.read, if_neg hb]
    exact ih fun d hd => h d (by simp [hd])

theorem Memory.read_of_lt_all (h : ∀ c ∈ m, y < c.1) (hx : x ≤ y) : m.read x = unlistedByte x :=
  Memory.read_of_not_listed fun c hc e => by have := h c hc; omega

theorem Memory.mem_write {c : Host.Cell} (h : c ∈ m.write x v) : c.1 = x ∨ c ∈ m := by
  induction m with
  | nil => simp_all [Memory.write]
  | cons d m ih =>
    simp only [Memory.write] at h
    split_ifs at h <;> simp only [List.mem_cons] at h ⊢ <;> aesop

theorem Memory.write_wf (h : m.wf) : (m.write x v).wf := by
  induction m with
  | nil => simp [Memory.write, Memory.wf]
  | cons d m ih =>
    obtain ⟨hlt, ht⟩ := Memory.wf_cons.mp h
    simp only [Memory.write]
    split_ifs with h1 h2
    · refine Memory.wf_cons.mpr ⟨fun c hc => ?_, h⟩
      rcases List.mem_cons.mp hc with rfl | hc
      · exact h1
      · exact lt_trans h1 (hlt c hc)
    · exact Memory.wf_cons.mpr ⟨h2 ▸ hlt, ht⟩
    · refine Memory.wf_cons.mpr ⟨fun c hc => ?_, ih ht⟩
      rcases Memory.mem_write hc with e | hc
      · simp only; omega
      · exact hlt c hc

theorem Memory.read_write (h : m.wf) : (m.write x v).read y = if y = x then v else m.read y := by
  induction m with
  | nil => simp [Memory.write, Memory.read, eq_comm]
  | cons d m ih =>
    have ih := ih (Memory.wf_tail h)
    simp only [Memory.write]
    split_ifs <;> simp only [Memory.read, ih] <;> split_ifs <;> first | rfl | omega

/-- A write lists its address and keeps the others listed. -/
theorem Memory.listed_write : (∃ w, (y, w) ∈ m.write x v) ↔ y = x ∨ ∃ w, (y, w) ∈ m := by
  induction m with
  | nil => simp [Memory.write]
  | cons d m ih =>
    obtain ⟨b, w⟩ := d
    simp only [Memory.write]
    split_ifs with h1 h2
    · simp only [List.mem_cons, Prod.mk.injEq, exists_or, exists_and_left, exists_eq, and_true]
    · subst h2
      simp only [List.mem_cons, Prod.mk.injEq, exists_or, exists_and_left, exists_eq, and_true]
      tauto
    · simp only [List.mem_cons, Prod.mk.injEq, exists_or, exists_and_left, exists_eq, and_true, ih]
      tauto

theorem Memory.read_write_same (h : m.wf) : (m.write x v).read x = v := by simp [Memory.read_write h]

theorem Memory.read_write_other (h : m.wf) (hy : y ≠ x) : (m.write x v).read y = m.read y := by
  simp [Memory.read_write h, hy]

/-- Memories that list the same addresses and read alike are equal data. -/
theorem Memory.eq_of_read (h : m.wf) (h' : m'.wf) (hl : ∀ a, (∃ w, (a, w) ∈ m) ↔ ∃ w, (a, w) ∈ m')
    (e : ∀ a, m.read a = m'.read a) : m = m' := by
  induction m generalizing m' with
  | nil =>
    cases m' with
    | nil => rfl
    | cons c m' => simpa using (hl c.1).mpr ⟨c.2, by simp⟩
  | cons c m ih =>
    obtain ⟨a, v⟩ := c
    have hlt : ∀ d ∈ m, a < d.1 := Memory.wf_head_lt h
    cases m' with
    | nil => simpa using (hl a).mp ⟨v, by simp⟩
    | cons d m' =>
      obtain ⟨b, w⟩ := d
      have hlt' : ∀ d ∈ m', b < d.1 := Memory.wf_head_lt h'
      have h1 : b ≤ a := by
        obtain ⟨u, hu⟩ := (hl a).mp ⟨v, by simp⟩
        rcases List.mem_cons.mp hu with e | hu
        · cases e; exact le_rfl
        · exact (hlt' _ hu).le
      have h2 : a ≤ b := by
        obtain ⟨u, hu⟩ := (hl b).mpr ⟨w, by simp⟩
        rcases List.mem_cons.mp hu with e | hu
        · cases e; exact le_rfl
        · exact (hlt _ hu).le
      obtain rfl : a = b := le_antisymm h2 h1
      obtain rfl : v = w := by simpa [Memory.read] using e a
      congr 1
      refine ih (Memory.wf_tail h) (Memory.wf_tail h') (fun z => ?_) fun z => ?_
      · by_cases hz : z = a
        · subst hz
          exact ⟨fun ⟨u, hu⟩ => absurd (hlt _ hu) (lt_irrefl _), fun ⟨u, hu⟩ => absurd (hlt' _ hu) (lt_irrefl _)⟩
        · simpa [hz] using hl z
      · by_cases hz : a = z
        · subst hz
          rw [Memory.read_of_lt_all hlt le_rfl, Memory.read_of_lt_all hlt' le_rfl]
        · simpa [Memory.read, hz] using e z

/-! The loop `for i in [0, n)`. -/

@[simp] theorem Memory.forEach_zero (m : Memory) (body : Nat → Memory → Memory) : m.forEach 0 body = m := rfl

@[simp] theorem Memory.forEach_succ (m : Memory) (n : Nat) (body : Nat → Memory → Memory) :
    m.forEach (n + 1) body = body n (m.forEach n body) := rfl

/-- What every pass keeps, the loop keeps. -/
theorem Memory.forEach_keeps {P : Memory → Prop} {body : Nat → Memory → Memory} (h : P m)
    (hb : ∀ i < n, ∀ q, P q → P (body i q)) : P (m.forEach n body) := by
  induction n with
  | zero => exact h
  | succ n ih => exact hb n (by omega) _ (ih fun i hi => hb i (by omega))

theorem Memory.forEach_wf {body : Nat → Memory → Memory} (h : m.wf) (hb : ∀ i < n, ∀ q : Memory, q.wf → (body i q).wf) :
    (m.forEach n body).wf := Memory.forEach_keeps (P := Memory.wf) h hb

/-- A loop that writes at `d i` in pass `i`, whatever it writes, leaves every other address alone. -/
theorem Memory.forEach_write_other {d : Nat → Nat} {f : Nat → Memory → Byte} (h : m.wf) (hy : ∀ i < n, y ≠ d i) :
    (m.forEach n fun i q => q.write (d i) (f i q)).read y = m.read y := by
  induction n with
  | zero => rfl
  | succ n ih =>
    have hw : (m.forEach n fun i q => q.write (d i) (f i q)).wf := Memory.forEach_wf h fun _ _ _ hq => Memory.write_wf hq
    rw [Memory.forEach_succ, Memory.read_write_other hw (hy n (by omega)), ih fun i hi => hy i (by omega)]

/-- A copying loop: pass `i` writes at `d i` the byte at `r i`. The targets differ and no source is a target. -/
theorem Memory.forEach_copy {d r : Nat → Nat} (h : m.wf) (hd : ∀ i < n, ∀ j < n, d i = d j → i = j)
    (hr : ∀ i < n, ∀ j < n, r i ≠ d j) {i : Nat} (hi : i < n) :
    (m.forEach n fun i q => q.write (d i) (q.read (r i))).read (d i) = m.read (r i) := by
  induction n with
  | zero => omega
  | succ n ih =>
    have hw : (m.forEach n fun i q => q.write (d i) (q.read (r i))).wf :=
      Memory.forEach_wf h fun _ _ _ hq => Memory.write_wf hq
    rw [Memory.forEach_succ, Memory.read_write hw]
    split_ifs with e
    · have : i = n := hd i hi n (by omega) e
      subst this
      exact Memory.forEach_write_other h fun j hj => hr i (by omega) j (by omega)
    · have hin : i < n := by
        rcases Nat.lt_succ_iff_lt_or_eq.mp hi with h | rfl
        · exact h
        · exact (e rfl).elim
      exact ih (fun i hi j hj => hd i (by omega) j (by omega)) (fun i hi j hj => hr i (by omega) j (by omega)) hin

/-- A filling loop: every pass writes the same byte. -/
theorem Memory.forEach_fill {d : Nat → Nat} (h : m.wf) {i : Nat} (hi : i < n) :
    (m.forEach n fun i q => q.write (d i) v).read (d i) = v := by
  induction n with
  | zero => omega
  | succ n ih =>
    rw [Memory.forEach_succ, Memory.read_write (Memory.forEach_wf h fun _ _ _ hq => Memory.write_wf hq)]
    split_ifs with e
    · rfl
    · exact ih (by
        rcases Nat.lt_succ_iff_lt_or_eq.mp hi with h | rfl
        · exact h
        · exact (e rfl).elim)

/-- Every entry of memory after a loop of writes was there before or stands at a written address. -/
theorem Memory.mem_forEach_write {d : Nat → Nat} {f : Nat → Memory → Byte} {c : Host.Cell}
    (h : c ∈ m.forEach n fun i q => q.write (d i) (f i q)) : c ∈ m ∨ ∃ i < n, c.1 = d i := by
  induction n with
  | zero => exact .inl h
  | succ n ih =>
    rcases Memory.mem_write h with e | h
    · exact .inr ⟨n, by omega, e⟩
    · rcases ih h with h | ⟨i, hi, e⟩
      · exact .inl h
      · exact .inr ⟨i, by omega, e⟩

theorem Memory.writeList_wf (h : m.wf) (bs : List Byte) : (m.writeList a bs).wf := by
  induction bs generalizing m a with
  | nil => exact h
  | cons b bs ih => exact ih (Memory.write_wf h)

end Sys2Proof.Machine
end

