-- ==== Sys2Proof/Laws/Ops.lean ====
section
/-! SUPPORT. Laws/Ops.lean: the shared operations, each said once: existing ranges, the static checks, the frame of a command step,
the sequencing of pseudocode. -/

namespace Sys2Proof.Machine

theorem Range.holds_iff (r : Range) (a : Nat) : r.holds a = true ↔ r.base ≤ a ∧ a < r.base + r.len := by
  simp [Range.holds]

theorem Range.apart_iff (r q : Range) : r.apart q = true ↔ r.Apart q := by simp [Range.apart]

/-- Two ranges are apart exactly when no address lies in both. -/
theorem Range.apart_iff_no_common (r q : Range) :
    r.apart q = true ↔ ∀ a, ¬(r.holds a = true ∧ q.holds a = true) := by
  rw [Range.apart_iff]
  simp only [Range.holds_iff, Range.Apart]
  constructor
  · intro h a; omega
  · intro h
    by_contra hc
    have h1 := h r.base
    have h2 := h q.base
    omega

/-- A range exists exactly when each of its bytes does (R86). -/
theorem State.rangeExists_iff (s : State) (r : Range) : s.rangeExists r = true ↔ s.AllExist r := by
  simp only [State.rangeExists, Bool.and_eq_true, decide_eq_true_eq, List.all_eq_true, State.AllExist,
    State.byteExists, State.ramValid, Bool.not_eq_true', Range.apart_iff_no_common]
  constructor
  · rintro ⟨h1, h2⟩ j hj
    refine ⟨by omega, fun h hh => ?_⟩
    have := h2 h hh (r.base + j)
    simp only [Range.holds_iff r] at this
    simpa using fun hc => this ⟨hc, by omega, by omega⟩
  · intro h
    refine ⟨?_, fun g hg a ha => ?_⟩
    · by_cases h0 : r.len = 0
      · exact .inl h0
      · have := (h (r.len - 1) (by omega)).1
        omega
    · obtain ⟨h1, h2⟩ := ha
      rw [Range.holds_iff] at h2
      have := (h (a - r.base) (by omega)).2 g hg
      rw [show r.base + (a - r.base) = a by omega, h1] at this
      cases this

@[simp] theorem firstError_nil : firstError [] = none := rfl
@[simp] theorem firstError_none_cons (cs : List (Option ErrCode)) : firstError (none :: cs) = firstError cs := rfl
@[simp] theorem firstError_some_cons (e : ErrCode) (cs : List (Option ErrCode)) : firstError (some e :: cs) = some e := rfl

theorem firstError_cons_eq_none (c : Option ErrCode) (cs : List (Option ErrCode)) :
    firstError (c :: cs) = none ↔ c = none ∧ firstError cs = none := by
  cases c <;> simp

theorem checkGeom_eq (s : State) : checkGeom s = if s.GeomLegal then none else some .badParam := by
  simp only [checkGeom, maxSide, maxChannels]
  by_cases h : s.GeomLegal
  · rw [if_pos h, if_pos (by obtain ⟨⟨_, _⟩, ⟨_, _⟩, _, _⟩ := h; omega)]
  · rw [if_neg h, if_neg fun hc => h ⟨⟨by omega, by omega⟩, ⟨by omega, by omega⟩, by omega, by omega⟩]

theorem checkGeom_none (s : State) : checkGeom s = none ↔ s.GeomLegal := by
  rw [checkGeom_eq]
  by_cases h : s.GeomLegal
  · rw [if_pos h]; exact ⟨fun _ => h, fun _ => rfl⟩
  · rw [if_neg h]; exact ⟨nofun, fun hc => (h hc).elim⟩

theorem checkStride_none (s : State) : checkStride s = none ↔ s.stride = 1 ∨ s.stride = 2 := by
  simp only [checkStride]; split_ifs with h <;> simp [h]

theorem checkChannel_none (s : State) (ch : Nat) : checkChannel s ch = none ↔ ch < s.chanCount := by
  simp only [checkChannel]; split_ifs with h <;> simp [h]

theorem checkDepth_none (s : State) : checkDepth s = none ↔ s.depth.toNat = 8 ∨ s.depth.toNat = 16 := by
  simp only [checkDepth]; split_ifs with h <;> simp [h]

theorem checkRange_none (r : Range) : checkRange r = none ↔ r.len = 0 ∨ r.base + r.len ≤ 2 ^ 32 := by
  simp only [checkRange]; split_ifs with h <;> simpa using h

theorem checkDisjoint_none (r q : Range) : checkDisjoint r q = none ↔ r.Apart q := by
  rw [← Range.apart_iff]; simp [checkDisjoint]

/-- The legal geometry bounds the plane length, so OUT_COUNT holds every count. -/
theorem State.GeomLegal.planeLen_lt {s : State} (h : s.GeomLegal) : 1 ≤ s.planeLen ∧ s.planeLen < 2 ^ 32 ∧
    1 ≤ s.chanCount ∧ s.chanCount ≤ 24 := by
  obtain ⟨⟨h1, h2⟩, ⟨h3, h4⟩, h5, h6⟩ := h
  have : s.width.toNat * s.height.toNat ≤ 30000 * 30000 := Nat.mul_le_mul h2 h4
  have : 1 * 1 ≤ s.width.toNat * s.height.toNat := Nat.mul_le_mul h1 h3
  simp only [State.planeLen, State.chanCount]
  omega

/-- Everything a command step can do (R116). -/
theorem runCommand_cases (cs : List (Option ErrCode)) (rs : List Range) (f : State → Exit) (s : State) :
    (∃ e, firstError cs = some e ∧ runCommand cs rs f s = .next (s.completeErr e)) ∨
    (firstError cs = none ∧ rs.all s.rangeExists = true ∧ runCommand cs rs f s = (f s).complete) ∨
    (firstError cs = none ∧ rs.all s.rangeExists = false ∧ runCommand cs rs f s = .refused .outsideRam) := by
  unfold runCommand
  cases h : firstError cs with
  | some e => exact .inl ⟨e, rfl, rfl⟩
  | none => cases hr : rs.all s.rangeExists <;> simp

theorem runCommand_ready {cs : List (Option ErrCode)} {rs : List Range} {f : State → Exit} {s : State}
    (hc : firstError cs = none) (hr : rs.all s.rangeExists = true) : runCommand cs rs f s = (f s).complete := by
  simp [runCommand, hc, hr]

theorem runCommand_error {cs : List (Option ErrCode)} {rs : List Range} {f : State → Exit} {s : State} {e : ErrCode}
    (hc : firstError cs = some e) : runCommand cs rs f s = .next (s.completeErr e) := by
  simp [runCommand, hc]

@[simp] theorem Exit.complete_ok (s : State) : (Exit.ok s).complete = .next s.completeDone := rfl
@[simp] theorem Exit.complete_raise (e : ErrCode) (s : State) : (Exit.raise e s).complete = .next (s.completeErr e) := rfl
@[simp] theorem Exit.resume_ok (s : State) : (Exit.ok s).resume = .next s := rfl
@[simp] theorem Exit.resume_raise (e : ErrCode) (s : State) : (Exit.raise e s).resume = .next (s.completeErr e) := rfl
@[simp] theorem Exit.andThen_ok (s : State) (f : State → Exit) : (Exit.ok s).andThen f = f s := rfl
@[simp] theorem Exit.andThen_raise (e : ErrCode) (s : State) (f : State → Exit) :
    (Exit.raise e s).andThen f = .raise e s := rfl

theorem Exit.andThen_eq_ok {x : Exit} {f : State → Exit} {t : State} :
    x.andThen f = .ok t ↔ ∃ s, x = .ok s ∧ f s = .ok t := by
  cases x <;> simp

theorem Exit.andThen_eq_raise {x : Exit} {f : State → Exit} {t : State} {e : ErrCode} :
    x.andThen f = .raise e t ↔ x = .raise e t ∨ ∃ s, x = .ok s ∧ f s = .raise e t := by
  cases x <;> simp

/-- A command's pseudocode ends in exactly one of two completions (R116). -/
theorem Exit.complete_cases (x : Exit) :
    (∃ s, x = .ok s ∧ x.complete = .next s.completeDone) ∨ (∃ e s, x = .raise e s ∧ x.complete = .next (s.completeErr e)) := by
  cases x with
  | ok s => exact .inl ⟨s, rfl, rfl⟩
  | raise e s => exact .inr ⟨e, s, rfl, rfl⟩

theorem ErrCode.code_bounds (e : ErrCode) : 1 ≤ e.code.toNat ∧ e.code.toNat ≤ 9 := by cases e <;> decide

@[simp] theorem forChannels_zero (body : Nat → State → Exit) (s : State) : forChannels 0 body s = .ok s := rfl
@[simp] theorem forChannels_succ (n : Nat) (body : Nat → State → Exit) (s : State) :
    forChannels (n + 1) body s = (forChannels n body s).andThen (body n) := rfl

end Sys2Proof.Machine
end

