-- ==== Sys2Proof/Laws/Setup.lean ====
section
/-! SUPPORT. Laws/Setup.lean: the part of the state that no instruction writes (R41, R50, R54), and everything that is computed from it
alone: two states with the same set-up have the same operands, addresses, ranges and static checks. -/

namespace Sys2Proof.Machine

/-- The state with every field an instruction may write cleared. -/
def State.setup (s : State) : State :=
  { s with done := false, err := false, ecode := 0, cmdPending := none, inChannel := false, comp := 0, cursor := 0,
           dataOut := 0, outCount := 0, curCh := 0, mem := [] }

variable {s t : State}

theorem State.eq_of_setup (h : t.setup = s.setup) :
    t = { s with done := t.done, err := t.err, ecode := t.ecode, cmdPending := t.cmdPending, inChannel := t.inChannel,
                 comp := t.comp, cursor := t.cursor, dataOut := t.dataOut, outCount := t.outCount, curCh := t.curCh,
                 mem := t.mem } := by
  cases s; cases t; simp_all [State.setup]

/-- What is computed from the set-up alone is the same in two states with the same set-up. -/
theorem State.setup_congr {α : Type} (f : State → α) (hf : ∀ s, f s.setup = f s) (h : t.setup = s.setup) : f t = f s := by
  rw [← hf t, h, hf s]

theorem State.setup_planeLen (h : t.setup = s.setup) : t.planeLen = s.planeLen := State.setup_congr State.planeLen (fun _ => rfl) h
theorem State.setup_chanCount (h : t.setup = s.setup) : t.chanCount = s.chanCount := State.setup_congr State.chanCount (fun _ => rfl) h
theorem State.setup_stride (h : t.setup = s.setup) : t.stride = s.stride := State.setup_congr State.stride (fun _ => rfl) h
theorem State.setup_bytesPerSample (h : t.setup = s.setup) : t.bytesPerSample = s.bytesPerSample :=
  State.setup_congr State.bytesPerSample (fun _ => rfl) h
theorem State.setup_tableLen (h : t.setup = s.setup) : t.tableLen = s.tableLen := State.setup_congr State.tableLen (fun _ => rfl) h
theorem State.setup_planeByte (h : t.setup = s.setup) : t.planeByte = s.planeByte := State.setup_congr State.planeByte (fun _ => rfl) h
theorem State.setup_dstByte (h : t.setup = s.setup) : t.dstByte = s.dstByte := State.setup_congr State.dstByte (fun _ => rfl) h
theorem State.setup_srcPos (h : t.setup = s.setup) : t.srcPos = s.srcPos := State.setup_congr State.srcPos (fun _ => rfl) h
theorem State.setup_muxPos (h : t.setup = s.setup) : t.muxPos = s.muxPos := State.setup_congr State.muxPos (fun _ => rfl) h
theorem State.setup_streamRange (h : t.setup = s.setup) : t.streamRange = s.streamRange := State.setup_congr State.streamRange (fun _ => rfl) h
theorem State.setup_planesRange (h : t.setup = s.setup) : t.planesRange = s.planesRange := State.setup_congr State.planesRange (fun _ => rfl) h
theorem State.setup_outputRange (h : t.setup = s.setup) : t.outputRange = s.outputRange := State.setup_congr State.outputRange (fun _ => rfl) h
theorem State.setup_byteExists (h : t.setup = s.setup) : t.byteExists = s.byteExists := State.setup_congr State.byteExists (fun _ => rfl) h
theorem State.setup_rangeExists (h : t.setup = s.setup) : t.rangeExists = s.rangeExists := State.setup_congr State.rangeExists (fun _ => rfl) h
theorem State.setup_srcLen (h : t.setup = s.setup) : t.srcLen = s.srcLen := State.setup_congr State.srcLen (fun _ => rfl) h
theorem State.setup_srcAddr (h : t.setup = s.setup) : t.srcAddr = s.srcAddr := State.setup_congr State.srcAddr (fun _ => rfl) h
theorem State.setup_xferLen (h : t.setup = s.setup) : t.xferLen = s.xferLen := State.setup_congr State.xferLen (fun _ => rfl) h
theorem State.setup_depth (h : t.setup = s.setup) : t.depth = s.depth := State.setup_congr State.depth (fun _ => rfl) h
theorem State.setup_schedule (h : t.setup = s.setup) : t.schedule = s.schedule := State.setup_congr State.schedule (fun _ => rfl) h
theorem State.setup_ramHoles (h : t.setup = s.setup) : t.ramHoles = s.ramHoles := State.setup_congr State.ramHoles (fun _ => rfl) h
theorem State.setup_regBase (h : t.setup = s.setup) : t.regBase = s.regBase := State.setup_congr State.regBase (fun _ => rfl) h

/-- The static checks of a command depend on the set-up alone. -/
theorem State.setup_staticChecks (h : t.setup = s.setup) (i : Instr) : staticChecks i t = staticChecks i s := by
  cases i <;> exact State.setup_congr (staticChecks _) (fun _ => rfl) h

/-- So do its ranges. -/
theorem State.setup_usedRanges (h : t.setup = s.setup) (i : Instr) : usedRanges i t = usedRanges i s := by
  cases i <;> exact State.setup_congr (usedRanges _) (fun _ => rfl) h

theorem State.setup_writtenRanges (h : t.setup = s.setup) (i : Instr) : writtenRanges i t = writtenRanges i s := by
  cases i <;> exact State.setup_congr (writtenRanges _) (fun _ => rfl) h

theorem State.setup_ready (h : t.setup = s.setup) (i : Instr) (hr : s.ready i) : t.ready i := by
  simpa only [State.ready, State.setup_staticChecks h, State.setup_usedRanges h, State.setup_rangeExists h] using hr

@[simp] theorem State.setup_completeErr (e : ErrCode) : (s.completeErr e).setup = s.setup := rfl
@[simp] theorem State.setup_completeDone : s.completeDone.setup = s.setup := rfl
@[simp] theorem State.setup_beginChannel (k : Nat) : (beginChannel k s).setup = s.setup := rfl
@[simp] theorem State.setup_beginCopy (k : Nat) : (beginCopy k s).setup = s.setup := rfl
@[simp] theorem State.setup_muxEffect : (muxEffect s).setup = s.setup := rfl

/-! What `ready` says for the commands that use the stream and the planes. -/

theorem rleChan_ready_iff (ch : BitVec 8) :
    s.ready (.rleChan ch) ↔ s.GeomLegal ∧ ch.toNat < s.chanCount ∧
      (s.streamRange.len = 0 ∨ s.streamRange.base + s.streamRange.len ≤ 2 ^ 32) ∧
      (s.planesRange.len = 0 ∨ s.planesRange.base + s.planesRange.len ≤ 2 ^ 32) ∧
      s.streamRange.Apart s.planesRange ∧ s.AllExist s.streamRange ∧ s.AllExist s.planesRange := by
  simp only [State.ready, staticChecks, rleChanChecks, usedRanges, rleChanRanges, firstError_cons_eq_none, firstError_nil,
    checkGeom_none, checkChannel_none, checkRange_none, checkDisjoint_none, List.all_cons, List.all_nil, Bool.and_eq_true,
    State.rangeExists_iff, and_true, and_assoc]

theorem rawChan_ready_iff (ch : BitVec 8) :
    s.ready (.rawChan ch) ↔ s.GeomLegal ∧ ch.toNat < s.chanCount ∧ (s.depth.toNat = 8 ∨ s.depth.toNat = 16) ∧
      (s.streamRange.len = 0 ∨ s.streamRange.base + s.streamRange.len ≤ 2 ^ 32) ∧
      (s.planesRange.len = 0 ∨ s.planesRange.base + s.planesRange.len ≤ 2 ^ 32) ∧
      s.streamRange.Apart s.planesRange ∧ s.AllExist s.streamRange ∧ s.AllExist s.planesRange := by
  simp only [State.ready, staticChecks, rawChanChecks, usedRanges, rawChanRanges, firstError_cons_eq_none, firstError_nil,
    checkGeom_none, checkChannel_none, checkDepth_none, checkRange_none, checkDisjoint_none, List.all_cons, List.all_nil,
    Bool.and_eq_true, State.rangeExists_iff, and_true, and_assoc]

theorem mux_ready_iff :
    s.ready .mux ↔ s.GeomLegal ∧ (s.stride = 1 ∨ s.stride = 2) ∧
      (s.planesRange.len = 0 ∨ s.planesRange.base + s.planesRange.len ≤ 2 ^ 32) ∧
      (s.outputRange.len = 0 ∨ s.outputRange.base + s.outputRange.len ≤ 2 ^ 32) ∧
      s.planesRange.Apart s.outputRange ∧ s.AllExist s.planesRange ∧ s.AllExist s.outputRange := by
  simp only [State.ready, staticChecks, muxChecks, usedRanges, muxRanges, firstError_cons_eq_none, firstError_nil,
    checkGeom_none, checkStride_none, checkRange_none, checkDisjoint_none, List.all_cons, List.all_nil,
    Bool.and_eq_true, State.rangeExists_iff, and_true, and_assoc]

theorem decodeImage_ready_iff :
    s.ready .decodeImage ↔ s.GeomLegal ∧ (s.stride = 1 ∨ s.stride = 2) ∧
      (s.streamRange.len = 0 ∨ s.streamRange.base + s.streamRange.len ≤ 2 ^ 32) ∧
      (s.planesRange.len = 0 ∨ s.planesRange.base + s.planesRange.len ≤ 2 ^ 32) ∧
      (s.outputRange.len = 0 ∨ s.outputRange.base + s.outputRange.len ≤ 2 ^ 32) ∧
      s.streamRange.Apart s.planesRange ∧ s.streamRange.Apart s.outputRange ∧ s.planesRange.Apart s.outputRange ∧
      s.AllExist s.streamRange ∧ s.AllExist s.planesRange ∧ s.AllExist s.outputRange := by
  simp only [State.ready, staticChecks, decodeImageChecks, usedRanges, decodeImageRanges, firstError_cons_eq_none,
    firstError_nil, checkGeom_none, checkStride_none, checkRange_none, checkDisjoint_none, List.all_cons, List.all_nil,
    Bool.and_eq_true, State.rangeExists_iff, and_true, and_assoc]

/-- DECODE_IMAGE's checks are RLE_CHAN's for each of its channels. -/
theorem rleChan_ready_of_decodeImage {ch : BitVec 8} (h : s.ready .decodeImage) (hk : ch.toNat < s.chanCount) :
    s.ready (.rleChan ch) := by
  obtain ⟨h1, _, h3, h4, _, h6, _, _, h9, h10, _⟩ := decodeImage_ready_iff.mp h
  exact (rleChan_ready_iff ch).mpr ⟨h1, hk, h3, h4, h6, h9, h10⟩

theorem mux_ready_of_decodeImage (h : s.ready .decodeImage) : s.ready .mux := by
  obtain ⟨h1, h2, _, h4, h5, _, _, h8, _, h10, h11⟩ := decodeImage_ready_iff.mp h
  exact mux_ready_iff.mpr ⟨h1, h2, h4, h5, h8, h10, h11⟩

end Sys2Proof.Machine
end

