-- ==== Sys2Proof/Laws/Packbits.lean ====
section
/-! SUPPORT. Laws/Packbits.lean: what an element and the loop of DecodePlane can do (R160 to R168), said once. -/

namespace Sys2Proof.Machine

variable {s t : State} {m : BitVec 7} {n : BitVec 7} {c : Byte} {e : ErrCode} {k fuel : Nat}

theorem litRun_pos (n : BitVec 7) : 1 ≤ litRun n := by simp [litRun]

theorem repRun_eq (m : BitVec 7) : repRun m = 129 - m.toNat := by
  revert m; decide

theorem repRun_pos (m : BitVec 7) : 1 ≤ repRun m := by
  have := m.isLt
  rw [repRun_eq]
  omega

/-- The three ends of LIT (R161). -/
theorem litEffect_cases (n : BitVec 7) (s : State) :
    (s.srcLen.toNat < s.cursor.toNat + 1 + litRun n ∧ litEffect n s = .raise .truncated s) ∨
    (s.cursor.toNat + 1 + litRun n ≤ s.srcLen.toNat ∧ s.planeLen < s.outCount.toNat + litRun n ∧
      litEffect n s = .raise .rleOverrun s) ∨
    (s.cursor.toNat + 1 + litRun n ≤ s.srcLen.toNat ∧ s.outCount.toNat + litRun n ≤ s.planeLen ∧
      litEffect n s = .ok { s with
        mem := s.mem.forEach (litRun n) fun j m => m.write (s.planeByte s.curCh.toNat (s.outCount.toNat + j))
          (m.read (s.srcPos (s.cursor.toNat + 1 + j)))
        outCount := BitVec.ofNat 32 (s.outCount.toNat + litRun n)
        cursor := BitVec.ofNat 32 (s.cursor.toNat + 1 + litRun n) }) := by
  simp only [litEffect]
  split_ifs with h1 h2
  · exact .inl ⟨h1, rfl⟩
  · exact .inr (.inl ⟨by omega, h2, rfl⟩)
  · exact .inr (.inr ⟨by omega, by omega, rfl⟩)

/-- The three ends of REP (R162). -/
theorem repEffect_cases (m : BitVec 7) (s : State) :
    (s.srcLen.toNat < s.cursor.toNat + 2 ∧ repEffect m s = .raise .truncated s) ∨
    (s.cursor.toNat + 2 ≤ s.srcLen.toNat ∧ s.planeLen < s.outCount.toNat + repRun m ∧
      repEffect m s = .raise .rleOverrun s) ∨
    (s.cursor.toNat + 2 ≤ s.srcLen.toNat ∧ s.outCount.toNat + repRun m ≤ s.planeLen ∧
      repEffect m s = .ok { s with
        mem := s.mem.forEach (repRun m) fun j mem => mem.write (s.planeByte s.curCh.toNat (s.outCount.toNat + j))
          (s.srcByte (s.cursor.toNat + 1))
        outCount := BitVec.ofNat 32 (s.outCount.toNat + repRun m)
        cursor := BitVec.ofNat 32 (s.cursor.toNat + 2) }) := by
  simp only [repEffect]
  split_ifs with h1 h2
  · exact .inl ⟨h1, rfl⟩
  · exact .inr (.inl ⟨by omega, h2, rfl⟩)
  · exact .inr (.inr ⟨by omega, by omega, rfl⟩)

/-- The bytes a control byte's element occupies in the stream (R121). -/
def elementBytes (c : Byte) : Nat := if c.toNat < 128 then c.toNat + 2 else if 128 < c.toNat then 2 else 1

/-- The bytes a control byte's element contributes (R121). -/
def elementRun (c : Byte) : Nat := if c.toNat < 128 then c.toNat + 1 else if 128 < c.toNat then 257 - c.toNat else 0

/-- The effect of the element a control byte selects. -/
def elementEffect (c : Byte) (s : State) : Exit :=
  selectElement c (fun n => litEffect n s) (fun m => repEffect m s) (nop80Effect s)

theorem low7_of_lt (h : c.toNat < 128) : litRun (c.extractLsb' 0 7) = c.toNat + 1 := by
  simp only [litRun, BitVec.extractLsb'_toNat, Nat.shiftRight_zero]
  omega

theorem low7_of_gt (h : 128 < c.toNat) : repRun (c.extractLsb' 0 7) = 257 - c.toNat := by
  have := c.isLt
  simp only [repRun_eq, BitVec.extractLsb'_toNat, Nat.shiftRight_zero]
  omega

/-- What a pass that does not raise has done (R160): the frame, the advances, the bytes. -/
structure ElementDone (s t : State) : Prop where
  frame : t = { s with mem := t.mem, outCount := t.outCount, cursor := t.cursor }
  cursor_lt : s.cursor.toNat < t.cursor.toNat
  cursor_le : t.cursor.toNat ≤ s.srcLen.toNat
  count_le : s.outCount.toNat ≤ t.outCount.toNat
  count_bound : t.outCount.toNat ≤ s.planeLen
  wf : s.mem.wf → t.mem.wf
  other : s.mem.wf → ∀ a, (∀ j, s.outCount.toNat ≤ j → j < t.outCount.toNat → a ≠ s.planeByte s.curCh.toNat j) →
    t.mem.read a = s.mem.read a
  entries : ∀ c ∈ t.mem, c ∈ s.mem ∨ ∃ j < s.planeLen, c.1 = s.planeByte s.curCh.toNat j

/-- The operands of a pass fit their registers (R9, R165). -/
structure ElementFits (s : State) : Prop where
  plane : s.planeLen < 2 ^ 32
  count : s.outCount.toNat ≤ s.planeLen
  cursor : s.cursor.toNat < s.srcLen.toNat

theorem toNat_ofNat_of_le {x y : Nat} (h : x ≤ y) (hy : y < 2 ^ 32) : (BitVec.ofNat 32 x).toNat = x := by
  simp only [BitVec.toNat_ofNat]; omega

/-- A run of `run` bytes written from the count on, by any rule for the bytes. -/
theorem elementDone_of_run (hs : ElementFits s) {run next : Nat} {f : Nat → Memory → Byte}
    (hrun : s.outCount.toNat + run ≤ s.planeLen) (hlo : s.cursor.toNat < next) (hhi : next ≤ s.srcLen.toNat) :
    ElementDone s { s with
      mem := s.mem.forEach run fun j m => m.write (s.planeByte s.curCh.toNat (s.outCount.toNat + j)) (f j m)
      outCount := BitVec.ofNat 32 (s.outCount.toNat + run)
      cursor := BitVec.ofNat 32 next } := by
  have hc : (BitVec.ofNat 32 next).toNat = next := toNat_ofNat_of_le hhi s.srcLen.isLt
  have ho : (BitVec.ofNat 32 (s.outCount.toNat + run)).toNat = s.outCount.toNat + run := toNat_ofNat_of_le hrun hs.plane
  refine ⟨rfl, by rw [hc]; exact hlo, by rw [hc]; exact hhi, by rw [ho]; omega, by rw [ho]; exact hrun, ?_, ?_, ?_⟩
  · exact fun h => Memory.forEach_wf h fun _ _ _ hq => Memory.write_wf hq
  · intro h a ha
    refine Memory.forEach_write_other h fun i hi => ha _ (by omega) ?_
    rw [ho]; omega
  · intro c hc
    rcases Memory.mem_forEach_write hc with h | ⟨i, hi, h⟩
    · exact .inl h
    · exact .inr ⟨_, by omega, h⟩

/-- Everything the element of a control byte can do (R161 to R165): it raises with nothing written, or it is done. -/
theorem elementEffect_cases (c : Byte) (hs : ElementFits s) :
    (s.srcLen.toNat < s.cursor.toNat + elementBytes c ∧ elementEffect c s = .raise .truncated s) ∨
    (s.cursor.toNat + elementBytes c ≤ s.srcLen.toNat ∧ s.planeLen < s.outCount.toNat + elementRun c ∧
      elementEffect c s = .raise .rleOverrun s) ∨
    (s.cursor.toNat + elementBytes c ≤ s.srcLen.toNat ∧ s.outCount.toNat + elementRun c ≤ s.planeLen ∧
      ∃ t, elementEffect c s = .ok t ∧ ElementDone s t ∧ t.cursor.toNat = s.cursor.toNat + elementBytes c ∧
        t.outCount.toNat = s.outCount.toNat + elementRun c) := by
  have hcur := hs.cursor
  have hlen := s.srcLen.isLt
  simp only [elementEffect, selectElement, elementBytes, elementRun]
  split_ifs with h1 h2
  · rcases litEffect_cases (c.extractLsb' 0 7) s with ⟨h, e⟩ | ⟨h, h', e⟩ | ⟨h, h', e⟩ <;> try simp only [low7_of_lt h1] at *
    · exact .inl ⟨by omega, e⟩
    · exact .inr (.inl ⟨by omega, h', e⟩)
    · refine .inr (.inr ⟨by omega, h', _, e, elementDone_of_run hs h' (by omega) h, ?_, ?_⟩)
      · exact (toNat_ofNat_of_le h hlen).trans (by omega)
      · exact toNat_ofNat_of_le h' hs.plane
  · rcases repEffect_cases (c.extractLsb' 0 7) s with ⟨h, e⟩ | ⟨h, h', e⟩ | ⟨h, h', e⟩ <;> try simp only [low7_of_gt h2] at *
    · exact .inl ⟨by omega, e⟩
    · exact .inr (.inl ⟨by omega, h', e⟩)
    · refine .inr (.inr ⟨by omega, h', _, e, elementDone_of_run (f := fun _ _ => _) hs h' (by omega) h, ?_, ?_⟩)
      · exact toNat_ofNat_of_le h hlen
      · exact toNat_ofNat_of_le h' hs.plane
  · have hc : (BitVec.ofNat 32 (s.cursor.toNat + 1)).toNat = s.cursor.toNat + 1 := toNat_ofNat_of_le hcur hlen
    refine .inr (.inr ⟨by omega, by simpa using hs.count, _, rfl, ?_, hc, by simp⟩)
    refine ⟨rfl, by rw [hc]; omega, by rw [hc]; omega, le_rfl, hs.count, id, fun _ _ _ => rfl, fun c hc => .inl hc⟩

/-- What an element leaves alone in any state, whether or not its operands fit (R160 to R165; log 20). -/
theorem elementEffect_frame (c : Byte) (hw : s.mem.wf) :
    elementEffect c s = .raise .truncated s ∨ elementEffect c s = .raise .rleOverrun s ∨
    ∃ t, elementEffect c s = .ok t ∧ t = { s with outCount := t.outCount, cursor := t.cursor, mem := t.mem } ∧
      (∀ a, (∀ j < elementRun c, a ≠ s.planeByte s.curCh.toNat (s.outCount.toNat + j)) → t.mem.read a = s.mem.read a) := by
  simp only [elementEffect, selectElement, elementRun]
  split_ifs with h1 h2
  · rcases litEffect_cases (c.extractLsb' 0 7) s with ⟨_, e⟩ | ⟨_, _, e⟩ | ⟨_, _, e⟩
    · exact .inl e
    · exact .inr (.inl e)
    · exact .inr (.inr ⟨_, e, rfl, fun a ha => Memory.forEach_write_other hw fun j hj => ha j (low7_of_lt h1 ▸ hj)⟩)
  · rcases repEffect_cases (c.extractLsb' 0 7) s with ⟨_, e⟩ | ⟨_, _, e⟩ | ⟨_, _, e⟩
    · exact .inl e
    · exact .inr (.inl e)
    · exact .inr (.inr ⟨_, e, rfl, fun a ha =>
        Memory.forEach_write_other (f := fun _ _ => _) hw fun j hj => ha j (low7_of_gt h2 ▸ hj)⟩)
  · exact .inr (.inr ⟨_, rfl, rfl, fun _ _ => rfl⟩)

theorem elementPass_eq (s : State) : elementPass s =
    if s.srcLen.toNat ≤ s.cursor.toNat then .raise .truncated s else elementEffect (s.srcByte s.cursor.toNat) s := rfl

theorem exec_decodeElement (c : Byte) (s : State) : exec (decodeElement c) s = runElement (elementEffect c) s := by
  have h : elementEffect c = selectElement c litEffect repEffect nop80Effect := by
    funext s
    simp only [elementEffect, selectElement]
    split_ifs <;> rfl
  rw [h]
  simp only [decodeElement, selectElement]
  split_ifs <;> rfl

/-- Everything an element can do as an instruction. -/
theorem runElement_cases (f : State → Exit) (s : State) :
    (firstError (rleChanChecks s.curCh.toNat s) ≠ none ∧ runElement f s = .fault .noChannel) ∨
    (firstError (rleChanChecks s.curCh.toNat s) = none ∧ (rleChanRanges s).all s.rangeExists = false ∧
      runElement f s = .refused .outsideRam) ∨
    (firstError (rleChanChecks s.curCh.toNat s) = none ∧ (rleChanRanges s).all s.rangeExists = true ∧
      runElement f s = (f s).resume) := by
  unfold runElement
  cases h : firstError (rleChanChecks s.curCh.toNat s) with
  | some e => exact .inl ⟨by simp, rfl⟩
  | none => cases hr : (rleChanRanges s).all s.rangeExists <;> simp

/-! ## DecodePlane -/

theorem ElementDone.setup (h : ElementDone s t) : t.setup = s.setup := by rw [h.frame]; rfl
theorem ElementDone.curCh (h : ElementDone s t) : t.curCh = s.curCh := by rw [h.frame]
theorem ElementDone.inChannel (h : ElementDone s t) : t.inChannel = s.inChannel := by rw [h.frame]
theorem ElementDone.cmdPending (h : ElementDone s t) : t.cmdPending = s.cmdPending := by rw [h.frame]

/-- What some passes of the loop have done: the same as one, without the strict advance. -/
structure PassesDone (s t : State) : Prop where
  frame : t = { s with mem := t.mem, outCount := t.outCount, cursor := t.cursor }
  cursor_ge : s.cursor.toNat ≤ t.cursor.toNat
  cursor_le : t.cursor = s.cursor ∨ t.cursor.toNat ≤ s.srcLen.toNat
  count_le : s.outCount.toNat ≤ t.outCount.toNat
  count_bound : t.outCount.toNat ≤ s.planeLen
  wf : s.mem.wf → t.mem.wf
  other : s.mem.wf → ∀ a, (∀ j, s.outCount.toNat ≤ j → j < t.outCount.toNat → a ≠ s.planeByte s.curCh.toNat j) →
    t.mem.read a = s.mem.read a
  entries : ∀ c ∈ t.mem, c ∈ s.mem ∨ ∃ j < s.planeLen, c.1 = s.planeByte s.curCh.toNat j

theorem PassesDone.refl (h : s.outCount.toNat ≤ s.planeLen) : PassesDone s s :=
  ⟨rfl, le_rfl, .inl rfl, le_rfl, h, id, fun _ _ _ => rfl, fun _ hc => .inl hc⟩

theorem PassesDone.setup (h : PassesDone s t) : t.setup = s.setup := by rw [h.frame]; rfl
theorem PassesDone.curCh (h : PassesDone s t) : t.curCh = s.curCh := by rw [h.frame]
theorem PassesDone.inChannel (h : PassesDone s t) : t.inChannel = s.inChannel := by rw [h.frame]

theorem ElementDone.then {u : State} (h : ElementDone s t) (g : PassesDone t u) : PassesDone s u := by
  have hp := State.setup_planeLen h.setup
  have hb := State.setup_planeByte h.setup
  have hl := State.setup_srcLen h.setup
  have hc := h.curCh
  refine ⟨?_, by have := h.cursor_lt; have := g.cursor_ge; omega, ?_, le_trans h.count_le g.count_le,
    by have := g.count_bound; omega, fun w => g.wf (h.wf w), ?_, ?_⟩
  · have h1 := h.frame
    have h2 := g.frame
    rw [h1] at h2
    exact h2
  · have := h.cursor_le
    rcases g.cursor_le with e | e
    · right; rw [e]; exact this
    · right; rw [← hl]; exact e
  · intro w a ha
    rw [g.other (h.wf w) a ?_, h.other w a ?_]
    · intro j h1 h2; exact ha j h1 (by have := g.count_le; omega)
    · intro j h1 h2
      rw [hb, hc]
      exact ha j (by have := h.count_le; omega) h2
  · intro c hc'
    rcases g.entries c hc' with hm | ⟨j, hj, e⟩
    · exact h.entries c hm
    · exact .inr ⟨j, by omega, by rw [e, hb, hc]⟩

/-- Where a channel's decode stands when it fails (R251 (c)): at an element that is cut off or overruns, nothing of it written. -/
def StopsAt (e : ErrCode) (u : State) : Prop :=
  u.outCount.toNat < u.planeLen ∧ u.elementFails u.cursor.toNat u.outCount.toNat e.code

/-- One pass of the loop, with the channel not full (R167, R168). -/
theorem elementPass_cases (hp : s.planeLen < 2 ^ 32) (hc : s.outCount.toNat < s.planeLen) :
    (∃ e, elementPass s = .raise e s ∧ StopsAt e s) ∨
    (s.cursor.toNat + elementBytes (s.srcByte s.cursor.toNat) ≤ s.srcLen.toNat ∧
      s.outCount.toNat + elementRun (s.srcByte s.cursor.toNat) ≤ s.planeLen ∧ ∃ t, elementPass s = .ok t ∧ ElementDone s t ∧
      t.cursor.toNat = s.cursor.toNat + elementBytes (s.srcByte s.cursor.toNat) ∧
      t.outCount.toNat = s.outCount.toNat + elementRun (s.srcByte s.cursor.toNat)) := by
  rw [elementPass_eq]
  split_ifs with h
  · exact .inl ⟨_, rfl, hc, .inl ⟨rfl, .inl h⟩⟩
  · have hf : ElementFits s := ⟨hp, by omega, by omega⟩
    rcases elementEffect_cases (s.srcByte s.cursor.toNat) hf with ⟨h1, e⟩ | ⟨h0, h1, e⟩ | ⟨h0, h1, t, e, hd, hq⟩
    · refine .inl ⟨_, e, hc, .inl ⟨rfl, .inr ?_⟩⟩
      simp only [elementBytes] at h1
      split_ifs at h1 <;> omega
    · refine .inl ⟨_, e, hc, .inr ⟨rfl, ?_⟩⟩
      simp only [elementBytes, elementRun] at h0 h1
      split_ifs at h0 h1 <;> omega
    · exact .inr ⟨h0, h1, t, e, hd, hq⟩

/-- A pass at an element that fails raises its error with nothing written (R164, R165). -/
theorem elementPass_raise {code : BitVec 4} (hp : s.planeLen < 2 ^ 32) (hc : s.outCount.toNat < s.planeLen)
    (h : s.elementFails s.cursor.toNat s.outCount.toNat code) : ∃ e : ErrCode, e.code = code ∧ elementPass s = .raise e s := by
  rcases elementPass_cases hp hc with ⟨e, he, -, hs⟩ | ⟨h0, h1, -⟩
  · refine ⟨e, ?_, he⟩
    simp only [State.elementFails] at h hs
    rcases h with ⟨h, h'⟩ | ⟨h, h'⟩ <;> rcases hs with ⟨g, g'⟩ | ⟨g, g'⟩ <;> first | exact g.trans h.symm | (exfalso; omega)
  · exfalso
    simp only [State.elementFails] at h
    simp only [elementBytes, elementRun] at h0 h1
    split_ifs at h0 h1 <;> omega

/-- Everything the loop of DecodePlane can do with enough fuel (R167, R168): it stops at an element, or it fills the channel. -/
theorem elementLoop_cases (hp : s.planeLen < 2 ^ 32) (hc : s.outCount.toNat ≤ s.planeLen)
    (hf : s.srcLen.toNat - s.cursor.toNat < fuel) :
    (∃ e u, elementLoop fuel s = .raise e u ∧ PassesDone s u ∧ StopsAt e u) ∨
    (∃ u, elementLoop fuel s = .ok { u with inChannel := false } ∧ PassesDone s u ∧ u.outCount.toNat = s.planeLen) := by
  induction fuel generalizing s with
  | zero => omega
  | succ fuel ih =>
    rw [elementLoop]
    split_ifs with h
    · rcases elementPass_cases hp h with ⟨e, he, hst⟩ | ⟨_, _, t, ht, hd, _⟩
      · exact .inl ⟨e, s, by rw [he]; rfl, PassesDone.refl hc, hst⟩
      · rw [ht, Exit.andThen_ok]
        have hpl := State.setup_planeLen hd.setup
        have hsl := State.setup_srcLen hd.setup
        have h1 := hd.cursor_lt
        have h2 := hd.cursor_le
        have h3 := hd.count_bound
        rcases ih (s := t) (by omega) (by omega) (by rw [hsl]; omega) with ⟨e, u, hu, hpd, hst⟩ | ⟨u, hu, hpd, hn⟩
        · exact .inl ⟨e, u, hu, hd.then hpd, hst⟩
        · exact .inr ⟨u, hu, hd.then hpd, by omega⟩
    · exact .inr ⟨s, rfl, PassesDone.refl hc, by omega⟩

/-- Everything DecodePlane can do (R167, R251 (c)). -/
theorem decodePlane_cases (k : Nat) (hp : s.planeLen < 2 ^ 32) :
    (∃ e u, decodePlane k s = .raise e u ∧ PassesDone (beginChannel k s) u ∧ StopsAt e u) ∨
    (∃ u, decodePlane k s = .ok { u with inChannel := false } ∧ PassesDone (beginChannel k s) u ∧
      u.outCount.toNat = s.planeLen) := by
  have hb : (beginChannel k s).planeLen = s.planeLen := rfl
  have := elementLoop_cases (s := beginChannel k s) (fuel := passBound s) (by rw [hb]; exact hp) (by simp)
    (by simp [passBound])
  simpa only [decodePlane, hb] using this

end Sys2Proof.Machine
end

