-- ==== Sys2Proof/Laws/Planar.lean ====
section
/-! SUPPORT. Laws/Planar.lean: what CopyPlane and Mux do to memory (R191, R197, R198), said once. -/

namespace Sys2Proof.Machine

variable {m : Memory} {s : State} {y n c : Nat}

/-! ## Two nested loops that copy -/

theorem Memory.forEach2_wf {d r : Nat → Nat → Nat} (h : m.wf) :
    (m.forEach n fun p q => q.forEach c fun k q => q.write (d k p) (q.read (r k p))).wf :=
  Memory.forEach_wf h fun _ _ _ hq => Memory.forEach_wf hq fun _ _ _ hq => Memory.write_wf hq

theorem Memory.forEach2_other {d r : Nat → Nat → Nat} (h : m.wf) (hy : ∀ k < c, ∀ p < n, y ≠ d k p) :
    (m.forEach n fun p q => q.forEach c fun k q => q.write (d k p) (q.read (r k p))).read y = m.read y := by
  induction n with
  | zero => rfl
  | succ n ih =>
    rw [Memory.forEach_succ,
      Memory.forEach_write_other (Memory.forEach2_wf h) fun k hk => hy k hk n (by omega),
      ih fun k hk p hp => hy k hk p (by omega)]

theorem Memory.forEach2_copy {d r : Nat → Nat → Nat} (h : m.wf)
    (hd : ∀ k < c, ∀ p < n, ∀ k' < c, ∀ p' < n, d k p = d k' p' → k = k' ∧ p = p')
    (hr : ∀ k < c, ∀ p < n, ∀ k' < c, ∀ p' < n, r k p ≠ d k' p') {k p : Nat} (hk : k < c) (hp : p < n) :
    (m.forEach n fun p q => q.forEach c fun k q => q.write (d k p) (q.read (r k p))).read (d k p) = m.read (r k p) := by
  induction n with
  | zero => omega
  | succ n ih =>
    have hw : (m.forEach n fun p q => q.forEach c fun k q => q.write (d k p) (q.read (r k p))).wf := Memory.forEach2_wf h
    rw [Memory.forEach_succ]
    by_cases e : p = n
    · subst e
      rw [Memory.forEach_copy (d := fun k => d k p) hw
        (fun i hi j hj e => (hd i hi p (by omega) j hj p (by omega) e).1)
        (fun i hi j hj => hr i hi p (by omega) j hj p (by omega)) hk]
      exact Memory.forEach2_other h fun k' hk' p' hp' => hr k hk p (by omega) k' hk' p' (by omega)
    · rw [Memory.forEach_write_other (d := fun k => d k n) hw
        fun i hi e' => e (hd k hk p hp i hi n (by omega) e').2]
      exact ih (fun k hk p hp k' hk' p' hp' => hd k hk p (by omega) k' hk' p' (by omega))
        (fun k hk p hp k' hk' p' hp' => hr k hk p (by omega) k' hk' p' (by omega)) (by omega)

theorem Memory.mem_forEach2 {d r : Nat → Nat → Nat} {x : Host.Cell}
    (h : x ∈ m.forEach n fun p q => q.forEach c fun k q => q.write (d k p) (q.read (r k p))) :
    x ∈ m ∨ ∃ k < c, ∃ p < n, x.1 = d k p := by
  induction n with
  | zero => exact .inl h
  | succ n ih =>
    rcases Memory.mem_forEach_write h with h | ⟨k, hk, e⟩
    · rcases ih h with h | ⟨k, hk, p, hp, e⟩
      · exact .inl h
      · exact .inr ⟨k, hk, p, by omega, e⟩
    · exact .inr ⟨k, hk, n, by omega, e⟩

/-! ## Addresses -/

/-- The plane bytes of distinct places differ (R13). -/
theorem State.planeByte_inj {k p k' p' : Nat} (hp : p < s.planeLen) (hp' : p' < s.planeLen)
    (e : s.planeByte k p = s.planeByte k' p') : k = k' ∧ p = p' := by
  simp only [State.planeByte] at e
  rcases lt_trichotomy k k' with h | h | h
  · have := Nat.mul_le_mul_right s.planeLen (Nat.succ_le_of_lt h)
    rw [Nat.succ_mul] at this; omega
  · subst h; exact ⟨rfl, by omega⟩
  · have := Nat.mul_le_mul_right s.planeLen (Nat.succ_le_of_lt h)
    rw [Nat.succ_mul] at this; omega

/-- A plane byte lies in the planes' range (R86). -/
theorem State.planeByte_mem {k p : Nat} (hk : k < s.chanCount) (hp : p < s.planeLen) :
    s.planesRange.base ≤ s.planeByte k p ∧ s.planeByte k p < s.planesRange.base + s.planesRange.len := by
  have := Nat.mul_le_mul_right s.planeLen (Nat.succ_le_of_lt hk)
  rw [Nat.succ_mul] at this
  simp only [State.planeByte, State.planesRange]
  omega

/-- An output position is `S * (k + p*C)` (R198). -/
theorem State.muxPos_eq (k p : Nat) : s.muxPos k p = s.stride * (k + p * s.chanCount) := by
  simp only [State.muxPos]; ring

theorem State.muxIndex_lt {k p : Nat} (hk : k < s.chanCount) (hp : p < s.planeLen) :
    k + p * s.chanCount < s.planeLen * s.chanCount := by
  have := Nat.mul_le_mul_right s.chanCount (Nat.succ_le_of_lt hp)
  rw [Nat.succ_mul] at this; omega

/-- An output byte lies in the output's range (R196). -/
theorem State.muxPos_mem {k p : Nat} (hS : 0 < s.stride) (hk : k < s.chanCount) (hp : p < s.planeLen) :
    s.outputRange.base ≤ s.dstByte (s.muxPos k p) ∧
      s.dstByte (s.muxPos k p) < s.outputRange.base + s.outputRange.len := by
  have h := Nat.mul_lt_mul_of_pos_left (State.muxIndex_lt hk hp) hS
  rw [State.muxPos_eq]
  simp only [State.dstByte, State.outputRange]
  rw [Nat.mul_comm s.stride (s.planeLen * s.chanCount)] at h
  omega

/-- The output positions are distinct (R198). -/
theorem State.muxPos_inj {k p k' p' : Nat} (hS : 0 < s.stride) (hk : k < s.chanCount) (hk' : k' < s.chanCount)
    (e : s.muxPos k p = s.muxPos k' p') : k = k' ∧ p = p' := by
  rw [State.muxPos_eq, State.muxPos_eq] at e
  have e := Nat.eq_of_mul_eq_mul_left hS e
  have hp : p = p' := by
    have h1 : (k + p * s.chanCount) / s.chanCount = p := by
      rw [Nat.add_mul_div_right _ _ (by omega), Nat.div_eq_of_lt hk, Nat.zero_add]
    have h2 : (k' + p' * s.chanCount) / s.chanCount = p' := by
      rw [Nat.add_mul_div_right _ _ (by omega), Nat.div_eq_of_lt hk', Nat.zero_add]
    rw [← h1, e, h2]
  subst hp
  exact ⟨by omega, rfl⟩

/-! ## Mux -/

theorem muxEffect_wf (h : s.mem.wf) : (muxEffect s).mem.wf := Memory.forEach2_wf h

theorem muxEffect_other {a : Nat} (h : s.mem.wf) (ha : ¬s.inMuxOutput a) : (muxEffect s).mem.read a = s.mem.read a :=
  Memory.forEach2_other h fun k hk p hp e => ha ⟨k, hk, p, hp, e⟩

/-- Mux puts every plane byte at its place, the planes and the output being apart (R197). -/
theorem muxEffect_at {k p : Nat} (h : s.mem.wf) (hS : 0 < s.stride) (hap : s.planesRange.Apart s.outputRange)
    (hk : k < s.chanCount) (hp : p < s.planeLen) :
    (muxEffect s).mem.read (s.dstByte (s.muxPos k p)) = s.mem.read (s.planeByte k p) := by
  refine Memory.forEach2_copy (d := fun k p => s.dstByte (s.muxPos k p)) h ?_ ?_ hk hp
  · intro k hk p hp k' hk' p' hp' e
    exact State.muxPos_inj hS hk hk' (by simpa [State.dstByte] using e)
  · intro k hk p hp k' hk' p' hp' e
    have h1 := State.planeByte_mem hk hp
    have h2 := State.muxPos_mem hS hk' hp'
    simp only [Range.Apart] at hap
    omega

theorem mem_muxEffect {x : Host.Cell} (h : x ∈ (muxEffect s).mem) :
    x ∈ s.mem ∨ ∃ k < s.chanCount, ∃ p < s.planeLen, x.1 = s.dstByte (s.muxPos k p) := Memory.mem_forEach2 h

/-- No plane byte is an output byte. -/
theorem State.plane_not_output {k p : Nat} (hS : 0 < s.stride) (hap : s.planesRange.Apart s.outputRange)
    (hk : k < s.chanCount) (hp : p < s.planeLen) : ¬s.inMuxOutput (s.planeByte k p) := by
  rintro ⟨k', hk', p', hp', e⟩
  have h1 := State.planeByte_mem hk hp
  have h2 := State.muxPos_mem hS hk' hp'
  simp only [Range.Apart] at hap
  omega

/-! ## CopyPlane -/

/-- The two ends of CopyPlane (R191, R192). -/
theorem copyPlane_cases (k : Nat) (s : State) :
    (s.srcLen.toNat < s.cursor.toNat + s.planeLen * s.bytesPerSample ∧
      copyPlane k s = .raise .truncated (beginCopy k s)) ∨
    (s.cursor.toNat + s.planeLen * s.bytesPerSample ≤ s.srcLen.toNat ∧
      copyPlane k s = .ok { beginCopy k s with
        mem := s.mem.forEach s.planeLen fun p m => m.write (s.planeByte k p)
          (m.read (s.srcPos (s.cursor.toNat + p * s.bytesPerSample)))
        cursor := BitVec.ofNat 32 (s.cursor.toNat + s.planeLen * s.bytesPerSample)
        outCount := BitVec.ofNat 32 s.planeLen }) := by
  by_cases h : s.srcLen.toNat < s.cursor.toNat + s.planeLen * s.bytesPerSample
  · exact .inl ⟨h, if_pos h⟩
  · exact .inr ⟨by omega, if_neg h⟩

/-- What a copied plane has done (R191). -/
structure PlaneCopied (k : Nat) (s t : State) : Prop where
  frame : t = { s with curCh := BitVec.ofNat 5 k, outCount := BitVec.ofNat 32 s.planeLen,
                       cursor := BitVec.ofNat 32 (s.cursor.toNat + s.planeLen * s.bytesPerSample), mem := t.mem }
  fits : s.cursor.toNat + s.planeLen * s.bytesPerSample ≤ s.srcLen.toNat
  wf : s.mem.wf → t.mem.wf
  other : s.mem.wf → ∀ a, ¬s.inPlane k a → t.mem.read a = s.mem.read a
  entries : ∀ c ∈ t.mem, c ∈ s.mem ∨ ∃ p < s.planeLen, c.1 = s.planeByte k p

theorem copyPlane_done (k : Nat) (s : State) :
    (s.srcLen.toNat < s.cursor.toNat + s.planeLen * s.bytesPerSample ∧
      copyPlane k s = .raise .truncated (beginCopy k s)) ∨
    (∃ t, copyPlane k s = .ok t ∧ PlaneCopied k s t ∧
      (s.mem.wf → (∀ p < s.planeLen, ∀ p' < s.planeLen,
          s.srcPos (s.cursor.toNat + p * s.bytesPerSample) ≠ s.planeByte k p') →
        ∀ p < s.planeLen, t.mem.read (s.planeByte k p) = s.srcByte (s.cursor.toNat + p * s.bytesPerSample))) := by
  rcases copyPlane_cases k s with h | ⟨h, e⟩
  · exact .inl h
  · refine .inr ⟨_, e, ⟨rfl, h, ?_, ?_, ?_⟩, ?_⟩
    · exact fun w => Memory.forEach_wf w fun _ _ _ hq => Memory.write_wf hq
    · exact fun w a ha => Memory.forEach_write_other w fun p hp e => ha ⟨p, hp, e⟩
    · exact fun c hc => Memory.mem_forEach_write hc
    · intro w hr p hp
      exact Memory.forEach_copy (d := fun p => s.planeByte k p) w
        (fun i hi j hj e => (State.planeByte_inj hi hj e).2) hr hp

theorem PlaneCopied.setup {k : Nat} {t : State} (h : PlaneCopied k s t) : t.setup = s.setup := by rw [h.frame]; rfl

end Sys2Proof.Machine
end

