-- ==== Sys2Proof/Laws/Exec.lean ====
section
/-! SUPPORT. Laws/Exec.lean: what `exec` and the sequencer's step can do, said once for all commands (R116, R95). -/

namespace Sys2Proof.Machine

/-- The effect of a command after its checks. -/
def commandEffect (i : Instr) (s : State) : Exit :=
  match i with
  | .decodeImage => decodeImageEffect s
  | .skipCounts => skipTable s
  | .rleChan ch => decodePlane ch.toNat s
  | .rawChan ch => copyPlane ch.toNat s
  | .mux => .ok (muxEffect s)
  | .swap16 => .ok { s with dataOut := (bswap16 (s.dataIn.extractLsb' 0 16)).setWidth 32 }
  | .swap32 => .ok { s with dataOut := bswap32 s.dataIn }
  | .swapbuf16 => swapbuf16Effect s
  | .swapbuf32 => swapbuf32Effect s
  | .ldbe16 => loadBE 2 s
  | .ldbe32 => loadBE 4 s
  | .nop | .lit _ | .nop80 | .rep _ => .ok s

variable {i : Instr} {s t : State} {e : ErrCode} {w : Word}

/-- Every command is its static checks, its ranges and its effect, in the frame of R116. -/
theorem exec_eq_runCommand (h : isCommand i = true) (s : State) :
    exec i s = runCommand (staticChecks i s) (usedRanges i s) (commandEffect i) s := by
  cases i <;> first | rfl | cases h

theorem exec_error (h : isCommand i = true) (he : firstError (staticChecks i s) = some e) :
    exec i s = .next (s.completeErr e) := by rw [exec_eq_runCommand h]; exact runCommand_error he

theorem exec_ready (h : isCommand i = true) (hr : s.ready i) : exec i s = (commandEffect i s).complete := by
  rw [exec_eq_runCommand h]; exact runCommand_ready hr.1 hr.2

/-- Everything a command's step can do. -/
theorem exec_cases (h : isCommand i = true) (s : State) :
    (∃ e, firstError (staticChecks i s) = some e ∧ exec i s = .next (s.completeErr e)) ∨
    (s.ready i ∧ exec i s = (commandEffect i s).complete) ∨
    (firstError (staticChecks i s) = none ∧ (usedRanges i s).all s.rangeExists = false ∧
      exec i s = .refused .outsideRam) := by
  rw [exec_eq_runCommand h]
  rcases runCommand_cases (staticChecks i s) (usedRanges i s) (commandEffect i) s with h | ⟨h1, h2, h⟩ | h
  · exact .inl h
  · exact .inr (.inl ⟨⟨h1, h2⟩, h⟩)
  · exact .inr (.inr h)

/-- What holds of the accepted command. -/
theorem acceptedCommand_eq_some (h : s.acceptedCommand = some i) : ∃ w, s.cmdPending = some w ∧ decodeCommand w = .ok i := by
  simp only [State.acceptedCommand, Option.bind_eq_some_iff] at h
  obtain ⟨w, h1, h2⟩ := h
  refine ⟨w, h1, ?_⟩
  cases hd : decodeCommand w <;> simp_all [Except.toOption]

theorem acceptedCommand_of_decode (h1 : s.cmdPending = some w) (h2 : decodeCommand w = .ok i) : s.acceptedCommand = some i := by
  simp [State.acceptedCommand, h1, h2, Except.toOption]

/-- A command word decodes to commands only (R112). -/
theorem isCommand_of_decode (h : decodeCommand w = .ok i) : isCommand i = true := by
  unfold decodeCommand at h
  split at h
  · cases h
  · split at h
    all_goals try simp only [withoutChannel] at h
    all_goals try split at h
    all_goals first | (cases h; done) | (cases h; rfl)

/-- The step between two elements of an open channel whose checks hold (R167). -/
theorem channelStep_ready (hd : decodesChannels i = true) (hr : s.ready i) (hk : s.curCh.toNat < s.chanCount) :
    channelStep i s =
      if s.outCount.toNat < s.planeLen then
        if s.srcLen.toNat ≤ s.cursor.toNat then .next (s.completeErr .truncated)
        else exec (decodeElement (s.srcByte s.cursor.toNat)) s
      else .next (closeChannel i s) := by
  have h : decodesChannels i = true ∧ firstError (staticChecks i s) = none ∧ s.curCh.toNat < s.chanCount := ⟨hd, hr.1, hk⟩
  unfold channelStep
  rw [if_pos h, if_pos hr.2]

/-- A run whose first step is known. -/
theorem run_of_next {n : Nat} (h : step s = .next t) :
    Host.Core.run Sys2Proof.core (n + 1) s = Host.Core.run Sys2Proof.core n t := by
  have hc : Sys2Proof.core.step s = .next t := h
  simp only [Host.Core.run, hc]

end Sys2Proof.Machine
end

