-- ==== Sys2Proof/Laws/Stream.lean ====
section
/-! SUPPORT. Laws/Stream.lean: decoding a stream that is written as directives (R127, R128): each directive is a list of PackBits
elements, each element is one pass of DecodePlane's loop. -/

namespace Sys2Proof.Machine

variable {s t : State} {d : Directive} {ds : List Directive}

/-! ## Bytes of the stream -/

@[simp] theorem State.bytesAt_length (s : State) (a n : Nat) : (s.bytesAt a n).length = n := by simp [State.bytesAt]

theorem State.bytesAt_eq_iff {a : Nat} {bs : List Byte} :
    s.bytesAt a bs.length = bs ↔ ∀ j (h : j < bs.length), s.mem.read (a + j) = bs[j] := by
  constructor
  · intro e j h
    have := congrArg (fun l => l[j]?) e
    simpa [State.bytesAt, List.getElem?_map, List.getElem?_range h, h] using this
  · intro h
    refine List.ext_getElem (by simp) fun j h1 h2 => ?_
    simpa [State.bytesAt] using h j h2

theorem State.streamHolds_iff {i : Nat} {bs : List Byte} :
    s.streamHolds i bs ↔ i + bs.length ≤ s.srcLen.toNat ∧ ∀ j (h : j < bs.length), s.srcByte (i + j) = bs[j] := by
  simp only [State.streamHolds, State.bytesAt_eq_iff, State.srcByte, State.srcPos, Nat.add_assoc]

theorem State.streamHolds_append {i : Nat} {xs ys : List Byte} :
    s.streamHolds i (xs ++ ys) ↔ s.streamHolds i xs ∧ s.streamHolds (i + xs.length) ys := by
  simp only [State.streamHolds_iff, List.length_append]
  constructor
  · rintro ⟨h1, h2⟩
    refine ⟨⟨by omega, fun j hj => ?_⟩, by omega, fun j hj => ?_⟩
    · rw [h2 j (by omega), List.getElem_append_left hj]
    · have := h2 (xs.length + j) (by omega)
      rw [List.getElem_append_right (by omega)] at this
      simpa [Nat.add_assoc] using this
  · rintro ⟨⟨_, h2⟩, h3, h4⟩
    refine ⟨by omega, fun j hj => ?_⟩
    by_cases hx : j < xs.length
    · rw [List.getElem_append_left hx]; exact h2 j hx
    · have := h4 (j - xs.length) (by omega)
      rw [List.getElem_append_right (by omega), ← this]
      congr 1; omega

/-- The stream is the same in two states with the same set-up whose memories agree on it. -/
theorem State.streamHolds_congr (hs : t.setup = s.setup) {i : Nat} {bs : List Byte}
    (hm : ∀ j < s.srcLen.toNat, t.srcByte j = s.srcByte j) (h : s.streamHolds i bs) : t.streamHolds i bs := by
  rw [State.streamHolds_iff] at h ⊢
  refine ⟨by rw [State.setup_srcLen hs]; exact h.1, fun j hj => ?_⟩
  rw [hm (i + j) (by have := h.1; omega)]
  exact h.2 j hj

/-! ## Passes of the loop that decode bytes -/

theorem State.planeByte_ne {k p p' : Nat} (h : p ≠ p') : s.planeByte k p ≠ s.planeByte k p' := by
  simp only [State.planeByte]; omega

/-- Some passes of the loop have consumed the stream bytes `xs` and written the plane bytes `ys`. -/
structure Decoded (s t : State) (xs ys : List Byte) : Prop where
  passes : ∃ n ≤ xs.length, ∀ fuel, elementLoop (n + fuel) s = elementLoop fuel t
  done : PassesDone s t
  cursor : t.cursor.toNat = s.cursor.toNat + xs.length
  count : t.outCount.toNat = s.outCount.toNat + ys.length
  bytes : s.mem.wf → ∀ j (h : j < ys.length), t.mem.read (s.planeByte s.curCh.toNat (s.outCount.toNat + j)) = ys[j]

theorem Decoded.refl (h : s.outCount.toNat ≤ s.planeLen) : Decoded s s [] [] :=
  ⟨⟨0, le_rfl, fun fuel => by rw [Nat.zero_add]⟩, PassesDone.refl h, by simp, by simp, by simp⟩

theorem PassesDone.then {u : State} (h : PassesDone s t) (g : PassesDone t u) : PassesDone s u := by
  have hp := State.setup_planeLen h.setup
  have hb := State.setup_planeByte h.setup
  have hl := State.setup_srcLen h.setup
  have hc := h.curCh
  have h0 := h.count_le
  have g0 := g.count_le
  refine ⟨?_, le_trans h.cursor_ge g.cursor_ge, ?_, le_trans h0 g0, by have := g.count_bound; omega, fun w => g.wf (h.wf w), ?_, ?_⟩
  · have h1 := h.frame
    have h2 := g.frame
    rw [h1] at h2
    exact h2
  · rcases g.cursor_le with e | e
    · rcases h.cursor_le with e' | e'
      · exact .inl (e.trans e')
      · right; rw [e]; exact e'
    · right; rw [← hl]; exact e
  · intro w a ha
    rw [g.other (h.wf w) a fun j h1 h2 => by rw [hb, hc]; exact ha j (by omega) h2,
      h.other w a fun j h1 h2 => ha j h1 (by omega)]
  · intro c hc'
    rcases g.entries c hc' with hm | ⟨j, hj, e⟩
    · exact h.entries c hm
    · exact .inr ⟨j, by omega, by rw [e, hb, hc]⟩

theorem Decoded.then {u : State} {xs xs' ys ys' : List Byte} (h : Decoded s t xs ys) (g : Decoded t u xs' ys') :
    Decoded s u (xs ++ xs') (ys ++ ys') := by
  obtain ⟨n, hn, hp⟩ := h.passes
  obtain ⟨n', hn', hp'⟩ := g.passes
  have hb := State.setup_planeByte h.done.setup
  have hc := h.done.curCh
  have hcnt := h.count
  refine ⟨⟨n + n', by simp; omega, fun fuel => by rw [Nat.add_assoc, hp, hp']⟩, h.done.then g.done, ?_, ?_, fun w j hj => ?_⟩
  · have := h.cursor; have := g.cursor; simp; omega
  · have := g.count; simp; omega
  · by_cases hjl : j < ys.length
    · rw [List.getElem_append_left hjl, ← h.bytes w j hjl]
      refine g.done.other (h.done.wf w) _ fun j' h1 _ => ?_
      rw [hb, hc]
      exact State.planeByte_ne (by omega)
    · have hj' : j - ys.length < ys'.length := by simp at hj; omega
      have := g.bytes (h.done.wf w) (j - ys.length) hj'
      rw [hb, hc, hcnt, show s.outCount.toNat + ys.length + (j - ys.length) = s.outCount.toNat + j by omega] at this
      rw [this, List.getElem_append_right (by omega)]

/-- One pass, as a decode of its element. -/
theorem Decoded.of_pass {xs ys : List Byte} (hc : s.outCount.toNat < s.planeLen) (hx : 1 ≤ xs.length)
    (h : elementPass s = .ok t) (hd : ElementDone s t)
    (h1 : t.cursor.toNat = s.cursor.toNat + xs.length) (h2 : t.outCount.toNat = s.outCount.toNat + ys.length)
    (h3 : s.mem.wf → ∀ j (h : j < ys.length), t.mem.read (s.planeByte s.curCh.toNat (s.outCount.toNat + j)) = ys[j]) :
    Decoded s t xs ys := by
  refine ⟨⟨1, hx, fun fuel => ?_⟩, hd.then (PassesDone.refl ?_), h1, h2, h3⟩
  · rw [Nat.add_comm, elementLoop, if_pos hc, h, Exit.andThen_ok]
  · rw [State.setup_planeLen hd.setup]; exact hd.count_bound

/-- The stream and the planes are apart, so a decode does not change the stream. -/
theorem srcByte_of_passes (hk : s.curCh.toNat < s.chanCount) (hap : s.streamRange.Apart s.planesRange) (hw : s.mem.wf)
    (h : PassesDone s t) {j : Nat} (hj : j < s.srcLen.toNat) : t.srcByte j = s.srcByte j := by
  simp only [State.srcByte, State.setup_srcPos h.setup]
  refine h.other hw _ fun p _ hp => ?_
  have := State.planeByte_mem hk (lt_of_lt_of_le hp h.count_bound)
  simp only [Range.Apart, State.streamRange, State.planesRange, State.srcPos] at *
  omega

/-- What a decode of a channel needs of the state (R160, R166). -/
structure ChannelReady (s : State) : Prop where
  plane : s.planeLen < 2 ^ 32
  chan : s.curCh.toNat < s.chanCount
  apart : s.streamRange.Apart s.planesRange
  wf : s.mem.wf

theorem ChannelReady.of_passes (h : ChannelReady s) (g : PassesDone s t) : ChannelReady t := by
  refine ⟨?_, ?_, ?_, g.wf h.wf⟩
  · rw [State.setup_planeLen g.setup]; exact h.plane
  · rw [State.setup_chanCount g.setup, g.curCh]; exact h.chan
  · rw [State.setup_streamRange g.setup, State.setup_planesRange g.setup]; exact h.apart

theorem ChannelReady.src_ne_plane (h : ChannelReady s) {j p : Nat} (hj : j < s.srcLen.toNat) (hp : p < s.planeLen) :
    s.srcPos j ≠ s.planeByte s.curCh.toNat p := by
  have := State.planeByte_mem h.chan hp
  have := h.apart
  simp only [Range.Apart, State.streamRange, State.planesRange, State.srcPos] at *
  omega

/-- A literal run in the stream is decoded (R161, R127). -/
theorem decode_lit (h : ChannelReady s) {bs : List Byte} (h1 : 1 ≤ bs.length) (h2 : bs.length ≤ 128)
    (hst : s.streamHolds s.cursor.toNat (emitLit bs)) (hn : s.outCount.toNat + bs.length ≤ s.planeLen) :
    ∃ t, Decoded s t (emitLit bs) bs := by
  obtain ⟨hl, hb⟩ := State.streamHolds_iff.mp hst
  simp only [emitLit, List.length_cons] at hl
  have hc : s.srcByte s.cursor.toNat = BitVec.ofNat 8 (bs.length - 1) := hb 0 (by simp [emitLit])
  have hcn : (BitVec.ofNat 8 (bs.length - 1)).toNat = bs.length - 1 := by simp; omega
  have hlt : (BitVec.ofNat 8 (bs.length - 1)).toNat < 128 := by omega
  have hrun := low7_of_lt hlt
  rw [hcn] at hrun
  have hf : ElementFits s := ⟨h.plane, by omega, by omega⟩
  have hpass : elementPass s = litEffect ((BitVec.ofNat 8 (bs.length - 1)).extractLsb' 0 7) s := by
    rw [elementPass_eq, if_neg (by omega), hc, elementEffect, selectElement, if_pos hlt]
  rcases litEffect_cases ((BitVec.ofNat 8 (bs.length - 1)).extractLsb' 0 7) s with ⟨g, _⟩ | ⟨_, g, _⟩ | ⟨g1, g2, e⟩
  · omega
  · omega
  · refine ⟨_, Decoded.of_pass (by omega) (by simp [emitLit]) (hpass.trans e) (elementDone_of_run hf g2 (by omega) g1) ?_ ?_ ?_⟩
    · rw [toNat_ofNat_of_le g1 s.srcLen.isLt]; simp [emitLit]; omega
    · rw [toNat_ofNat_of_le g2 h.plane]; omega
    · intro w j hj
      rw [Memory.forEach_copy (d := fun j => s.planeByte s.curCh.toNat (s.outCount.toNat + j))
        (r := fun j => s.srcPos (s.cursor.toNat + 1 + j)) w ?_ ?_ (show j < litRun _ by omega)]
      · have := hb (j + 1) (by simp [emitLit]; omega)
        simpa [emitLit, State.srcByte, Nat.add_assoc, Nat.add_comm 1] using this
      · intro i _ j _ e; by_contra hne; exact State.planeByte_ne (by omega) e
      · intro i hi j hj; exact h.src_ne_plane (by omega) (by omega)

/-- A replicate run in the stream is decoded (R162, R127). -/
theorem decode_rep (h : ChannelReady s) {n : Nat} {b : Byte} (h1 : 2 ≤ n) (h2 : n ≤ 128)
    (hst : s.streamHolds s.cursor.toNat (emitRep n b)) (hn : s.outCount.toNat + n ≤ s.planeLen) :
    ∃ t, Decoded s t (emitRep n b) (List.replicate n b) := by
  obtain ⟨hl, hb⟩ := State.streamHolds_iff.mp hst
  simp only [emitRep, List.length_cons, List.length_nil] at hl
  have hc : s.srcByte s.cursor.toNat = BitVec.ofNat 8 (257 - n) := hb 0 (by simp [emitRep])
  have hv : s.srcByte (s.cursor.toNat + 1) = b := hb 1 (by simp [emitRep])
  have hcn : (BitVec.ofNat 8 (257 - n)).toNat = 257 - n := by simp; omega
  have hgt : 128 < (BitVec.ofNat 8 (257 - n)).toNat := by omega
  have hrun := low7_of_gt hgt
  rw [hcn] at hrun
  have hf : ElementFits s := ⟨h.plane, by omega, by omega⟩
  have hpass : elementPass s = repEffect ((BitVec.ofNat 8 (257 - n)).extractLsb' 0 7) s := by
    rw [elementPass_eq, if_neg (by omega), hc, elementEffect, selectElement, if_neg (by omega), if_pos hgt]
  rcases repEffect_cases ((BitVec.ofNat 8 (257 - n)).extractLsb' 0 7) s with ⟨g, _⟩ | ⟨_, g, _⟩ | ⟨g1, g2, e⟩
  · omega
  · omega
  · refine ⟨_, Decoded.of_pass (by omega) (by simp [emitRep]) (hpass.trans e)
      (elementDone_of_run (f := fun _ _ => _) hf g2 (by omega) g1) ?_ ?_ ?_⟩
    · rw [toNat_ofNat_of_le g1 s.srcLen.isLt]; simp [emitRep]
    · rw [toNat_ofNat_of_le g2 h.plane]; simp; omega
    · intro w j hj
      simp only [List.length_replicate] at hj
      rw [Memory.forEach_fill (d := fun j => s.planeByte s.curCh.toNat (s.outCount.toNat + j)) w (show j < repRun _ by omega), hv]
      simp

/-- A no-op element in the stream is decoded (R163, R127). -/
theorem decode_nop80 (h : ChannelReady s) (hst : s.streamHolds s.cursor.toNat [0x80]) (hn : s.outCount.toNat < s.planeLen) :
    ∃ t, Decoded s t [0x80] [] := by
  obtain ⟨hl, hb⟩ := State.streamHolds_iff.mp hst
  simp only [List.length_cons, List.length_nil] at hl
  have hc : s.srcByte s.cursor.toNat = 0x80 := hb 0 (by simp)
  have hf : ElementFits s := ⟨h.plane, by omega, by omega⟩
  have hpass : elementPass s = nop80Effect s := by
    rw [elementPass_eq, if_neg (by omega), hc]; rfl
  have hcur : (BitVec.ofNat 32 (s.cursor.toNat + 1)).toNat = s.cursor.toNat + 1 := toNat_ofNat_of_le (by omega) s.srcLen.isLt
  refine ⟨_, Decoded.of_pass hn (by simp) hpass ⟨rfl, ?_, ?_, le_rfl, hf.count, id, fun _ _ _ => rfl, fun c hc => .inl hc⟩ hcur rfl (by simp)⟩
  · rw [hcur]; omega
  · rw [hcur]; omega

/-! ## Directives -/

/-- Decoding one piece after another, the first not empty so that the channel is not full before the second. -/
theorem decode_then (h : ChannelReady s) {xs xs' ys ys' : List Byte} (hst : s.streamHolds s.cursor.toNat (xs ++ xs'))
    (h1 : s.streamHolds s.cursor.toNat xs → ∃ t, Decoded s t xs ys)
    (h2 : ∀ t, Decoded s t xs ys → ChannelReady t → t.streamHolds t.cursor.toNat xs' → ∃ u, Decoded t u xs' ys') :
    ∃ u, Decoded s u (xs ++ xs') (ys ++ ys') := by
  obtain ⟨ha, hb⟩ := State.streamHolds_append.mp hst
  obtain ⟨t, ht⟩ := h1 ha
  have hb' : t.streamHolds t.cursor.toNat xs' := by
    rw [ht.cursor]
    exact State.streamHolds_congr ht.done.setup (fun j hj => srcByte_of_passes h.chan h.apart h.wf ht.done hj) hb
  obtain ⟨u, hu⟩ := h2 t ht (h.of_passes ht.done) hb'
  exact ⟨u, ht.then hu⟩

theorem decode_fill_runs (n : Nat) (b : Byte) : ∀ {s : State}, ChannelReady s →
    s.streamHolds s.cursor.toNat (List.replicate n (emitRep 128 b)).flatten → s.outCount.toNat + 128 * n ≤ s.planeLen →
    ∃ t, Decoded s t (List.replicate n (emitRep 128 b)).flatten (List.replicate (128 * n) b) := by
  induction n with
  | zero => intro s _ _ hn; exact ⟨s, by simpa using Decoded.refl (by omega)⟩
  | succ n ih =>
    intro s h hst hn
    rw [List.replicate_succ, List.flatten_cons] at hst ⊢
    rw [show List.replicate (128 * (n + 1)) b = List.replicate 128 b ++ List.replicate (128 * n) b by
      rw [List.replicate_append_replicate]; congr 1; omega]
    refine decode_then h hst (fun ha => decode_rep h (by omega) (by omega) ha (by omega)) fun t ht hr hb => ih hr hb ?_
    rw [ht.count, State.setup_planeLen ht.done.setup, List.length_replicate]; omega

theorem decode_fill (h : ChannelReady s) {n : Nat} {b : Byte} (hst : s.streamHolds s.cursor.toNat (emitFill n b))
    (hn : s.outCount.toNat + n ≤ s.planeLen) : ∃ t, Decoded s t (emitFill n b) (List.replicate n b) := by
  have hr : List.replicate n b = List.replicate (128 * (n / 128)) b ++ List.replicate (n % 128) b := by
    rw [List.replicate_append_replicate]; congr 1; omega
  rw [emitFill] at hst ⊢
  rw [hr]
  refine decode_then h hst (fun ha => decode_fill_runs _ b h ha (by omega)) fun t ht hready hb => ?_
  have hc : t.outCount.toNat + n % 128 ≤ t.planeLen := by
    rw [ht.count, State.setup_planeLen ht.done.setup, List.length_replicate]; omega
  split_ifs at hb ⊢ with h0 h1
  · exact ⟨t, by rw [h0]; exact Decoded.refl (by omega)⟩
  · obtain ⟨u, hu⟩ := decode_lit hready (bs := [b]) (by simp) (by simp) hb (by simpa [h1] using hc)
    exact ⟨u, by rw [h1]; exact hu⟩
  · exact decode_rep hready (by omega) (by omega) hb hc

theorem decode_literal (fuel : Nat) : ∀ {s : State} {bs : List Byte}, ChannelReady s → 1 ≤ bs.length → bs.length ≤ fuel →
    s.streamHolds s.cursor.toNat (emitLiteral fuel bs) → s.outCount.toNat + bs.length ≤ s.planeLen →
    ∃ t, Decoded s t (emitLiteral fuel bs) bs := by
  induction fuel with
  | zero => intro s bs _ h1 h2; omega
  | succ fuel ih =>
    intro s bs h h1 h2 hst hn
    rw [emitLiteral] at hst ⊢
    split_ifs at hst ⊢ with hl
    · exact decode_lit h h1 hl hst hn
    · have ht : (bs.take 128).length = 128 := by simp; omega
      have hd : (bs.drop 128).length = bs.length - 128 := by simp
      have := decode_then h (ys := bs.take 128) (ys' := bs.drop 128) hst
        (fun ha => decode_lit h (by omega) (by omega) ha (by omega)) fun t ht' hr hb => ih hr (by omega) (by omega) hb ?_
      · rwa [List.take_append_drop] at this
      · rw [ht'.count, State.setup_planeLen ht'.done.setup, ht]; omega

/-- A legal directive of elements in the stream is decoded (R127, R128). -/
theorem decode_directive (h : ChannelReady s) {ys : List Byte} (hl : d.legal = true) (hp : d.plane = some ys)
    (hst : s.streamHolds s.cursor.toNat d.emit) (hlt : s.outCount.toNat < s.planeLen)
    (hn : s.outCount.toNat + ys.length ≤ s.planeLen) : ∃ t, Decoded s t d.emit ys := by
  cases d <;> simp only [Directive.plane, Option.some.injEq, reduceCtorEq] at hp <;> subst hp <;>
    simp only [Directive.legal, decide_eq_true_eq, Directive.emit] at *
  · exact decode_lit h hl.1 hl.2 hst hn
  · exact decode_rep h hl.1 hl.2 hst (by simpa using hn)
  · exact decode_nop80 h hst hlt
  · exact decode_fill h hst (by simpa using hn)
  · exact decode_literal _ h hl le_rfl hst hn

/-- A list of legal directives that fills the rest of the channel is decoded. -/
theorem decode_directives : ∀ (ds : List Directive) {s : State}, ChannelReady s →
    (∀ d ∈ ds, d.legal = true ∧ d.plane.isSome = true) → s.streamHolds s.cursor.toNat (streamOf ds) →
    s.outCount.toNat + (planeOf ds).length ≤ s.planeLen →
    (ds ≠ [] → s.outCount.toNat + (planeOf ds.dropLast).length < s.planeLen) →
    ∃ t, Decoded s t (streamOf ds) (planeOf ds)
  | [], s, _, _, _, hn, _ => ⟨s, Decoded.refl (by omega)⟩
  | d :: ds, s, h, hd, hst, hn, hlt => by
    obtain ⟨hl, hs⟩ := hd d (by simp)
    obtain ⟨ys, hys⟩ := Option.isSome_iff_exists.mp hs
    have h1 : streamOf (d :: ds) = d.emit ++ streamOf ds := by simp [streamOf]
    have h2 : planeOf (d :: ds) = ys ++ planeOf ds := by simp [planeOf, hys]
    rw [h1] at hst ⊢
    rw [h2] at hn ⊢
    rw [List.length_append] at hn
    have hlt' := hlt (by simp)
    refine decode_then h hst (fun ha => decode_directive h hl hys ha (by omega) (by omega)) fun t ht hr hb => ?_
    have hc := ht.count
    have hp := State.setup_planeLen ht.done.setup
    refine decode_directives ds hr (fun d hd' => hd d (by simp [hd'])) hb (by omega) fun hne => ?_
    obtain ⟨e, es, rfl⟩ := List.exists_cons_of_ne_nil hne
    have h3 : planeOf (d :: e :: es).dropLast = ys ++ planeOf (e :: es).dropLast := by simp [planeOf, hys]
    rw [h3, List.length_append] at hlt'
    omega

/-- The channel is decoded whole: DecodePlane succeeds with the directives' bytes in the plane (R167). -/
theorem decodePlane_directives {k : Nat} (h : ChannelReady (beginChannel k s))
    (hf : fillsChannel s.planeLen ds) (hst : s.streamHolds s.cursor.toNat (streamOf ds)) :
    ∃ u, decodePlane k s = .ok { u with inChannel := false } ∧ Decoded (beginChannel k s) u (streamOf ds) (planeOf ds) := by
  obtain ⟨hd, hlen, hlt⟩ := hf
  have hbp : (beginChannel k s).planeLen = s.planeLen := rfl
  obtain ⟨u, hu⟩ := decode_directives ds h hd hst (by simp [hlen, hbp]) fun _ => by simpa [hbp] using hlt
  obtain ⟨n, hn, hp⟩ := hu.passes
  refine ⟨u, ?_, hu⟩
  have hb : n + (passBound s - n - 1) + 1 = passBound s := by
    have := hst.1
    simp only [passBound]; omega
  have hc := hu.count
  rw [hlen] at hc
  have hpl := State.setup_planeLen hu.done.setup
  rw [decodePlane, ← hb, Nat.add_assoc, hp, elementLoop, if_neg]
  rw [hc, hpl, hbp]
  simp

/-! ## Channels that fail -/

/-- What an element needs of the stream is the same in two states with the same set-up that agree on the stream. -/
theorem State.elementFails_congr (hs : t.setup = s.setup) {i count : Nat} {e : BitVec 4}
    (hm : ∀ j < s.srcLen.toNat, t.srcByte j = s.srcByte j) (h : s.elementFails i count e) : t.elementFails i count e := by
  simp only [State.elementFails, State.setup_srcLen hs, State.setup_planeLen hs] at h ⊢
  by_cases hi : i < s.srcLen.toNat
  · rw [hm i hi]; exact h
  · rcases h with h | ⟨_, h⟩
    · exact .inl ⟨h.1, .inl (by omega)⟩
    · omega

/-- A failing channel: DecodePlane decodes the elements before the failing one and raises its error with nothing of it written
(R167, R251 (c)). -/
theorem decodePlane_fails {k : Nat} {code : BitVec 4} (h : ChannelReady (beginChannel k s))
    (hf : s.failsAfter s.cursor.toNat ds code) :
    ∃ (e : ErrCode) (u : State), e.code = code ∧ decodePlane k s = .raise e u ∧
      Decoded (beginChannel k s) u (streamOf ds) (planeOf ds) := by
  obtain ⟨hd, hlen, hst, hel⟩ := hf
  have hpl : (beginChannel k s).planeLen = s.planeLen := rfl
  have hdec : ∃ u, Decoded (beginChannel k s) u (streamOf ds) (planeOf ds) := by
    rcases hst with rfl | hst
    · exact ⟨_, Decoded.refl (by simp)⟩
    · refine decode_directives ds h hd hst (by simp [hpl]; omega) fun hne => ?_
      have : (planeOf ds.dropLast).length ≤ (planeOf ds).length := by
        conv_rhs => rw [← List.dropLast_append_getLast hne]
        simp [planeOf]
      simp [hpl]; omega
  obtain ⟨u, hu⟩ := hdec
  obtain ⟨n, hn, hp⟩ := hu.passes
  have hc : u.outCount.toNat = (planeOf ds).length := by simpa using hu.count
  have hcur : u.cursor.toNat = s.cursor.toNat + (streamOf ds).length := hu.cursor
  have hup := State.setup_planeLen hu.done.setup
  have hel' : u.elementFails u.cursor.toNat u.outCount.toNat code := by
    rw [hc, hcur]
    exact State.elementFails_congr (s := beginChannel k s) hu.done.setup
      (fun j hj => srcByte_of_passes h.chan h.apart h.wf hu.done hj) hel
  obtain ⟨e, he, hpass⟩ := elementPass_raise (by rw [hup]; exact h.plane) (by omega) hel'
  refine ⟨e, u, he, ?_, hu⟩
  have hb : n + (passBound s - n - 1 + 1) = passBound s := by
    have : n ≤ s.srcLen.toNat - s.cursor.toNat := by
      rcases hst with rfl | hst
      · simp [streamOf] at hn; omega
      · have := hst.1; omega
    simp only [passBound]; omega
  rw [decodePlane, ← hb, hp, elementLoop, if_pos (by omega), hpass]
  rfl

/-- A pass that does not raise has decoded one directive of the stream. -/
theorem pass_directive (hl : s.cursor.toNat + elementBytes (s.srcByte s.cursor.toNat) ≤ s.srcLen.toNat) :
    ∃ d : Directive, d.legal = true ∧ d.plane.isSome = true ∧ s.streamHolds s.cursor.toNat (streamOf [d]) ∧
      (streamOf [d]).length = elementBytes (s.srcByte s.cursor.toNat) ∧
      (planeOf [d]).length = elementRun (s.srcByte s.cursor.toNat) := by
  have hc := (s.srcByte s.cursor.toNat).isLt
  simp only [State.streamHolds_iff, elementBytes, elementRun] at hl ⊢
  split_ifs at hl ⊢ with h1 h2
  · refine ⟨.lit (s.bytesAt (s.srcPos (s.cursor.toNat + 1)) ((s.srcByte s.cursor.toNat).toNat + 1)), ?_, rfl, ⟨?_, ?_⟩, ?_, ?_⟩
    · simp [Directive.legal]; omega
    · simp [streamOf, Directive.emit, emitLit]; omega
    · intro j hj
      cases j with
      | zero => simp [streamOf, Directive.emit, emitLit]
      | succ j => simp [streamOf, Directive.emit, emitLit, State.bytesAt, State.srcByte, State.srcPos]; congr 1; omega
    · simp [streamOf, Directive.emit, emitLit]
    · simp [planeOf, Directive.plane]
  · refine ⟨.rep (257 - (s.srcByte s.cursor.toNat).toNat) (s.srcByte (s.cursor.toNat + 1)), ?_, rfl, ⟨?_, ?_⟩, ?_, ?_⟩
    · simp [Directive.legal]; omega
    · simp [streamOf, Directive.emit, emitRep]; omega
    · intro j hj
      rcases j with _ | _ | j
      · have : 257 - (257 - (s.srcByte s.cursor.toNat).toNat) = (s.srcByte s.cursor.toNat).toNat := by omega
        simp [streamOf, Directive.emit, emitRep, this]
      · simp [streamOf, Directive.emit, emitRep]
      · simp [streamOf, Directive.emit, emitRep] at hj
    · simp [streamOf, Directive.emit, emitRep]
    · simp [planeOf, Directive.plane]
  · refine ⟨.nop80, rfl, rfl, ⟨?_, ?_⟩, ?_, ?_⟩
    · simp [streamOf, Directive.emit]; omega
    · intro j hj
      have : j = 0 := by simp [streamOf, Directive.emit] at hj; omega
      subst this
      simp only [streamOf, Directive.emit, List.flatMap_cons, List.flatMap_nil, List.append_nil, Nat.add_zero, List.getElem_cons_zero]
      apply BitVec.eq_of_toNat_eq
      show _ = 128
      omega
    · simp [streamOf, Directive.emit]
    · simp [planeOf, Directive.plane]

theorem streamOf_cons (d : Directive) (ds : List Directive) : streamOf (d :: ds) = streamOf [d] ++ streamOf ds := by simp [streamOf]
theorem planeOf_cons (d : Directive) (ds : List Directive) : planeOf (d :: ds) = planeOf [d] ++ planeOf ds := by simp [planeOf]

/-- Every failure of the loop stands just past elements that directives name (R251 (c)). -/
theorem elementLoop_raise {fuel : Nat} {e : ErrCode} {u : State} (h : ChannelReady s) (hr : elementLoop fuel s = .raise e u) :
    ∃ ds : List Directive, namesElements ds ∧ s.outCount.toNat + (planeOf ds).length < s.planeLen ∧
      (ds = [] ∨ s.streamHolds s.cursor.toNat (streamOf ds)) ∧
      s.elementFails (s.cursor.toNat + (streamOf ds).length) (s.outCount.toNat + (planeOf ds).length) e.code := by
  induction fuel generalizing s with
  | zero => cases hr
  | succ fuel ih =>
    rw [elementLoop] at hr
    split_ifs at hr with hc
    rcases elementPass_cases h.plane hc with ⟨e', he, hs⟩ | ⟨hl, hn, t, ht, hd, h1, h2⟩
    · rw [he] at hr; cases hr
      exact ⟨[], nofun, by simpa [planeOf] using hc, .inl rfl, by simpa [planeOf, streamOf] using hs.2⟩
    · rw [ht, Exit.andThen_ok] at hr
      have hdone := hd.then (PassesDone.refl (by rw [State.setup_planeLen hd.setup]; exact hd.count_bound))
      have hsrc : ∀ j < t.srcLen.toNat, s.srcByte j = t.srcByte j := fun j hj =>
        (srcByte_of_passes h.chan h.apart h.wf hdone (by rwa [State.setup_srcLen hd.setup] at hj)).symm
      obtain ⟨ds, h3, h4, h5, h6⟩ := ih (h.of_passes hdone) hr
      obtain ⟨d, g1, g2, g3, g4, g5⟩ := pass_directive hl
      refine ⟨d :: ds, by simp [namesElements, g1, g2]; exact h3, ?_, .inr ?_, ?_⟩
      · rw [planeOf_cons, List.length_append, g5, ← Nat.add_assoc, ← h2, ← State.setup_planeLen hd.setup]; exact h4
      · rw [streamOf_cons, State.streamHolds_append, g4, ← h1]
        refine ⟨g3, ?_⟩
        rcases h5 with rfl | h5
        · simp only [State.streamHolds_iff, streamOf, List.flatMap_nil, List.length_nil]
          exact ⟨hd.cursor_le, by simp⟩
        · exact State.streamHolds_congr hd.setup.symm hsrc h5
      · rw [planeOf_cons, streamOf_cons, List.length_append, List.length_append, g4, g5, ← Nat.add_assoc, ← Nat.add_assoc, ← h1, ← h2]
        exact State.elementFails_congr hd.setup.symm hsrc h6

/-- Every failure of DecodePlane stands just past elements that directives name (R251 (c)). -/
theorem decodePlane_raise {k : Nat} {e : ErrCode} {u : State} (h : ChannelReady (beginChannel k s))
    (hr : decodePlane k s = .raise e u) : ∃ ds : List Directive, s.failsAfter s.cursor.toNat ds e.code := by
  obtain ⟨ds, h1, h2, h3, h4⟩ := elementLoop_raise h hr
  have h0 : (beginChannel k s).outCount.toNat = 0 := rfl
  rw [h0, Nat.zero_add] at h2 h4
  exact ⟨ds, h1, h2, h3, h4⟩

end Sys2Proof.Machine
end

