-- ==== Sys2Proof/Laws/Swapper.lean ====
section
/-! SUPPORT. Laws/Swapper.lean: what the in-place swaps and the big-endian loads do (R210 to R217), said once. -/

namespace Sys2Proof.Machine

variable {m : Memory} {s : State} {n b w : Nat}

/-- A unit operation of `w` bytes that permutes the bytes of its unit by `σ` and touches nothing else. -/
structure PermutesUnit (w : Nat) (σ : Nat → Nat) (f : Memory → Nat → Memory) : Prop where
  wf : ∀ m a, Memory.wf m → (f m a).wf
  inside : ∀ m a, Memory.wf m → ∀ j < w, (f m a).read (a + j) = m.read (a + σ j)
  other : ∀ m a, Memory.wf m → ∀ x, x < a ∨ a + w ≤ x → (f m a).read x = m.read x
  bound : ∀ j < w, σ j < w

variable {σ : Nat → Nat} {f : Memory → Nat → Memory}

theorem PermutesUnit.loop_wf (h : PermutesUnit w σ f) (hm : m.wf) : (m.forEach n fun u q => f q (b + w * u)).wf :=
  Memory.forEach_wf hm fun _ _ _ hq => h.wf _ _ hq

theorem PermutesUnit.loop_other (h : PermutesUnit w σ f) (hm : m.wf) {x : Nat} (hx : x < b ∨ b + w * n ≤ x) :
    (m.forEach n fun u q => f q (b + w * u)).read x = m.read x := by
  induction n with
  | zero => rfl
  | succ n ih =>
    rw [Nat.mul_succ] at hx
    rw [Memory.forEach_succ, h.other _ _ (h.loop_wf hm) _ (by omega)]
    exact ih (by omega)

theorem PermutesUnit.loop_inside (h : PermutesUnit w σ f) (hm : m.wf) {u j : Nat} (hu : u < n) (hj : j < w) :
    (m.forEach n fun u q => f q (b + w * u)).read (b + w * u + j) = m.read (b + w * u + σ j) := by
  induction n with
  | zero => omega
  | succ n ih =>
    rw [Memory.forEach_succ]
    by_cases e : u = n
    · subst e
      rw [h.inside _ _ (h.loop_wf hm) _ hj]
      have := h.bound j hj
      exact h.loop_other hm (by omega)
    · have hle := Nat.mul_le_mul_left w (show u + 1 ≤ n by omega)
      rw [Nat.mul_succ] at hle
      rw [h.other _ _ (h.loop_wf hm) _ (by omega)]
      exact ih (by omega)

theorem swapUnit16_permutes : PermutesUnit 2 (fun j => 1 - j) swapUnit16 := by
  refine ⟨fun m a hm => Memory.write_wf (Memory.write_wf hm), fun m a hm j hj => ?_, fun m a hm x hx => ?_, by omega⟩
  · simp only [swapUnit16]
    rw [Memory.read_write (Memory.write_wf hm), Memory.read_write hm]
    obtain rfl | rfl : j = 0 ∨ j = 1 := by omega
    all_goals simp
  · simp only [swapUnit16]
    rw [Memory.read_write_other (Memory.write_wf hm) (by omega), Memory.read_write_other hm (by omega)]

theorem swapUnit32_permutes : PermutesUnit 4 (fun j => 3 - j) swapUnit32 := by
  refine ⟨fun m a hm => ?_, fun m a hm j hj => ?_, fun m a hm x hx => ?_, by omega⟩
  · exact Memory.write_wf (Memory.write_wf (Memory.write_wf (Memory.write_wf hm)))
  · simp only [swapUnit32]
    rw [Memory.read_write (Memory.write_wf (Memory.write_wf (Memory.write_wf hm))),
      Memory.read_write (Memory.write_wf (Memory.write_wf hm)), Memory.read_write (Memory.write_wf hm),
      Memory.read_write hm]
    obtain rfl | rfl | rfl | rfl : j = 0 ∨ j = 1 ∨ j = 2 ∨ j = 3 := by omega
    all_goals simp
  · simp only [swapUnit32]
    rw [Memory.read_write_other (Memory.write_wf (Memory.write_wf (Memory.write_wf hm))) (by omega),
      Memory.read_write_other (Memory.write_wf (Memory.write_wf hm)) (by omega),
      Memory.read_write_other (Memory.write_wf hm) (by omega), Memory.read_write_other hm (by omega)]

/-- Entries of memory after a loop of unit operations. -/
theorem mem_swapUnit16 {c : Host.Cell} {a : Nat} (h : c ∈ swapUnit16 m a) : c ∈ m ∨ ∃ j < 2, c.1 = a + j := by
  rcases Memory.mem_write h with e | h
  · exact .inr ⟨1, by omega, e⟩
  · rcases Memory.mem_write h with e | h
    · exact .inr ⟨0, by omega, e⟩
    · exact .inl h

theorem mem_swapUnit32 {c : Host.Cell} {a : Nat} (h : c ∈ swapUnit32 m a) : c ∈ m ∨ ∃ j < 4, c.1 = a + j := by
  rcases Memory.mem_write h with e | h
  · exact .inr ⟨3, by omega, e⟩
  · rcases Memory.mem_write h with e | h
    · exact .inr ⟨2, by omega, e⟩
    · rcases Memory.mem_write h with e | h
      · exact .inr ⟨1, by omega, e⟩
      · rcases Memory.mem_write h with e | h
        · exact .inr ⟨0, by omega, e⟩
        · exact .inl h

theorem mem_unitLoop {c : Host.Cell} (hf : ∀ m a, c ∈ f m a → c ∈ m ∨ ∃ j < w, c.1 = a + j)
    (h : c ∈ m.forEach n fun u q => f q (b + w * u)) : c ∈ m ∨ ∃ x < w * n, c.1 = b + x := by
  induction n with
  | zero => exact .inl h
  | succ n ih =>
    rcases hf _ _ h with h | ⟨j, hj, e⟩
    · rcases ih h with h | ⟨x, hx, e⟩
      · exact .inl h
      · exact .inr ⟨x, by rw [Nat.mul_succ]; omega, e⟩
    · exact .inr ⟨w * n + j, by rw [Nat.mul_succ]; omega, by omega⟩

/-- The two ends of a big-endian load (R215, R216). -/
theorem loadBE_cases (n : Nat) (s : State) :
    (s.srcLen.toNat < s.cursor.toNat + n ∧ loadBE n s = .raise .truncated s) ∨
    (s.cursor.toNat + n ≤ s.srcLen.toNat ∧ loadBE n s = .ok { s with
      dataOut := BitVec.ofNat 32 (s.streamBE s.cursor.toNat n), cursor := BitVec.ofNat 32 (s.cursor.toNat + n) }) := by
  by_cases h : s.srcLen.toNat < s.cursor.toNat + n
  · exact .inl ⟨h, if_pos h⟩
  · exact .inr ⟨by omega, if_neg h⟩

theorem swapbuf_ready_iff (i : Instr) (unit : Nat) (hi : i = .swapbuf16 ∧ unit = 2 ∨ i = .swapbuf32 ∧ unit = 4) :
    s.ready i ↔ s.xferLen.toNat % unit = 0 ∧ (s.swapRange.len = 0 ∨ s.swapRange.base + s.swapRange.len ≤ 2 ^ 32) ∧
      s.AllExist s.swapRange := by
  rcases hi with ⟨rfl, rfl⟩ | ⟨rfl, rfl⟩ <;>
  simp only [State.ready, staticChecks, swapbufChecks, checkUnit, usedRanges, swapbufRanges, firstError_cons_eq_none,
    firstError_nil, checkRange_none, List.all_cons, List.all_nil, Bool.and_eq_true, State.rangeExists_iff, and_true, and_assoc,
    ite_eq_left_iff, reduceCtorEq, imp_false, not_not]

theorem ldbe_ready_iff (i : Instr) (hi : i = .ldbe16 ∨ i = .ldbe32) :
    s.ready i ↔ (s.streamRange.len = 0 ∨ s.streamRange.base + s.streamRange.len ≤ 2 ^ 32) ∧ s.AllExist s.streamRange := by
  rcases hi with rfl | rfl <;>
  simp only [State.ready, staticChecks, ldbeChecks, usedRanges, ldbeRanges, firstError_cons_eq_none,
    firstError_nil, checkRange_none, List.all_cons, List.all_nil, Bool.and_eq_true, State.rangeExists_iff, and_true]

/-- Bytes that all exist lie below 2^32 (R80). -/
theorem State.AllExist.fits {r : Range} (h : s.AllExist r) : r.len = 0 ∨ r.base + r.len ≤ 2 ^ 32 := by
  by_cases h0 : r.len = 0
  · exact .inl h0
  · have := h (r.len - 1) (by omega)
    simp only [State.byteExists, addrSpace, Bool.and_eq_true, decide_eq_true_eq] at this
    right; omega

end Sys2Proof.Machine
end

