-- ==== Sys2Proof/Laws/Sequencing.lean ====
section
/-! SUPPORT. Laws/Sequencing.lean: what the channel loops of DECODE_IMAGE do (R143 to R149), said once. -/

namespace Sys2Proof.Machine

variable {s t : State}

/-- What a channel loop may have changed: the progress registers and bytes of the first `n` planes. -/
structure ChannelsDone (n : Nat) (s t : State) : Prop where
  frame : t = { s with curCh := t.curCh, outCount := t.outCount, cursor := t.cursor, inChannel := t.inChannel, mem := t.mem }
  cursor_ge : s.cursor.toNat ≤ t.cursor.toNat
  cursor_le : t.cursor = s.cursor ∨ t.cursor.toNat ≤ s.srcLen.toNat
  wf : s.mem.wf → t.mem.wf
  other : s.mem.wf → ∀ a, (∀ k < n, ¬s.inPlane k a) → t.mem.read a = s.mem.read a
  entries : ∀ c ∈ t.mem, c ∈ s.mem ∨ ∃ k < n, s.inPlane k c.1

theorem ChannelsDone.refl (n : Nat) (s : State) : ChannelsDone n s s :=
  ⟨rfl, le_rfl, .inl rfl, id, fun _ _ _ => rfl, fun _ h => .inl h⟩

theorem ChannelsDone.setup {n : Nat} (h : ChannelsDone n s t) : t.setup = s.setup := by rw [h.frame]; rfl

theorem State.setup_inPlane (h : t.setup = s.setup) (k a : Nat) : t.inPlane k a ↔ s.inPlane k a := by
  simp only [State.inPlane, State.setup_planeLen h, State.setup_planeByte h]

theorem ChannelsDone.then {n n' : Nat} {u : State} (h : ChannelsDone n s t) (g : ChannelsDone n' t u) {m : Nat} (hn : n ≤ m)
    (hn' : n' ≤ m) : ChannelsDone m s u := by
  refine ⟨?_, le_trans h.cursor_ge g.cursor_ge, ?_, fun w => g.wf (h.wf w), fun w a ha => ?_, fun c hc => ?_⟩
  · have h1 := h.frame
    have h2 := g.frame
    rw [h1] at h2
    exact h2
  · rcases g.cursor_le with e | e
    · rcases h.cursor_le with e' | e'
      · exact .inl (e.trans e')
      · right; rw [e]; exact e'
    · right; rw [← State.setup_srcLen h.setup]; exact e
  · rw [g.other (h.wf w) a fun k hk hp => ha k (by omega) ((State.setup_inPlane h.setup k a).mp hp),
      h.other w a fun k hk => ha k (by omega)]
  · rcases g.entries c hc with hm | ⟨k, hk, hp⟩
    · rcases h.entries c hm with hm | ⟨k, hk, hp⟩
      · exact .inl hm
      · exact .inr ⟨k, by omega, hp⟩
    · exact .inr ⟨k, by omega, (State.setup_inPlane h.setup k _).mp hp⟩

/-- A channel's passes touch its plane only. -/
theorem ChannelsDone.of_passes {k : Nat} (hk : k < 32) (h : PassesDone (beginChannel k s) t) : ChannelsDone (k + 1) s t := by
  have hc : (beginChannel k s).curCh.toNat = k := by simp [beginChannel]; omega
  refine ⟨?_, h.cursor_ge, h.cursor_le, h.wf, fun w a ha => h.other w a fun j _ hj e => ?_, fun c hc' => ?_⟩
  · rw [h.frame]; rfl
  · rw [hc] at e
    exact ha k (by omega) ⟨j, lt_of_lt_of_le hj h.count_bound, e⟩
  · rcases h.entries c hc' with hm | ⟨j, hj, e⟩
    · exact .inl hm
    · rw [hc] at e
      exact .inr ⟨k, by omega, j, hj, e⟩

/-- Everything the loop over the channels of an RLE image can do. -/
theorem decodeChannels_cases (n : Nat) (hp : s.planeLen < 2 ^ 32) (hn : n ≤ 32) :
    (∃ e u, forChannels n decodePlane s = .raise e u ∧ ChannelsDone n s u) ∨
    (∃ u, forChannels n decodePlane s = .ok u ∧ ChannelsDone n s u ∧
      (0 < n → u.curCh.toNat = n - 1 ∧ u.outCount.toNat = s.planeLen)) := by
  induction n with
  | zero => exact .inr ⟨s, rfl, ChannelsDone.refl 0 s, by omega⟩
  | succ n ih =>
    rw [forChannels_succ]
    rcases ih (by omega) with ⟨e, u, hu, hd⟩ | ⟨u, hu, hd, _⟩
    · exact .inl ⟨e, u, by rw [hu]; rfl, hd.then (ChannelsDone.refl 0 u) (by omega) (by omega)⟩
    · rw [hu, Exit.andThen_ok]
      have hpl := State.setup_planeLen hd.setup
      rcases decodePlane_cases (s := u) n (by omega) with ⟨e, v, hv, hd', _⟩ | ⟨v, hv, hd', hc⟩
      · exact .inl ⟨e, v, hv, hd.then (ChannelsDone.of_passes (by omega) hd') (by omega) (by omega)⟩
      · have hq := ChannelsDone.of_passes (by omega) hd'
        refine .inr ⟨_, hv, hd.then (u := { v with inChannel := false }) ⟨?_, hq.cursor_ge, hq.cursor_le, hq.wf, hq.other, hq.entries⟩ (by omega) le_rfl, fun _ => ⟨?_, by rw [hc, hpl]⟩⟩
        · rw [hq.frame]
        · change v.curCh.toNat = _
          rw [hd'.curCh]; simp [beginChannel]; omega

/-- A copied plane touches its plane only. -/
theorem ChannelsDone.of_copied {k : Nat} (h : PlaneCopied k s t) : ChannelsDone (k + 1) s t := by
  have hb := h.fits
  have hc : t.cursor.toNat = s.cursor.toNat + s.planeLen * s.bytesPerSample := by
    rw [h.frame]; exact toNat_ofNat_of_le hb s.srcLen.isLt
  refine ⟨?_, by omega, .inr (by omega), h.wf, fun w a ha => h.other w a (ha k (by omega)), fun c hc => ?_⟩
  · rw [h.frame]
  · rcases h.entries c hc with hm | ⟨p, hp, e⟩
    · exact .inl hm
    · exact .inr ⟨k, by omega, p, hp, e⟩

/-- Everything the loop over the channels of a raw image can do. -/
theorem copyChannels_cases (n : Nat) (hp : s.planeLen < 2 ^ 32) (hn : n ≤ 32) :
    (∃ e u, forChannels n copyPlane s = .raise e u ∧ ChannelsDone n s u) ∨
    (∃ u, forChannels n copyPlane s = .ok u ∧ ChannelsDone n s u ∧
      (0 < n → u.curCh.toNat = n - 1 ∧ u.outCount.toNat = s.planeLen)) := by
  induction n with
  | zero => exact .inr ⟨s, rfl, ChannelsDone.refl 0 s, by omega⟩
  | succ n ih =>
    rw [forChannels_succ]
    rcases ih (by omega) with ⟨e, u, hu, hd⟩ | ⟨u, hu, hd, _⟩
    · exact .inl ⟨e, u, by rw [hu]; rfl, hd.then (ChannelsDone.refl 0 u) (by omega) (by omega)⟩
    · rw [hu, Exit.andThen_ok]
      have hpl := State.setup_planeLen hd.setup
      rcases copyPlane_done n u with ⟨_, hv⟩ | ⟨v, hv, hd', _⟩
      · exact .inl ⟨_, _, hv, hd.then (u := beginCopy n u) ⟨rfl, le_rfl, .inl rfl, id, fun _ _ _ => rfl, fun _ h => .inl h⟩ (n' := 0) (by omega) (by omega)⟩
      · refine .inr ⟨v, hv, hd.then (ChannelsDone.of_copied hd') (by omega) le_rfl, fun _ => ⟨?_, ?_⟩⟩
        · rw [hd'.frame]; simp; omega
        · rw [hd'.frame, ← hpl]; exact toNat_ofNat_of_le le_rfl (by omega)

/-- A channel that raises ends the loop, however many channels would follow (R140). -/
theorem forChannels_raise {f : Nat → State → Exit} {e : ErrCode} {n m : Nat} (h : forChannels n f s = .raise e t) (hn : n ≤ m) :
    forChannels m f s = .raise e t := by
  induction m, hn using Nat.le_induction with
  | base => exact h
  | succ m _ ih => rw [forChannels_succ, ih]; rfl

/-- The first channels of a loop leave the stream as it was, the stream and the planes being apart. -/
theorem srcByte_of_channels {n : Nat} (hn : n ≤ s.chanCount) (hap : s.streamRange.Apart s.planesRange) (hw : s.mem.wf)
    (h : ChannelsDone n s t) {j : Nat} (hj : j < s.srcLen.toNat) : t.srcByte j = s.srcByte j := by
  simp only [State.srcByte, State.setup_srcPos h.setup]
  refine h.other hw _ ?_
  rintro k hk ⟨p, hp', e⟩
  have := State.planeByte_mem (show k < s.chanCount by omega) hp'
  simp only [Range.Apart, State.streamRange, State.planesRange, State.srcPos] at *
  omega

/-- The next channel of a loop is ready to be decoded. -/
theorem ChannelReady.of_channels {n : Nat} (hn : n < s.chanCount) (h32 : n < 32) (hp : s.planeLen < 2 ^ 32)
    (hap : s.streamRange.Apart s.planesRange) (hw : s.mem.wf) (h : ChannelsDone n s t) : ChannelReady (beginChannel n t) := by
  have hk : (beginChannel n t).curCh.toNat = n := by simp [beginChannel]; omega
  refine ⟨?_, ?_, ?_, h.wf hw⟩
  · change t.planeLen < _; rw [State.setup_planeLen h.setup]; exact hp
  · rw [hk]; change n < t.chanCount; rw [State.setup_chanCount h.setup]; exact hn
  · change t.streamRange.Apart t.planesRange
    rw [State.setup_streamRange h.setup, State.setup_planesRange h.setup]; exact hap

/-- The channels of a stream written as directives are all decoded (R147). -/
theorem decode_channels : ∀ (n : Nat) (dss : List (List Directive)), dss.length = n → n ≤ s.chanCount → n ≤ 32 →
    s.planeLen < 2 ^ 32 → s.streamRange.Apart s.planesRange → s.mem.wf → (∀ ds ∈ dss, fillsChannel s.planeLen ds) →
    s.streamHolds s.cursor.toNat (streamOf dss.flatten) →
    ∃ u, forChannels n decodePlane s = .ok u ∧ ChannelsDone n s u ∧
      u.cursor.toNat = s.cursor.toNat + (streamOf dss.flatten).length ∧
      (∀ k p, ∀ ds ∈ dss[k]?, p < s.planeLen → (planeOf ds)[p]? = some (u.mem.read (s.planeByte k p))) := by
  intro n
  induction n with
  | zero =>
    intro dss hl _ _ _ _ _ _ _
    obtain rfl := List.length_eq_zero_iff.mp hl
    exact ⟨s, rfl, ChannelsDone.refl 0 s, by simp [streamOf], by simp⟩
  | succ n ih =>
    intro dss hl hC h32 hp hap hw hf hst
    obtain ⟨init, last, rfl⟩ : ∃ init last, dss = init ++ [last] :=
      ⟨dss.dropLast, dss.getLast (by rintro rfl; simp at hl), (List.dropLast_append_getLast _).symm⟩
    have hin : init.length = n := by simpa using hl
    have hflat : streamOf (init ++ [last]).flatten = streamOf init.flatten ++ streamOf last := by
      simp [streamOf]
    rw [hflat] at hst ⊢
    obtain ⟨ha, hb⟩ := State.streamHolds_append.mp hst
    obtain ⟨u, hu, hd, hc, hby⟩ := ih init hin (by omega) (by omega) hp hap hw (fun ds h => hf ds (by simp [h])) ha
    have hpl := State.setup_planeLen hd.setup
    have hpb := State.setup_planeByte hd.setup
    have hsrc : ∀ j < s.srcLen.toNat, u.srcByte j = s.srcByte j := fun j => srcByte_of_channels (by omega) hap hw hd
    have hb' : u.streamHolds (beginChannel n u).cursor.toNat (streamOf last) := by
      have : (beginChannel n u).cursor.toNat = s.cursor.toNat + (streamOf init.flatten).length := hc
      rw [this]
      exact State.streamHolds_congr hd.setup hsrc hb
    have hk : (beginChannel n u).curCh.toNat = n := by simp [beginChannel]; omega
    have hready := ChannelReady.of_channels (by omega) (by omega) hp hap hw hd
    obtain ⟨v, hv, hdec⟩ := decodePlane_directives hready (by rw [hpl]; exact hf last (by simp)) hb'
    have hq := ChannelsDone.of_passes (by omega) hdec.done
    refine ⟨_, by rw [forChannels_succ, hu, Exit.andThen_ok, hv], hd.then (u := { v with inChannel := false }) ⟨?_, hq.cursor_ge, hq.cursor_le, hq.wf, hq.other, hq.entries⟩ (by omega) le_rfl, ?_, ?_⟩
    · rw [hq.frame]
    · change v.cursor.toNat = _
      rw [hdec.cursor, List.length_append]
      have : (beginChannel n u).cursor.toNat = s.cursor.toNat + (streamOf init.flatten).length := hc
      omega
    · intro k p ds hds hp'
      change _ = some (v.mem.read _)
      by_cases hkn : k < n
      · rw [List.getElem?_append_left (by omega)] at hds
        rw [hby k p ds hds hp']
        congr 1
        refine (hdec.done.other (hd.wf hw) _ fun j _ hj e => ?_).symm
        rw [hk] at e
        have hj' : j < s.planeLen := by
          have := hdec.done.count_bound
          have : (beginChannel n u).planeLen = s.planeLen := hpl
          omega
        have e' : s.planeByte k p = s.planeByte n j := by rw [e]; exact congrFun (congrFun hpb n) j
        exact absurd (State.planeByte_inj hp' hj' e').1 (by omega)
      · rw [List.getElem?_append_right (by omega)] at hds
        have hkn' : k = n := by
          by_contra hne
          have : k - init.length ≠ 0 := by omega
          obtain ⟨m, hm⟩ := Nat.exists_eq_succ_of_ne_zero this
          rw [hm] at hds; simp at hds
        subst hkn'
        rw [hin, Nat.sub_self] at hds
        obtain rfl : last = ds := by simpa using hds
        have hlen := (hf last (by simp)).2.1
        have := hdec.bytes (hd.wf hw) p (by omega)
        have e : (beginChannel k u).planeByte (beginChannel k u).curCh.toNat ((beginChannel k u).outCount.toNat + p) = s.planeByte k p := by
          rw [hk, ← hpb]; simp [beginChannel, State.planeByte, State.planeLen]
        rw [e] at this
        rw [this, List.getElem?_eq_getElem]

/-- A failing channel of an RLE image: the channels before it are decoded, then it fails where its stream does (R147, R251 (c)). -/
theorem decode_channels_fail {dss : List (List Directive)} {ds : List Directive} {code : BitVec 4} (hl : dss.length < s.chanCount)
    (h32 : s.chanCount ≤ 32) (hp : s.planeLen < 2 ^ 32) (hap : s.streamRange.Apart s.planesRange) (hw : s.mem.wf)
    (hf : ∀ x ∈ dss, fillsChannel s.planeLen x) (hst : s.streamHolds s.cursor.toNat (streamOf dss.flatten))
    (hfail : s.failsAfter (s.cursor.toNat + (streamOf dss.flatten).length) ds code) :
    ∃ (e : ErrCode) (u : State), e.code = code ∧ forChannels s.chanCount decodePlane s = .raise e u ∧
      u.setup = s.setup ∧ u.comp = s.comp ∧ u.curCh = BitVec.ofNat 5 dss.length ∧ u.outCount.toNat = (planeOf ds).length ∧
      u.cursor.toNat = s.cursor.toNat + (streamOf dss.flatten).length + (streamOf ds).length ∧ u.mem.wf ∧
      (∀ k, ∀ x ∈ dss[k]?, s.planeHolds u.mem k (planeOf x)) ∧ s.planeHolds u.mem dss.length (planeOf ds) ∧
      (∀ a, (∀ k < dss.length, ¬s.inPlane k a) → (∀ p < (planeOf ds).length, a ≠ s.planeByte dss.length p) →
        u.mem.read a = s.mem.read a) := by
  obtain ⟨t, ht, hd, hc, hby⟩ := decode_channels dss.length dss rfl (by omega) (by omega) hp hap hw hf hst
  have hpb := State.setup_planeByte hd.setup
  have hpl := State.setup_planeLen hd.setup
  have hsrc : ∀ j < s.srcLen.toNat, t.srcByte j = s.srcByte j := fun j => srcByte_of_channels (by omega) hap hw hd
  have hready := ChannelReady.of_channels hl (by omega) hp hap hw hd
  have hfail' : t.failsAfter t.cursor.toNat ds code := by
    obtain ⟨h1, h2, h3, h4⟩ := hfail
    rw [hc]
    exact ⟨h1, by rw [hpl]; exact h2, h3.imp id (State.streamHolds_congr hd.setup hsrc), State.elementFails_congr hd.setup hsrc h4⟩
  obtain ⟨e, u, he, hu, hdec⟩ := decodePlane_fails hready hfail'
  have hk : (beginChannel dss.length t).curCh.toNat = dss.length := by simp [beginChannel]; omega
  have hb : ∀ p, (beginChannel dss.length t).planeByte (beginChannel dss.length t).curCh.toNat p = s.planeByte dss.length p := by
    intro p
    rw [hk, ← hpb]
    rfl
  have hcount : u.outCount.toNat = (planeOf ds).length := by
    have := hdec.count
    rwa [show (beginChannel dss.length t).outCount.toNat = 0 from rfl, Nat.zero_add] at this
  have hother : ∀ a, (∀ p < (planeOf ds).length, a ≠ s.planeByte dss.length p) → u.mem.read a = t.mem.read a :=
    fun a ha => hdec.done.other (hd.wf hw) a fun j _ hj => by rw [hb]; exact ha j (by omega)
  refine ⟨e, u, he, ?_, ?_, ?_, ?_, hcount, ?_, hdec.done.wf (hd.wf hw), ?_, ?_, ?_⟩
  · exact forChannels_raise (n := dss.length + 1) (by rw [forChannels_succ, ht, Exit.andThen_ok, hu]) (by omega)
  · rw [hdec.done.setup]; exact hd.setup
  · rw [hdec.done.frame]; change t.comp = _; rw [hd.frame]
  · exact hdec.done.curCh
  · rw [hdec.cursor]; change t.cursor.toNat + _ = _; rw [hc]
  · intro k x hx p hp'
    have hk : k < dss.length := by
      by_contra hk; rw [List.getElem?_eq_none (by omega)] at hx; simp at hx
    have hlen : (planeOf x).length = s.planeLen := (hf x (List.mem_of_getElem? hx)).2.1
    rw [hby k p x hx (by omega), hother]
    intro q hq e
    have := (State.planeByte_inj (by omega) (by have := hfail.2.1; omega) e).1
    omega
  · intro p hp'
    have := hdec.bytes (hd.wf hw) p hp'
    rw [hb, show (beginChannel dss.length t).outCount.toNat = 0 from rfl, Nat.zero_add] at this
    rw [this, List.getElem?_eq_getElem]
  · intro a h1 h2
    rw [hother a h2, hd.other hw a h1]

/-- The first channels of a raw image are copied when they are all there (R148, R191). -/
theorem copy_channels (n : Nat) (hbps : 0 < s.bytesPerSample) (hn : n ≤ s.chanCount)
    (hap : s.streamRange.Apart s.planesRange) (hw : s.mem.wf)
    (hl : s.cursor.toNat + n * (s.planeLen * s.bytesPerSample) ≤ s.srcLen.toNat) :
    ∃ u, forChannels n copyPlane s = .ok u ∧ ChannelsDone n s u ∧ u.inChannel = s.inChannel ∧
      u.cursor.toNat = s.cursor.toNat + n * (s.planeLen * s.bytesPerSample) ∧
      (∀ k < n, ∀ p < s.planeLen, u.mem.read (s.planeByte k p) =
        s.srcByte (s.cursor.toNat + k * (s.planeLen * s.bytesPerSample) + p * s.bytesPerSample)) := by
  induction n with
  | zero => exact ⟨s, rfl, ChannelsDone.refl 0 s, rfl, by simp, by simp⟩
  | succ n ih =>
    rw [Nat.succ_mul] at hl
    obtain ⟨u, hu, hd, hi, hc, hby⟩ := ih (by omega) (by omega)
    have hpl := State.setup_planeLen hd.setup
    have hbp := State.setup_bytesPerSample hd.setup
    have hsl := State.setup_srcLen hd.setup
    have hpb := State.setup_planeByte hd.setup
    rcases copyPlane_done n u with ⟨h, _⟩ | ⟨v, hv, hcp, hcopy⟩
    · rw [hpl, hbp, hsl] at h; omega
    · have hin : ∀ p < s.planeLen, s.cursor.toNat + n * (s.planeLen * s.bytesPerSample) + p * s.bytesPerSample < s.srcLen.toNat := by
        intro p hp'
        have := Nat.mul_le_mul_right s.bytesPerSample (Nat.succ_le_of_lt hp')
        rw [Nat.succ_mul] at this
        omega
      refine ⟨v, by rw [forChannels_succ, hu, Exit.andThen_ok, hv], hd.then (ChannelsDone.of_copied hcp) (by omega) le_rfl,
        by rw [hcp.frame]; exact hi, ?_, ?_⟩
      · rw [hcp.frame]
        change (BitVec.ofNat 32 (u.cursor.toNat + u.planeLen * u.bytesPerSample)).toNat = _
        rw [toNat_ofNat_of_le hcp.fits u.srcLen.isLt, hc, hpl, hbp, Nat.succ_mul, Nat.add_assoc]
      · intro k hk p hp'
        by_cases hkn : k < n
        · rw [← hby k hkn p hp']
          refine hcp.other (hd.wf hw) _ ?_
          rintro ⟨q, hq, e⟩
          rw [hpb] at e
          have := (State.planeByte_inj hp' (by omega) e).1
          omega
        · obtain rfl : k = n := by omega
          rw [← srcByte_of_channels (by omega) hap hw hd (hin p hp'), ← hc, ← hbp, ← hpb]
          refine hcopy (hd.wf hw) (fun p₁ h₁ p₂ h₂ e => ?_) p (by omega)
          rw [hpl] at h₁ h₂
          rw [State.setup_srcPos hd.setup, hpb, hc, hbp] at e
          have h3 := hin p₁ h₁
          have h4 := State.planeByte_mem (show k < s.chanCount by omega) h₂
          simp only [Range.Apart, State.streamRange, State.planesRange, State.srcPos] at hap e h4
          clear ih hby hcopy
          omega

/-- A failing channel of a raw image: the channels before it are copied, and its plane is cut off (R148, R192). -/
theorem copy_channels_fail {k : Nat} (hbps : 0 < s.bytesPerSample) (hk : k < s.chanCount)
    (hap : s.streamRange.Apart s.planesRange) (hw : s.mem.wf)
    (hl : s.cursor.toNat + k * (s.planeLen * s.bytesPerSample) ≤ s.srcLen.toNat)
    (hcut : s.srcLen.toNat < s.cursor.toNat + (k + 1) * (s.planeLen * s.bytesPerSample)) :
    ∃ u, forChannels s.chanCount copyPlane s = .raise .truncated (beginCopy k u) ∧ ChannelsDone k s u ∧
      u.inChannel = s.inChannel ∧ u.cursor.toNat = s.cursor.toNat + k * (s.planeLen * s.bytesPerSample) ∧
      (∀ j < k, ∀ p < s.planeLen, u.mem.read (s.planeByte j p) =
        s.srcByte (s.cursor.toNat + j * (s.planeLen * s.bytesPerSample) + p * s.bytesPerSample)) := by
  obtain ⟨u, hu, hd, hi, hc, hby⟩ := copy_channels k hbps (by omega) hap hw hl
  rw [Nat.succ_mul] at hcut
  refine ⟨u, forChannels_raise (n := k + 1) ?_ (by omega), hd, hi, hc, hby⟩
  rw [forChannels_succ, hu, Exit.andThen_ok]
  rcases copyPlane_cases k u with ⟨_, e⟩ | ⟨h, _⟩
  · exact e
  · rw [State.setup_planeLen hd.setup, State.setup_bytesPerSample hd.setup, State.setup_srcLen hd.setup] at h; omega

/-! ## DECODE_IMAGE before its Mux -/

/-- The state after the compression code has been read (R144). -/
def afterCode (s : State) : State :=
  { s with comp := BitVec.ofNat 16 (s.streamBE s.cursor.toNat 2), cursor := BitVec.ofNat 32 (s.cursor.toNat + 2) }

theorem readCode_cases (s : State) :
    (s.srcLen.toNat < s.cursor.toNat + 2 ∧ readCode s = .raise .truncated s) ∨
    (s.cursor.toNat + 2 ≤ s.srcLen.toNat ∧ readCode s = .ok (afterCode s)) := by
  by_cases h : s.srcLen.toNat < s.cursor.toNat + 2
  · exact .inl ⟨h, if_pos h⟩
  · exact .inr ⟨by omega, if_neg h⟩

theorem afterCode_cursor (h : s.cursor.toNat + 2 ≤ s.srcLen.toNat) : (afterCode s).cursor.toNat = s.cursor.toNat + 2 :=
  toNat_ofNat_of_le h s.srcLen.isLt

theorem streamBE_two_lt (s : State) (i : Nat) : s.streamBE i 2 < 2 ^ 16 := by
  have := (s.srcByte (i + 0)).isLt
  have := (s.srcByte (i + 1)).isLt
  simp only [State.streamBE]
  omega

theorem afterCode_comp (s : State) : (afterCode s).comp.toNat = s.streamBE s.cursor.toNat 2 := by
  have := streamBE_two_lt s s.cursor.toNat
  simp only [afterCode, BitVec.toNat_ofNat]
  omega

theorem dispatchCode_cases (s : State) :
    (∃ e, dispatchCode s = .raise e s) ∨
    ((s.comp.toNat = 0 ∨ s.comp.toNat = 1) ∧ (s.depth.toNat = 8 ∨ s.depth.toNat = 16) ∧ dispatchCode s = .ok s) := by
  simp only [dispatchCode]
  split_ifs
  · exact .inl ⟨_, rfl⟩
  · exact .inl ⟨_, rfl⟩
  · exact .inl ⟨_, rfl⟩
  · exact .inr ⟨by omega, by omega, rfl⟩

theorem skipTable_cases (s : State) :
    (s.srcLen.toNat < s.cursor.toNat + s.tableLen ∧ skipTable s = .raise .truncated s) ∨
    (s.cursor.toNat + s.tableLen ≤ s.srcLen.toNat ∧
      skipTable s = .ok { s with cursor := BitVec.ofNat 32 (s.cursor.toNat + s.tableLen) }) := by
  by_cases h : s.srcLen.toNat < s.cursor.toNat + s.tableLen
  · exact .inl ⟨h, if_pos h⟩
  · exact .inr ⟨by omega, if_neg h⟩

/-- What DECODE_IMAGE may have changed before its Mux. -/
structure PlanesDone (s t : State) : Prop where
  frame : t = { s with comp := t.comp, curCh := t.curCh, outCount := t.outCount, cursor := t.cursor,
                       inChannel := t.inChannel, mem := t.mem }
  cursor_ge : s.cursor.toNat ≤ t.cursor.toNat
  cursor_le : t.cursor = s.cursor ∨ t.cursor.toNat ≤ s.srcLen.toNat
  wf : s.mem.wf → t.mem.wf
  other : s.mem.wf → ∀ a, (∀ k < s.chanCount, ¬s.inPlane k a) → t.mem.read a = s.mem.read a
  entries : ∀ c ∈ t.mem, c ∈ s.mem ∨ ∃ k < s.chanCount, s.inPlane k c.1

theorem PlanesDone.setup (h : PlanesDone s t) : t.setup = s.setup := by rw [h.frame]; rfl

theorem PlanesDone.of_code {x : Nat} (hx : s.cursor.toNat ≤ x) (hx' : x ≤ s.srcLen.toNat)
    (h : ChannelsDone s.chanCount { s with comp := (afterCode s).comp, cursor := BitVec.ofNat 32 x } t) : PlanesDone s t := by
  have hc : (BitVec.ofNat 32 x).toNat = x := toNat_ofNat_of_le hx' s.srcLen.isLt
  refine ⟨?_, ?_, .inr ?_, h.wf, h.other, h.entries⟩
  · rw [h.frame]
  · have := h.cursor_ge
    simp only [hc] at this
    omega
  · rcases h.cursor_le with e | e
    · rw [e, hc]; exact hx'
    · exact e

/-- Everything DECODE_IMAGE can do before its Mux (R143 to R148). -/
theorem decodePlanes_cases (hr : s.ready .decodeImage) :
    (∃ e u, decodePlanes s = .raise e u ∧ PlanesDone s u) ∨
    (∃ u, decodePlanes s = .ok u ∧ PlanesDone s u ∧ (u.comp = 0 ∨ u.comp = 1) ∧ u.curCh.toNat = s.chanCount - 1 ∧
      u.outCount.toNat = s.planeLen ∧ s.cursor.toNat + 2 ≤ u.cursor.toNat ∧ u.cursor.toNat ≤ s.srcLen.toNat) := by
  obtain ⟨hg, -⟩ := decodeImage_ready_iff.mp hr
  obtain ⟨h1, h2, h3, h4⟩ := hg.planeLen_lt
  have refl : PlanesDone s s := ⟨rfl, le_rfl, .inl rfl, id, fun _ _ _ => rfl, fun _ h => .inl h⟩
  rcases readCode_cases s with ⟨_, e⟩ | ⟨hl, e⟩
  · exact .inl ⟨_, s, by rw [decodePlanes, e]; rfl, refl⟩
  have code : PlanesDone s (afterCode s) := PlanesDone.of_code (x := s.cursor.toNat + 2) (by omega) hl (ChannelsDone.refl _ _)
  have hcur := afterCode_cursor hl
  rcases dispatchCode_cases (afterCode s) with ⟨e', h⟩ | ⟨hc, _, h⟩
  · exact .inl ⟨e', _, by rw [decodePlanes, e, Exit.andThen_ok, h]; rfl, code⟩
  have hcomp : (afterCode s).comp = 0 ∨ (afterCode s).comp = 1 := by
    rcases hc with hc | hc
    · exact .inl (BitVec.eq_of_toNat_eq hc)
    · exact .inr (BitVec.eq_of_toNat_eq hc)
  have main : decodePlanes s = if (afterCode s).comp.toNat = 1 then rlePath (afterCode s) else rawPath (afterCode s) := by
    rw [decodePlanes, e, Exit.andThen_ok, h, Exit.andThen_ok]
  rw [main]
  split_ifs with h1c
  · rcases skipTable_cases (afterCode s) with ⟨_, et⟩ | ⟨ht, et⟩
    · exact .inl ⟨_, _, by rw [rlePath, et]; rfl, code⟩
    · rw [rlePath, et, Exit.andThen_ok]
      have hx : s.cursor.toNat ≤ (afterCode s).cursor.toNat + (afterCode s).tableLen := by omega
      have hct : (BitVec.ofNat 32 ((afterCode s).cursor.toNat + (afterCode s).tableLen)).toNat =
          (afterCode s).cursor.toNat + (afterCode s).tableLen := toNat_ofNat_of_le ht s.srcLen.isLt
      rcases decodeChannels_cases (s := { afterCode s with
          cursor := BitVec.ofNat 32 ((afterCode s).cursor.toNat + (afterCode s).tableLen) }) s.chanCount h2 (by omega) with
        ⟨e', u, hu, hd⟩ | ⟨u, hu, hd, hq⟩
      · exact .inl ⟨e', u, hu, PlanesDone.of_code hx ht hd⟩
      · have hp := PlanesDone.of_code hx ht hd
        have hge := hd.cursor_ge
        simp only [hct] at hge
        refine .inr ⟨u, hu, hp, ?_, (hq (by omega)).1, (hq (by omega)).2, by omega, ?_⟩
        · rw [hd.frame]; exact hcomp
        · rcases hd.cursor_le with e | e
          · rw [e, hct]; exact ht
          · exact e
  · rw [rawPath]
    rcases copyChannels_cases (s := afterCode s) s.chanCount h2 (by omega) with ⟨e', u, hu, hd⟩ | ⟨u, hu, hd, hq⟩
    · exact .inl ⟨e', u, hu, PlanesDone.of_code (x := s.cursor.toNat + 2) (by omega) hl hd⟩
    · have hge := hd.cursor_ge
      refine .inr ⟨u, hu, PlanesDone.of_code (x := s.cursor.toNat + 2) (by omega) hl hd, ?_, (hq (by omega)).1, (hq (by omega)).2,
        by omega, ?_⟩
      · rw [hd.frame]; exact hcomp
      · rcases hd.cursor_le with e | e
        · rw [e, hcur]; exact hl
        · exact e

end Sys2Proof.Machine
end

