-- ==== Sys2Proof/Laws/Commands.lean ====
section
/-! SUPPORT. Laws/Commands.lean: everything the effect of a command, or an element, can do, said once for all of them. -/

namespace Sys2Proof.Machine

variable {s t : State} {i : Instr}

/-- What the effect of a command whose checks hold may have done, whether or not it raised. -/
structure CommandDone (i : Instr) (s t : State) : Prop where
  setup : t.setup = s.setup
  done : t.done = s.done
  err : t.err = s.err
  ecode : t.ecode = s.ecode
  pending : t.cmdPending = s.cmdPending
  cursor : t.cursor = s.cursor ∨ (s.cursor.toNat ≤ t.cursor.toNat ∧ t.cursor.toNat ≤ s.srcLen.toNat)
  comp : i ≠ .decodeImage → t.comp = s.comp
  dataOut : i ∉ [Instr.swap16, .swap32, .ldbe16, .ldbe32] → t.dataOut = s.dataOut
  wf : s.mem.wf → t.mem.wf
  other : s.mem.wf → ∀ a, (∀ r ∈ writtenRanges i s, ¬(r.base ≤ a ∧ a < r.base + r.len)) → t.mem.read a = s.mem.read a
  entries : ∀ c ∈ t.mem, c ∈ s.mem ∨ s.byteExists c.1 = true

theorem CommandDone.refl (i : Instr) (s : State) : CommandDone i s s :=
  ⟨rfl, rfl, rfl, rfl, rfl, .inl rfl, fun _ => rfl, fun _ => rfl, id, fun _ _ _ => rfl, fun _ h => .inl h⟩

theorem State.AllExist.byte {r : Range} (h : s.AllExist r) {a : Nat} (h1 : r.base ≤ a) (h2 : a < r.base + r.len) :
    s.byteExists a = true := by
  have := h (a - r.base) (by omega)
  rwa [show r.base + (a - r.base) = a by omega] at this

/-- A byte of a plane of the command lies in the planes' range. -/
theorem State.inPlane_mem {k a : Nat} (hk : k < s.chanCount) (h : s.inPlane k a) :
    s.planesRange.base ≤ a ∧ a < s.planesRange.base + s.planesRange.len := by
  obtain ⟨p, hp, rfl⟩ := h
  exact State.planeByte_mem hk hp

theorem State.inMuxOutput_mem {a : Nat} (hS : 0 < s.stride) (h : s.inMuxOutput a) :
    s.outputRange.base ≤ a ∧ a < s.outputRange.base + s.outputRange.len := by
  obtain ⟨k, hk, p, hp, rfl⟩ := h
  exact State.muxPos_mem hS hk hp

theorem CommandDone.of_channels {n : Nat} (hi : i = .decodeImage ∨ s.planesRange ∈ writtenRanges i s)
    (hn : n ≤ s.chanCount) (hx : s.AllExist s.planesRange) (h : ChannelsDone n s t) : CommandDone i s t := by
  have hw : s.planesRange ∈ writtenRanges i s := by
    rcases hi with rfl | hi
    · simp [writtenRanges]
    · exact hi
  refine ⟨h.setup, by rw [h.frame], by rw [h.frame], by rw [h.frame], by rw [h.frame], ?_, fun _ => by rw [h.frame],
    fun _ => by rw [h.frame], h.wf, fun w a ha => h.other w a fun k hk hp => ha _ hw (State.inPlane_mem (by omega) hp), fun c hc => ?_⟩
  · rcases h.cursor_le with e | e
    · exact .inl e
    · exact .inr ⟨h.cursor_ge, e⟩
  · rcases h.entries c hc with hm | ⟨k, hk, hp⟩
    · exact .inl hm
    · obtain ⟨h1, h2⟩ := State.inPlane_mem (by omega) hp
      exact .inr (hx.byte h1 h2)

theorem CommandDone.of_planes (hx : s.AllExist s.planesRange) (h : PlanesDone s t) : CommandDone .decodeImage s t := by
  refine ⟨h.setup, by rw [h.frame], by rw [h.frame], by rw [h.frame], by rw [h.frame], ?_, fun e => (e rfl).elim,
    fun _ => by rw [h.frame], h.wf,
    fun w a ha => h.other w a fun k hk hp => ha s.planesRange (by simp [writtenRanges]) (State.inPlane_mem hk hp), fun c hc => ?_⟩
  · rcases h.cursor_le with e | e
    · exact .inl e
    · exact .inr ⟨h.cursor_ge, e⟩
  · rcases h.entries c hc with hm | ⟨k, hk, hp⟩
    · exact .inl hm
    · obtain ⟨h1, h2⟩ := State.inPlane_mem hk hp
      exact .inr (hx.byte h1 h2)

/-- Mux after an effect of the same command. -/
theorem CommandDone.then_mux (hi : s.outputRange ∈ writtenRanges i s) (hS : 0 < s.stride) (hx : s.AllExist s.outputRange)
    (h : CommandDone i s t) : CommandDone i s (muxEffect t) := by
  have hS' : 0 < t.stride := by rw [State.setup_stride h.setup]; exact hS
  have ho := State.setup_outputRange h.setup
  refine ⟨h.setup, h.done, h.err, h.ecode, h.pending, h.cursor, h.comp, h.dataOut, fun w => muxEffect_wf (h.wf w), fun w a ha => ?_,
    fun c hc => ?_⟩
  · rw [muxEffect_other (h.wf w) fun hm => ha _ hi (by rw [← ho]; exact State.inMuxOutput_mem hS' hm), h.other w a ha]
  · rcases mem_muxEffect hc with hm | hm
    · exact h.entries c hm
    · obtain ⟨h1, h2⟩ := State.inMuxOutput_mem hS' hm
      rw [ho] at h1 h2
      exact .inr (hx.byte h1 h2)

/-- Everything the effect of a command can do once its checks hold. -/
theorem commandEffect_cases (hc : isCommand i = true) (hr : s.ready i) :
    (∃ e u, commandEffect i s = .raise e u ∧ CommandDone i s u) ∨
    (∃ u, commandEffect i s = .ok u ∧ CommandDone i s u) := by
  cases i with
  | lit n => cases hc
  | nop80 => cases hc
  | rep m => cases hc
  | nop => exact .inr ⟨s, rfl, CommandDone.refl _ s⟩
  | decodeImage =>
    obtain ⟨hg, hS, -, -, -, -, -, -, -, hx, hx'⟩ := decodeImage_ready_iff.mp hr
    rcases decodePlanes_cases hr with ⟨e, u, hu, hd⟩ | ⟨u, hu, hd, -⟩
    · exact .inl ⟨e, u, by simp only [commandEffect, decodeImageEffect, hu, Exit.andThen_raise], CommandDone.of_planes hx hd⟩
    · exact .inr ⟨_, by simp only [commandEffect, decodeImageEffect, hu, Exit.andThen_ok],
        (CommandDone.of_planes hx hd).then_mux (by simp [writtenRanges]) (by omega) hx'⟩
  | skipCounts =>
    rcases skipTable_cases s with ⟨h, e⟩ | ⟨h, e⟩
    · exact .inl ⟨_, s, e, CommandDone.refl _ s⟩
    · have hcu : (BitVec.ofNat 32 (s.cursor.toNat + s.tableLen)).toNat = s.cursor.toNat + s.tableLen :=
        toNat_ofNat_of_le h s.srcLen.isLt
      exact .inr ⟨_, e, rfl, rfl, rfl, rfl, rfl, .inr ⟨by rw [hcu]; omega, by rw [hcu]; exact h⟩, fun _ => rfl, fun _ => rfl, id,
        fun _ _ _ => rfl, fun _ h => .inl h⟩
  | rleChan ch =>
    obtain ⟨hg, hk, -, -, -, -, hx⟩ := (rleChan_ready_iff ch).mp hr
    obtain ⟨-, hp, -, h24⟩ := hg.planeLen_lt
    rcases decodePlane_cases (s := s) ch.toNat hp with ⟨e, u, hu, hd, -⟩ | ⟨u, hu, hd, -⟩
    · exact .inl ⟨e, u, hu, CommandDone.of_channels (.inr (by simp [writtenRanges])) (by omega) hx
        (ChannelsDone.of_passes (k := ch.toNat) (by omega) hd)⟩
    · have h := CommandDone.of_channels (i := .rleChan ch) (.inr (by simp [writtenRanges])) (by omega) hx
        (ChannelsDone.of_passes (k := ch.toNat) (by omega) hd)
      exact .inr ⟨_, hu, h.setup, h.done, h.err, h.ecode, h.pending, h.cursor, h.comp, h.dataOut, h.wf, h.other, h.entries⟩
  | rawChan ch =>
    obtain ⟨hg, hk, -, -, -, -, -, hx⟩ := (rawChan_ready_iff ch).mp hr
    rcases copyPlane_done ch.toNat s with ⟨_, e⟩ | ⟨u, hu, hd, -⟩
    · exact .inl ⟨_, _, e, rfl, rfl, rfl, rfl, rfl, .inl rfl, fun _ => rfl, fun _ => rfl, id, fun _ _ _ => rfl, fun _ h => .inl h⟩
    · exact .inr ⟨u, hu, CommandDone.of_channels (.inr (by simp [writtenRanges])) (by omega) hx (ChannelsDone.of_copied hd)⟩
  | mux =>
    obtain ⟨-, hS, -, -, -, -, hx⟩ := mux_ready_iff.mp hr
    exact .inr ⟨_, rfl, (CommandDone.refl _ s).then_mux (by simp [writtenRanges]) (by omega) hx⟩
  | swap16 => exact .inr ⟨_, rfl, rfl, rfl, rfl, rfl, rfl, .inl rfl, fun _ => rfl, by simp, id, fun _ _ _ => rfl, fun _ h => .inl h⟩
  | swap32 => exact .inr ⟨_, rfl, rfl, rfl, rfl, rfl, rfl, .inl rfl, fun _ => rfl, by simp, id, fun _ _ _ => rfl, fun _ h => .inl h⟩
  | swapbuf16 =>
    obtain ⟨hm, -, hx⟩ := (swapbuf_ready_iff _ 2 (by simp)).mp hr
    refine .inr ⟨_, rfl, rfl, rfl, rfl, rfl, rfl, .inl rfl, fun _ => rfl, fun _ => rfl, swapUnit16_permutes.loop_wf, fun w a ha => ?_, fun c hc => ?_⟩
    · have := ha s.swapRange (by simp [writtenRanges])
      simp only [State.swapRange] at this
      exact swapUnit16_permutes.loop_other w (by omega)
    · rcases mem_unitLoop (fun _ _ => mem_swapUnit16) hc with h | ⟨x, h, e⟩
      · exact .inl h
      · exact .inr (hx.byte (by simp only [State.swapRange]; omega) (by simp only [State.swapRange]; omega))
  | swapbuf32 =>
    obtain ⟨hm, -, hx⟩ := (swapbuf_ready_iff _ 4 (by simp)).mp hr
    refine .inr ⟨_, rfl, rfl, rfl, rfl, rfl, rfl, .inl rfl, fun _ => rfl, fun _ => rfl, swapUnit32_permutes.loop_wf, fun w a ha => ?_, fun c hc => ?_⟩
    · have := ha s.swapRange (by simp [writtenRanges])
      simp only [State.swapRange] at this
      exact swapUnit32_permutes.loop_other w (by omega)
    · rcases mem_unitLoop (fun _ _ => mem_swapUnit32) hc with h | ⟨x, h, e⟩
      · exact .inl h
      · exact .inr (hx.byte (by simp only [State.swapRange]; omega) (by simp only [State.swapRange]; omega))
  | ldbe16 =>
    rcases loadBE_cases 2 s with ⟨h, e⟩ | ⟨h, e⟩
    · exact .inl ⟨_, s, e, CommandDone.refl _ s⟩
    · have hcu := toNat_ofNat_of_le h s.srcLen.isLt
      exact .inr ⟨_, e, rfl, rfl, rfl, rfl, rfl, .inr ⟨by rw [hcu]; omega, by rw [hcu]; exact h⟩, fun _ => rfl, by simp, id,
        fun _ _ _ => rfl, fun _ h => .inl h⟩
  | ldbe32 =>
    rcases loadBE_cases 4 s with ⟨h, e⟩ | ⟨h, e⟩
    · exact .inl ⟨_, s, e, CommandDone.refl _ s⟩
    · have hcu := toNat_ofNat_of_le h s.srcLen.isLt
      exact .inr ⟨_, e, rfl, rfl, rfl, rfl, rfl, .inr ⟨by rw [hcu]; omega, by rw [hcu]; exact h⟩, fun _ => rfl, by simp, id,
        fun _ _ _ => rfl, fun _ h => .inl h⟩

/-- Everything a command's step can do (R116): it is turned away, it fails in its effect, it succeeds, or it is refused. -/
theorem exec_command_cases (hc : isCommand i = true) (s : State) :
    (∃ e, firstError (staticChecks i s) = some e ∧ exec i s = .next (s.completeErr e)) ∨
    (∃ e u, s.ready i ∧ commandEffect i s = .raise e u ∧ CommandDone i s u ∧ exec i s = .next (u.completeErr e)) ∨
    (∃ u, s.ready i ∧ commandEffect i s = .ok u ∧ CommandDone i s u ∧ exec i s = .next u.completeDone) ∨
    (firstError (staticChecks i s) = none ∧ (usedRanges i s).all s.rangeExists = false ∧
      exec i s = .refused .outsideRam) := by
  rcases exec_cases hc s with h | ⟨hr, h⟩ | h
  · exact .inl h
  · rcases commandEffect_cases hc hr with ⟨e, u, hu, hd⟩ | ⟨u, hu, hd⟩
    · exact .inr (.inl ⟨e, u, hr, hu, hd, by rw [h, hu, Exit.complete_raise]⟩)
    · exact .inr (.inr (.inl ⟨u, hr, hu, hd, by rw [h, hu, Exit.complete_ok]⟩))
  · exact .inr (.inr (.inr h))

/-! ## Which errors an effect can raise -/

/-- If the pseudocode raises, the code is none of the static checks' (R249): BAD_PARAM, ILLEGAL_CMD, ADDR_RANGE, OVERLAP. -/
def Exit.Dynamic (x : Exit) : Prop :=
  ∀ e u, x = .raise e u → e ≠ .badParam ∧ e ≠ .illegalCmd ∧ e ≠ .addrRange ∧ e ≠ .overlap

theorem Exit.dynamic_ok (s : State) : (Exit.ok s).Dynamic := by
  intro e u h
  cases h

theorem Exit.dynamic_raise {e : ErrCode} (h : e ≠ .badParam ∧ e ≠ .illegalCmd ∧ e ≠ .addrRange ∧ e ≠ .overlap) (s : State) :
    (Exit.raise e s).Dynamic := by
  intro e' u h'
  cases h'
  exact h

theorem Exit.Dynamic.andThen {x : Exit} {f : State → Exit} (hx : x.Dynamic) (hf : ∀ s, (f s).Dynamic) : (x.andThen f).Dynamic := by
  cases x with
  | ok s => exact hf s
  | raise e s => exact hx

theorem forChannels_dynamic {body : Nat → State → Exit} (h : ∀ k s, (body k s).Dynamic) (n : Nat) (s : State) :
    (forChannels n body s).Dynamic := by
  induction n with
  | zero => exact Exit.dynamic_ok s
  | succ n ih => exact ih.andThen (h n)

theorem elementPass_dynamic (s : State) : (elementPass s).Dynamic := by
  simp only [elementPass, selectElement, litEffect, repEffect, nop80Effect]
  split_ifs <;> first | exact Exit.dynamic_ok _ | exact Exit.dynamic_raise (by decide) _

theorem elementLoop_dynamic (fuel : Nat) : ∀ s, (elementLoop fuel s).Dynamic := by
  induction fuel with
  | zero => exact Exit.dynamic_ok
  | succ fuel ih =>
    intro s
    rw [elementLoop]
    split_ifs
    · exact (elementPass_dynamic s).andThen ih
    · exact Exit.dynamic_ok _

theorem decodePlane_dynamic (k : Nat) (s : State) : (decodePlane k s).Dynamic := by
  rw [decodePlane]
  exact elementLoop_dynamic _ _

theorem copyPlane_dynamic (k : Nat) (s : State) : (copyPlane k s).Dynamic := by
  rcases copyPlane_cases k s with ⟨_, e⟩ | ⟨_, e⟩ <;> rw [e]
  · exact Exit.dynamic_raise (by decide) _
  · exact Exit.dynamic_ok _

theorem skipTable_dynamic (s : State) : (skipTable s).Dynamic := by
  rcases skipTable_cases s with ⟨_, e⟩ | ⟨_, e⟩ <;> rw [e]
  · exact Exit.dynamic_raise (by decide) _
  · exact Exit.dynamic_ok _

theorem loadBE_dynamic (n : Nat) (s : State) : (loadBE n s).Dynamic := by
  rcases loadBE_cases n s with ⟨_, e⟩ | ⟨_, e⟩ <;> rw [e]
  · exact Exit.dynamic_raise (by decide) _
  · exact Exit.dynamic_ok _

theorem readCode_dynamic (s : State) : (readCode s).Dynamic := by
  rcases readCode_cases s with ⟨_, e⟩ | ⟨_, e⟩ <;> rw [e]
  · exact Exit.dynamic_raise (by decide) _
  · exact Exit.dynamic_ok _

theorem dispatchCode_dynamic (s : State) : (dispatchCode s).Dynamic := by
  simp only [dispatchCode]
  split_ifs <;> first | exact Exit.dynamic_ok _ | exact Exit.dynamic_raise (by decide) _

theorem rlePath_dynamic (s : State) : (rlePath s).Dynamic := by
  rw [rlePath]
  exact (skipTable_dynamic s).andThen fun s => forChannels_dynamic decodePlane_dynamic _ _

theorem rawPath_dynamic (s : State) : (rawPath s).Dynamic := by
  rw [rawPath]
  exact forChannels_dynamic copyPlane_dynamic _ _

theorem decodePlanes_dynamic (s : State) : (decodePlanes s).Dynamic := by
  rw [decodePlanes]
  refine (readCode_dynamic s).andThen fun s => (dispatchCode_dynamic s).andThen fun s => ?_
  split_ifs
  · exact rlePath_dynamic s
  · exact rawPath_dynamic s

/-- The effect of a command raises no static check's code. -/
theorem commandEffect_dynamic (i : Instr) (s : State) : (commandEffect i s).Dynamic := by
  cases i <;> simp only [commandEffect]
  case decodeImage =>
    rw [decodeImageEffect]
    exact (decodePlanes_dynamic s).andThen fun _ => Exit.dynamic_ok _
  case skipCounts => exact skipTable_dynamic s
  case rleChan ch => exact decodePlane_dynamic _ _
  case rawChan ch => exact copyPlane_dynamic _ _
  case ldbe16 => exact loadBE_dynamic _ _
  case ldbe32 => exact loadBE_dynamic _ _
  all_goals exact Exit.dynamic_ok _

end Sys2Proof.Machine
end

