-- ==== Sys2Proof/Laws/PerInstr.lean ====
section
/-! SUPPORT. Laws/PerInstr.lean: statements made once for each instruction. FixedBits: the encoding of a well-formed instruction has
the length and the fixed bits of its row of spec/opcode_table.json, and the row's word decodes to it. -/

namespace Sys2Proof.Laws.FixedBits

/-- A row of the opcode table: its length in bits, its mask, its match. -/
structure Row where
  nbits : Nat
  mask : Nat
  pattern : Nat
deriving DecidableEq, Repr

/-- The row of each instruction, as spec/opcode_table.json has it. -/
def row (i : Instr) : Row :=
  match i with
  | .nop => ⟨32, 0xFFFFFFFF, 0x00000000⟩
  | .decodeImage => ⟨32, 0xFFFFFFFF, 0x00000001⟩
  | .skipCounts => ⟨32, 0xFFFFFFFF, 0x00000002⟩
  | .rleChan _ => ⟨32, 0xFFFF00FF, 0x00000003⟩
  | .rawChan _ => ⟨32, 0xFFFF00FF, 0x00000004⟩
  | .mux => ⟨32, 0xFFFFFFFF, 0x00000005⟩
  | .swap16 => ⟨32, 0xFFFFFFFF, 0x00000008⟩
  | .swap32 => ⟨32, 0xFFFFFFFF, 0x00000009⟩
  | .swapbuf16 => ⟨32, 0xFFFFFFFF, 0x0000000A⟩
  | .swapbuf32 => ⟨32, 0xFFFFFFFF, 0x0000000B⟩
  | .ldbe16 => ⟨32, 0xFFFFFFFF, 0x0000000C⟩
  | .ldbe32 => ⟨32, 0xFFFFFFFF, 0x0000000D⟩
  | .lit _ => ⟨8, 0x80, 0x00⟩
  | .nop80 => ⟨8, 0xFF, 0x80⟩
  | .rep _ => ⟨8, 0x80, 0x80⟩

/-- The length in bits and the number of an encoding. -/
def number (e : Encoding) : Nat × Nat :=
  match e with
  | .command v => (32, v.toNat)
  | .control c => (8, c.toNat)

/-- The statement about an instruction. -/
def Statement (i : Instr) : Prop :=
  i.wellFormed = true →
    (number (encode i)).1 = (row i).nbits ∧ (number (encode i)).2 &&& (row i).mask = (row i).pattern ∧
    decodeTableWord (row i).nbits (number (encode i)).2 = some i

theorem nop : Statement .nop := fun _ => by decide
theorem decodeImage : Statement .decodeImage := fun _ => by decide
theorem skipCounts : Statement .skipCounts := fun _ => by decide
theorem rleChan (ch : BitVec 8) : Statement (.rleChan ch) := fun _ => by revert ch; decide
theorem rawChan (ch : BitVec 8) : Statement (.rawChan ch) := fun _ => by revert ch; decide
theorem mux : Statement .mux := fun _ => by decide
theorem swap16 : Statement .swap16 := fun _ => by decide
theorem swap32 : Statement .swap32 := fun _ => by decide
theorem swapbuf16 : Statement .swapbuf16 := fun _ => by decide
theorem swapbuf32 : Statement .swapbuf32 := fun _ => by decide
theorem ldbe16 : Statement .ldbe16 := fun _ => by decide
theorem ldbe32 : Statement .ldbe32 := fun _ => by decide
theorem lit (n : BitVec 7) : Statement (.lit n) := fun _ => by revert n; decide
theorem nop80 : Statement .nop80 := fun _ => by decide
theorem rep (m : BitVec 7) : Statement (.rep m) := by revert m; simp only [Statement]; decide

end Sys2Proof.Laws.FixedBits
end

