-- ==== Sys2Proof/Tests/Slice0.lean ====
section
/-! SUPPORT. Tests/Slice0.lean: the model's own tests. Expected values come from the spec: the encodings of 30_encoding.md, the
examples of the command rules and the vectors V<n> of 95_test_vectors.md. -/

namespace Sys2Proof.Machine.Tests

/-! Well-formedness: the one check refuses its ill-formed term. -/

theorem test_rep_zero_refused : (Instr.rep 0).wellFormed = false := by decide
theorem test_rep_one_accepted : (Instr.rep 1).wellFormed = true := by decide

/-! Decoding: words written out from R112, R118, R119, R120. -/

theorem test_decode_nop : decodeTableWord 32 0x00000000 = some .nop := by decide
theorem test_decode_decode_image : decodeTableWord 32 0x00000001 = some .decodeImage := by decide
theorem test_decode_skip_counts : decodeTableWord 32 0x00000002 = some .skipCounts := by decide
theorem test_decode_rle_chan : decodeTableWord 32 0x00000203 = some (.rleChan 2) := by decide
theorem test_decode_raw_chan : decodeTableWord 32 0x0000FF04 = some (.rawChan 255) := by decide
theorem test_decode_mux : decodeTableWord 32 0x00000005 = some .mux := by decide
theorem test_decode_swap16 : decodeTableWord 32 0x00000008 = some .swap16 := by decide
theorem test_decode_swap32 : decodeTableWord 32 0x00000009 = some .swap32 := by decide
theorem test_decode_swapbuf16 : decodeTableWord 32 0x0000000A = some .swapbuf16 := by decide
theorem test_decode_swapbuf32 : decodeTableWord 32 0x0000000B = some .swapbuf32 := by decide
theorem test_decode_ldbe16 : decodeTableWord 32 0x0000000C = some .ldbe16 := by decide
theorem test_decode_ldbe32 : decodeTableWord 32 0x0000000D = some .ldbe32 := by decide
theorem test_decode_lit : decodeTableWord 8 0b01111111 = some (.lit 127) := by decide
theorem test_decode_nop80 : decodeTableWord 8 0b10000000 = some .nop80 := by decide
theorem test_decode_rep : decodeTableWord 8 0b11111110 = some (.rep 126) := by decide

/-- V3, V4, V5: the three kinds of illegal word (R113), each rejected by its name. -/
theorem test_decode_illegal :
    (decodeCommand 0x00010003, decodeCommand 0x00000100, decodeCommand 0x00000006, decodeCommand 0x0000000E) =
      (.error .reservedBits, .error .strayChannel, .error .unassignedOp, .error .unassignedOp) := by rfl

/-! Execution. -/

/-- The start state of 95_test_vectors.md: one row, the addresses it names, the stream it shows. -/
def start (w c : Word) (stream : List Byte) : State :=
  { State.reset with
    width := w, height := 1, channels := c, depth := 8, srcAddr := 0x1000, planeAddr := 0x2000, dstAddr := 0x3000
    srcLen := BitVec.ofNat 32 stream.length, mem := Memory.writeList [] 0x1000 stream }

/-- The next state of an outcome, if it has one. -/
def after (o : Outcome) : Option State :=
  match o with
  | .next t => some t
  | .fault _ | .refused _ => none

/-- What the tests look at: STATUS, CURSOR, OUT_COUNT, CUR_CH. -/
def progress (t : State) : Word × Word × Word × BitVec 5 := (t.statusWord, t.cursor, t.outCount, t.curCh)

/-- V1, with IE = 1 as in V2 and R141's example: STATUS 2, irq 1. -/
theorem test_nop : (after (exec .nop { State.reset with ie := true })).map (fun t => (t.statusWord, t.irq)) =
    some (0x00000002, true) := by decide

/-- The same with 0xEE in the eight bytes from `a` on, so that a byte left alone shows. -/
def painted (a : Nat) (s : State) : State := { s with mem := s.mem.writeList a (List.replicate 8 0xEE) }

/-- R283, U20: no byte of memory is fixed at power-on; it reads as a constant without a body. -/
theorem test_power_on_memory_unspecified (a : Nat) : State.reset.mem.read a = Config.powerOnByte a := rfl

/-- R283: a soft reset changes no byte of memory. -/
theorem test_soft_reset_keeps_memory : ((painted 0x2000 State.reset).writeOffset 0x04 2).bytesAt 0x2000 2 = [0xEE, 0xEE] := by
  decide

/-- X4: `FE 07` with WIDTH 3. -/
theorem test_rle_rep : (after (exec (.rleChan 0) (painted 0x2000 (start 3 1 [0xFE, 0x07])))).map
    (fun t => (t.bytesAt 0x2000 4, progress t)) = some ([7, 7, 7, 0xEE], (2, 2, 3, 0)) := by decide

/-- V28: RLE_OVERRUN at the second element. -/
theorem test_rle_overrun : (after (exec (.rleChan 0) (painted 0x2000 (start 2 1 [0x00, 0x09, 0xFF, 0x07])))).map
    (fun t => (t.bytesAt 0x2000 2, progress t)) = some ([9, 0xEE], (0x504, 2, 1, 0)) := by decide

/-- P1: a full RLE image. -/
theorem test_decode_image_rle : (after (exec .decodeImage (start 2 3
      [0x00, 0x01, 0x00, 0x03, 0x00, 0x03, 0x00, 0x02, 0x01, 0xFF, 0x00, 0x01, 0x00, 0xFF, 0xFF, 0x00]))).map
    (fun t => (t.bytesAt 0x2000 6 ++ t.bytesAt 0x3000 6, progress t)) =
      some ([0xFF, 0, 0, 0xFF, 0, 0, 0xFF, 0, 0, 0, 0xFF, 0], (2, 16, 2, 2)) := by decide

/-- V53: raw planes at DEPTH 16. -/
theorem test_decode_image_raw16 : (after (exec .decodeImage
      { start 1 2 [0x00, 0x00, 0x12, 0x34, 0x56, 0x78] with depth := 16 })).map
    (fun t => (t.bytesAt 0x2000 2, t.bytesAt 0x3000 2, t.cursor)) = some ([0x12, 0x56], [0x12, 0x56], 6) := by decide

/-- V57 and V58: SKIP_COUNTS. -/
theorem test_skip_counts : (after (exec .skipCounts
      { start 1 3 [] with height := 2, cursor := 2, srcLen := 100 })).map progress = some (2, 14, 0, 0) := by decide
theorem test_skip_counts_truncated : (after (exec .skipCounts
      { start 1 3 [] with height := 2, cursor := 2, srcLen := 13 })).map progress = some (0x104, 2, 0, 0) := by decide

/-- V66: RAW_CHAN 2 from CURSOR 4. -/
theorem test_raw_chan : (after (exec (.rawChan 2) { start 2 3 [0, 0, 0, 0, 0x55, 0x66] with cursor := 4 })).map
    (fun t => (t.bytesAt 0x2004 2, progress t)) = some ([0x55, 0x66], (2, 6, 2, 2)) := by decide

/-- V65: BAD_PARAM before UNSUPPORTED_DEPTH. -/
theorem test_raw_chan_priority : (after (exec (.rawChan 1) { start 1 1 [] with depth := 12 })).map State.statusWord =
    some 0x604 := by decide

/-- V67: S = 2 leaves the odd positions. -/
theorem test_mux_stride : (after (exec .mux { start 2 2 [] with
      muxStride := 2
      mem := ((Memory.writeList [] 0x2000 [1, 2, 3, 4]).writeList 0x3000 (List.replicate 8 0xEE)) })).map
    (fun t => t.bytesAt 0x3000 8) = some [1, 0xEE, 3, 0xEE, 2, 0xEE, 4, 0xEE] := by decide

/-- V69c: ADDR_RANGE of the output. -/
theorem test_mux_addr_range : (after (exec .mux { start 2 3 [] with dstAddr := 0xFFFFFFFC })).map State.statusWord =
    some 0x804 := by decide

/-- V75 and V78. -/
theorem test_swap16 : (after (exec .swap16 { State.reset with dataIn := 0x12345678 })).map State.dataOut =
    some 0x00007856 := by decide
theorem test_swap32 : (after (exec .swap32 { State.reset with dataIn := 0x12344321 })).map State.dataOut =
    some 0x21433412 := by decide

/-- V70 and V74b: the buffer swaps, the second at an odd address. -/
theorem test_swapbuf16 : (after (exec .swapbuf16 { start 1 1 [1, 2, 3, 4] with xferLen := 4 })).map
    (fun t => t.bytesAt 0x1000 4) = some [2, 1, 4, 3] := by decide
theorem test_swapbuf32 : (after (exec .swapbuf32 { start 1 1 [0, 1, 2, 3, 4] with srcAddr := 0x1001, xferLen := 4 })).map
    (fun t => t.bytesAt 0x1000 5) = some [0, 4, 3, 2, 1] := by decide

/-- V80 and V82: the big-endian loads. -/
theorem test_ldbe16 : (after (exec .ldbe16 (start 1 1 [0x03, 0xED]))).map (fun t => (t.dataOut, t.cursor)) =
    some (0x3ED, 2) := by decide
theorem test_ldbe32 : (after (exec .ldbe32 (start 1 1 [0x38, 0x42, 0x50, 0x53]))).map (fun t => (t.dataOut, t.cursor)) =
    some (0x38425053, 4) := by decide

/-- R161's example as one element: `03 0A 14 1E 28` fetched at CURSOR; the channel does not end with its element. -/
theorem test_lit_element : (after (step { start 4 1 [0x03, 0x0A, 0x14, 0x1E, 0x28] with
      inChannel := true, cmdPending := some 0x03 })).map
    (fun t => (t.bytesAt 0x2000 4, progress t)) = some ([10, 20, 30, 40], (1, 5, 4, 0)) := by decide

/-- V25: the value byte 0x80 is data. -/
theorem test_rep_element : (after (exec (.rep 0x7F) (start 2 1 [0xFF, 0x80]))).map
    (fun t => (t.bytesAt 0x2000 2, t.cursor, t.outCount)) = some ([0x80, 0x80], 2, 2) := by decide

/-- X5: 0x80 moves CURSOR by 1 and writes nothing. -/
theorem test_nop80_element : (after (exec .nop80 (start 1 1 [0x80, 0x00, 0x05]))).map
    (fun t => (t.mem, progress t)) = some ((start 1 1 [0x80, 0x00, 0x05]).mem, (0, 1, 0, 0)) := by decide

/-! The host's port. -/

/-- V91: a CMD write while BUSY is dropped. -/
theorem test_cmd_write_dropped : ((((State.reset.writeOffset 0x0C 0).writeOffset 0x0C 1).completeDone.statusWord),
    ((State.reset.writeOffset 0x0C 0).writeOffset 0x0C 1).cmd) = (0x0000000A, 0) := by decide

/-- V94: W1C of DONE leaves an error, W1C of ERR clears it. -/
theorem test_status_w1c :
    (((State.reset.completeErr .rleOverrun).writeOffset 0x08 2).statusWord,
      ((State.reset.completeErr .rleOverrun).writeOffset 0x08 4).statusWord) = (0x504, 0) := by decide

/-- V93: the soft reset discards IE of the same write. -/
theorem test_soft_reset :
    ({ State.reset with ie := true, width := 7, muxStride := 2 }.writeOffset 0x04 3) = State.reset := by decide

/-- R85: a half-word access to the window is refused. -/
theorem test_half_access_refused :
    step { State.reset with schedule := [.regRead 0x10 .half] } = .refused .badAccess := by rfl

/-- The stream of R128's `.fill 300` and `.fill 129` (V97, V98). -/
theorem test_fill : ((Directive.fill 300 0x11).emit, (Directive.fill 129 0x07).emit) =
    ([0x81, 0x11, 0x81, 0x11, 0xD5, 0x11], [0x81, 0x07, 0x00, 0x07]) := by decide

/-! Witnesses: for every obligation with hypotheses, a state and operands that meet all of them, clause by clause at the values
where a clause begins or ends. The theorem's name ends in the obligation's. -/

/-- An open channel of RLE_CHAN 0 that stands at the first element of a stream. -/
def opened (w c : Word) (stream : List Byte) : State :=
  { start w c stream with inChannel := true, cmdPending := some 0x03 }

/-- An open channel of DECODE_IMAGE, the plane full. -/
def full (k : BitVec 5) : State := { start 2 2 [] with inChannel := true, cmdPending := some 0x01, outCount := 2, curCh := k }

/-- A one-channel image of two bytes with a literal run, code and table in front. -/
def image (code : Byte) : State := start 2 1 ([0x00, code, 0x00, 0x03] ++ [0x01, 0xAA, 0xBB])

theorem wit_illegalWordsRaiseIllegalCmd :
    State.reset.busy = false ∧ State.reset.schedule = [] ∧ 0x00010000 / 65536 ≠ 0 ∧ 0x06 % 256 = 6 ∧ 0x07 % 256 = 7 ∧
      0x0E ≤ 0x0E % 256 ∧ 0x0E ≤ 0xFF % 256 ∧ (0x100 / 256 % 256 ≠ 0 ∧ 0x100 % 256 ≠ 3 ∧ 0x100 % 256 ≠ 4) ∧
      ¬(0xFF03 / 65536 ≠ 0 ∨ 0xFF03 % 256 = 6 ∨ 0xFF03 % 256 = 7 ∨ 0x0E ≤ 0xFF03 % 256 ∨
        (0xFF03 / 256 % 256 ≠ 0 ∧ 0xFF03 % 256 ≠ 3 ∧ 0xFF03 % 256 ≠ 4)) := by decide

theorem wit_controlBytesSelectElements :
    (0x00 : Byte).toNat < 128 ∧ (0x7F : Byte).toNat < 128 ∧ 128 < (0x81 : Byte).toNat ∧ 128 < (0xFF : Byte).toNat ∧
      (0x80 : Byte).toNat = 128 := by decide

theorem wit_stepRunsAcceptedCommand :
    let s := State.reset.withCommand 0x203
    s.schedule = [] ∧ s.inChannel = false ∧ s.cmdPending = some 0x203 ∧ decodeCommand 0x203 = .ok (.rleChan 2) := ⟨rfl, rfl, rfl, rfl⟩

theorem wit_stepRunsNextElement :
    let s := opened 2 1 [0x01, 0xAA, 0xBB]
    s.schedule = [] ∧ s.inChannel = true ∧ s.acceptedCommand = some (.rleChan 0) ∧ decodesChannels (.rleChan 0) = true ∧
      s.ready (.rleChan 0) ∧ s.curCh.toNat < s.chanCount ∧ s.outCount.toNat < s.planeLen ∧ s.cursor.toNat < s.srcLen.toNat := by
  decide

theorem wit_stepEndsChannel :
    (let s := opened 2 1 [];
      s.schedule = [] ∧ s.inChannel = true ∧ s.acceptedCommand = some (.rleChan 0) ∧ decodesChannels (.rleChan 0) = true ∧
        s.ready (.rleChan 0) ∧ s.curCh.toNat < s.chanCount ∧ s.outCount.toNat < s.planeLen ∧ s.srcLen.toNat ≤ s.cursor.toNat) ∧
    (let s := { opened 2 1 [] with outCount := 2 };
      s.acceptedCommand = some (.rleChan 0) ∧ s.ready (.rleChan 0) ∧ s.planeLen ≤ s.outCount.toNat) ∧
    (let s := full 0;
      s.schedule = [] ∧ s.inChannel = true ∧ s.acceptedCommand = some .decodeImage ∧ s.ready .decodeImage ∧
        s.planeLen ≤ s.outCount.toNat ∧ s.curCh.toNat + 1 < s.chanCount) ∧
    (let s := full 1;
      s.ready .decodeImage ∧ s.curCh.toNat < s.chanCount ∧ s.planeLen ≤ s.outCount.toNat ∧
        s.chanCount ≤ s.curCh.toNat + 1 ∧ s.mem.wf) := by decide

theorem wit_stepTakesMovesInOrder :
    { State.reset with schedule := [.memRead 0, .hardReset] }.schedule = .memRead 0 :: [.hardReset] ∧
      State.reset.schedule = [] ∧ State.reset.cmdPending = none := by decide

theorem wit_badParamChecks :
    ¬(start 0 1 []).GeomLegal ∧ ¬(start 30001 1 []).GeomLegal ∧ ¬(start 1 25 []).GeomLegal ∧ ¬(start 1 0 []).GeomLegal ∧
      ¬({ start 1 1 [] with height := 30001 }.GeomLegal) ∧ (start 30000 24 []).GeomLegal ∧
      ¬((0 : Word).toNat = 1 ∨ (0 : Word).toNat = 2) ∧ ¬((3 : Word).toNat = 1 ∨ (3 : Word).toNat = 2) ∧
      (start 1 2 []).channels.toNat ≤ (2 : BitVec 8).toNat ∧
      { State.reset with xferLen := 3 }.xferLen.toNat % 2 ≠ 0 ∧ { State.reset with xferLen := 6 }.xferLen.toNat % 4 ≠ 0 ∧
      isCommand .mux = true ∧ (start 0 1 []).err = false ∧
      (after (exec .mux (start 0 1 []))).map (fun t => (t.err, t.ecode)) = some (true, 6) := by decide

theorem wit_addressRangeChecks :
    (let s := { start 2 3 [] with srcAddr := 0xFFFFFFFF, srcLen := 2 };
      s.GeomLegal ∧ 2 ^ 32 < s.srcAddr.toNat + s.srcLen.toNat ∧ (2 : BitVec 8).toNat < s.channels.toNat ∧ s.depth.toNat = 8 ∧
        s.muxStride.toNat = 1) ∧
    (let s := { start 2 3 [] with planeAddr := 0xFFFFFFFB };
      s.GeomLegal ∧ 2 ^ 32 < s.planeAddr.toNat + s.channels.toNat * (s.width.toNat * s.height.toNat)) ∧
    (let s := { start 2 3 [] with dstAddr := 0xFFFFFFFB };
      s.GeomLegal ∧ 2 ^ 32 < s.dstAddr.toNat + s.width.toNat * s.height.toNat * s.channels.toNat * s.muxStride.toNat) ∧
    (let s := { State.reset with srcAddr := 0xFFFFFFFD, xferLen := 4, srcLen := 4 };
      2 ^ 32 < s.srcAddr.toNat + s.xferLen.toNat ∧ s.xferLen.toNat % 2 = 0 ∧ s.xferLen.toNat % 4 = 0 ∧
        2 ^ 32 < s.srcAddr.toNat + s.srcLen.toNat) := by decide

theorem wit_overlapChecks :
    let s := { start 2 3 [0x00, 0x00] with planeAddr := 0x1001, dstAddr := 0x1006 }
    let stream : Range := ⟨s.srcAddr.toNat, s.srcLen.toNat⟩
    let planes : Range := ⟨s.planeAddr.toNat, s.channels.toNat * (s.width.toNat * s.height.toNat)⟩
    let output : Range := ⟨s.dstAddr.toNat, s.width.toNat * s.height.toNat * s.channels.toNat * s.muxStride.toNat⟩
    s.GeomLegal ∧ planes.base + planes.len ≤ 2 ^ 32 ∧ stream.base + stream.len ≤ 2 ^ 32 ∧ ¬stream.Apart planes ∧
      (0 : BitVec 8).toNat < s.channels.toNat ∧ s.depth.toNat = 8 ∧ s.muxStride.toNat = 1 ∧
      output.base + output.len ≤ 2 ^ 32 ∧ ¬planes.Apart output := by decide

theorem wit_rangesOutsideRamRefused :
    let s := { start 2 1 [0x01, 0xAA, 0xBB] with ramHoles := [⟨0x2001, 1⟩] }
    isCommand (.rleChan 0) = true ∧ firstError (staticChecks (.rleChan 0) s) = none ∧
      s.planesRange ∈ usedRanges (.rleChan 0) s ∧ 1 < s.planesRange.len ∧ s.byteExists (s.planesRange.base + 1) = false := by decide

theorem wit_skipCountsMovesCursor :
    ¬(start 0 1 []).GeomLegal ∧
    (let s := { start 2 1 [] with srcAddr := 0xFFFFFFFF, srcLen := 2 };
      s.GeomLegal ∧ 2 ^ 32 < s.srcAddr.toNat + s.srcLen.toNat) ∧
    (let s := start 2 1 [0x00];
      s.GeomLegal ∧ s.srcAddr.toNat + s.srcLen.toNat ≤ 2 ^ 32 ∧
        s.srcLen.toNat < s.cursor.toNat + 2 * s.height.toNat * s.channels.toNat) ∧
    (let s := start 2 1 [0x00, 0x03];
      s.GeomLegal ∧ s.srcAddr.toNat + s.srcLen.toNat ≤ 2 ^ 32 ∧
        s.cursor.toNat + 2 * s.height.toNat * s.channels.toNat ≤ s.srcLen.toNat) := by decide

theorem wit_swapbuf16ReversesUnits :
    let s := { start 1 1 [1, 2, 3, 4] with xferLen := 4 }
    s.mem.wf ∧ { s with xferLen := 3 }.xferLen.toNat % 2 ≠ 0 ∧ s.xferLen.toNat % 2 = 0 ∧
      2 ^ 32 < { s with srcAddr := 0xFFFFFFFF, xferLen := 2 }.srcAddr.toNat + 2 ∧
      s.AllExist ⟨s.srcAddr.toNat, s.xferLen.toNat⟩ := by decide

theorem wit_swapbuf32ReversesUnits :
    let s := { start 1 1 [1, 2, 3, 4] with xferLen := 4 }
    s.mem.wf ∧ { s with xferLen := 6 }.xferLen.toNat % 4 ≠ 0 ∧ s.xferLen.toNat % 4 = 0 ∧
      2 ^ 32 < { s with srcAddr := 0xFFFFFFFD, xferLen := 4 }.srcAddr.toNat + 4 ∧
      s.AllExist ⟨s.srcAddr.toNat, s.xferLen.toNat⟩ := by decide

theorem wit_ldbe16LoadsBigEndian :
    let s := start 1 1 [0x03, 0xED]
    2 ^ 32 < { s with srcAddr := 0xFFFFFFFF }.srcAddr.toNat + s.srcLen.toNat ∧ s.AllExist ⟨s.srcAddr.toNat, s.srcLen.toNat⟩ ∧
      s.srcLen.toNat < (1 : Word).toNat + 2 ∧ s.cursor.toNat + 2 ≤ s.srcLen.toNat := by decide

theorem wit_ldbe32LoadsBigEndian :
    let s := start 1 1 [0x38, 0x42, 0x50, 0x53]
    2 ^ 32 < { s with srcAddr := 0xFFFFFFFD }.srcAddr.toNat + s.srcLen.toNat ∧ s.AllExist ⟨s.srcAddr.toNat, s.srcLen.toNat⟩ ∧
      s.srcLen.toNat < (1 : Word).toNat + 4 ∧ s.cursor.toNat + 4 ≤ s.srcLen.toNat := by decide

theorem wit_swapsAreInvolutions :
    (∃ t u, exec .swapbuf16 { start 1 1 [1, 2] with xferLen := 2 } = .next t ∧ exec .swapbuf16 t = .next u) ∧
    (∃ t u, exec .swapbuf32 { start 1 1 [1, 2, 3, 4] with xferLen := 4 } = .next t ∧ exec .swapbuf32 t = .next u) ∧
    (start 1 1 [1, 2, 3, 4]).mem.wf ∧ (start 1 1 [1, 2, 3, 4]).ready .ldbe16 ∧
    (start 1 1 [1, 2, 3, 4]).cursor.toNat + 4 ≤ (start 1 1 [1, 2, 3, 4]).srcLen.toNat :=
  ⟨⟨_, _, rfl, rfl⟩, ⟨_, _, rfl, rfl⟩, by decide, by decide, by decide⟩

theorem wit_litCopiesItsRun :
    (opened 2 1 [0x01, 0xAA]).mem.wf ∧ (opened 2 1 [0x01, 0xAA]).atElement ∧ 2 < 0 + 1 + 2 ∧
      (opened 1 1 [0x01, 0xAA, 0xBB]).atElement ∧ 0 + 1 + 2 ≤ (opened 1 1 [0x01, 0xAA, 0xBB]).srcLen.toNat ∧
      (opened 1 1 [0x01, 0xAA, 0xBB]).planeLen < 0 + 2 ∧
      (opened 2 1 [0x01, 0xAA, 0xBB]).atElement ∧ 0 + 2 ≤ (opened 2 1 [0x01, 0xAA, 0xBB]).planeLen := by decide

theorem wit_repRepeatsItsByte :
    (0x7F : BitVec 7) ≠ 0 ∧ (opened 2 1 [0xFF]).mem.wf ∧ (opened 2 1 [0xFF]).atElement ∧ (opened 2 1 [0xFF]).srcLen.toNat < 0 + 2 ∧
      (opened 1 1 [0xFF, 0x07]).atElement ∧ (opened 1 1 [0xFF, 0x07]).planeLen < 0 + (257 - (128 + 0x7F)) ∧
      (opened 2 1 [0xFF, 0x07]).atElement ∧ 0 + 2 ≤ (opened 2 1 [0xFF, 0x07]).srcLen.toNat ∧
      0 + (257 - (128 + 0x7F)) ≤ (opened 2 1 [0xFF, 0x07]).planeLen := by decide

theorem wit_nop80MovesCursor : (opened 1 1 [0x80]).atElement := by decide

theorem wit_elementLengths :
    let s := opened 2 1 [0x00, 0xAA]
    s.atElement ∧ s.busy = true ∧ ((after (exec (decodeElement 0x00) s)).map State.busy) = some true := by decide

theorem wit_rleChanDecodesItsStream :
    let ds : List Directive := [.nop80, .lit [0xAA], .fill 1 0xBB]
    let s := start 2 1 (streamOf ds)
    s.mem.wf ∧ s.ready (.rleChan 0) ∧ fillsChannel s.planeLen ds ∧ s.streamHolds s.cursor.toNat (streamOf ds) := by decide

theorem wit_rleChanIsElementwise :
    let s := { start 2 1 [0x01, 0xAA, 0xBB] with cmdPending := some 0x03 }
    s.schedule = [] ∧ s.acceptedCommand = some (.rleChan 0) ∧ s.ready (.rleChan 0) := by decide

/-- Both errors after a literal run, TRUNCATED in an empty stream and with CURSOR past it, and the failures that the second clause speaks of. -/
theorem wit_rleChanErrorsPrecise :
    (let s := start 2 1 [0x00, 0x09, 0xFF];
      s.mem.wf ∧ s.ready (.rleChan 0) ∧ s.failsAfter s.cursor.toNat [.lit [0x09]] 1 ∧ s.err = false ∧
        (after (exec (.rleChan 0) s)).map (fun t => (t.err, t.ecode)) = some (true, 1)) ∧
    (let s := start 2 1 [0x00, 0x09, 0xFF, 0x07];
      s.mem.wf ∧ s.ready (.rleChan 0) ∧ s.failsAfter s.cursor.toNat [.lit [0x09]] 5 ∧ s.err = false ∧
        (after (exec (.rleChan 0) s)).map (fun t => (t.err, t.ecode)) = some (true, 5)) ∧
    (let s := start 2 1 [];
      s.mem.wf ∧ s.ready (.rleChan 0) ∧ s.failsAfter s.cursor.toNat [] 1 ∧ { s with cursor := 7 }.failsAfter 7 [] 1) ∧
    (start 2 1 [0x02, 0x01, 0x02, 0x03]).failsAfter 0 [] 5 :=
  ⟨⟨by decide, by decide, by decide, by decide⟩, ⟨by decide, by decide, by decide, by decide⟩,
    ⟨by decide, by decide, by decide, by decide⟩, by decide⟩

theorem wit_channelCommandsFrame :
    (start 1 1 [0x00, 0x09]).mem.wf ∧ (∃ t, exec (.rleChan 0) (start 1 1 [0x00, 0x09]) = .next t) ∧
      ∃ t, exec (.rawChan 0) (start 1 1 [0x00, 0x09]) = .next t := ⟨by decide, ⟨_, rfl⟩, ⟨_, rfl⟩⟩

theorem wit_elementFrame :
    (opened 1 1 [0x00, 0x09]).mem.wf ∧ (∃ t, exec (decodeElement 0x00) (opened 1 1 [0x00, 0x09]) = .next t ∧ t.busy = true) ∧
      ∃ t, exec (decodeElement 0xFF) (opened 1 1 [0xFF, 0x09]) = .next t ∧ t.busy = false :=
  ⟨by decide, ⟨_, rfl, by decide⟩, ⟨_, rfl, by decide⟩⟩

theorem wit_rawChanCopiesPlane :
    (let s := { start 2 2 [] with depth := 12 };
      s.GeomLegal ∧ (1 : BitVec 8).toNat < s.channels.toNat ∧ s.depth.toNat ≠ 8 ∧ s.depth.toNat ≠ 16) ∧
    (let s := { start 1 1 [0x12] with depth := 16 };
      s.mem.wf ∧ s.ready (.rawChan 0) ∧ s.srcLen.toNat < s.cursor.toNat + s.width.toNat * s.height.toNat * (s.depth.toNat / 8)) ∧
    (let s := { start 1 1 [0x12, 0x34] with depth := 16 };
      s.mem.wf ∧ s.ready (.rawChan 0) ∧
        s.cursor.toNat + s.width.toNat * s.height.toNat * (s.depth.toNat / 8) ≤ s.srcLen.toNat) := by decide

theorem wit_muxInterleavesPlanes : (start 2 2 []).mem.wf ∧ (start 2 2 []).ready .mux := by decide

theorem wit_muxPositionsDistinct :
    let s := start 2 2 []
    s.GeomLegal ∧ s.muxStride.toNat = 1 ∧ s.mem.wf ∧ { s with muxStride := 2 }.ready .mux ∧
      ∃ t, exec .mux { s with muxStride := 2 } = .next t := ⟨by decide, by decide, by decide, by decide, ⟨_, rfl⟩⟩

theorem wit_bufferCommandsFrame :
    (start 1 1 [1, 2, 3, 4]).mem.wf ∧ (∃ t, exec .mux (start 1 1 [1, 2, 3, 4]) = .next t) ∧
      (∃ t, exec .swapbuf16 { start 1 1 [1, 2, 3, 4] with xferLen := 4 } = .next t) ∧
      ∃ t, exec .swapbuf32 { start 1 1 [1, 2, 3, 4] with xferLen := 4 } = .next t :=
  ⟨by decide, ⟨_, rfl⟩, ⟨_, rfl⟩, ⟨_, rfl⟩⟩

theorem wit_registerCommandsFrame :
    let s := start 1 1 [1, 2, 3, 4]
    (∃ t, exec .nop s = .next t) ∧ (∃ t, exec .skipCounts s = .next t) ∧ (∃ t, exec .swap16 s = .next t) ∧
      (∃ t, exec .swap32 s = .next t) ∧ (∃ t, exec .ldbe16 s = .next t) ∧ ∃ t, exec .ldbe32 s = .next t :=
  ⟨⟨_, rfl⟩, ⟨_, rfl⟩, ⟨_, rfl⟩, ⟨_, rfl⟩, ⟨_, rfl⟩, ⟨_, rfl⟩⟩

theorem wit_decodeImageDispatchErrors :
    (let s := start 2 1 [0x00];
      s.ready .decodeImage ∧ s.srcLen.toNat < s.cursor.toNat + 2) ∧
    (let code := fun s : State => (s.srcByte s.cursor.toNat).toNat * 256 + (s.srcByte (s.cursor.toNat + 1)).toNat;
      ((image 2).ready .decodeImage ∧ (image 2).cursor.toNat + 2 ≤ (image 2).srcLen.toNat ∧ code (image 2) = 2) ∧
      code (image 3) = 3 ∧ 4 ≤ code (image 4) ∧ code (image 0) = 0 ∧ { image 0 with depth := 12 }.ready .decodeImage) ∧
    (let s := start 2 1 [0x00, 0x01, 0x00];
      s.ready .decodeImage ∧ s.depth.toNat = 8 ∧ s.cursor.toNat + 2 ≤ s.srcLen.toNat ∧
        s.srcLen.toNat < s.cursor.toNat + 2 + 2 * s.height.toNat * s.channels.toNat) := by decide

/-- A raw image of two 16-bit channels whose second plane is one byte short, and one whose first plane is. -/
theorem wit_decodeImageRawErrors :
    (let s := { start 1 2 [0x00, 0x00, 0x12, 0x34, 0x56] with depth := 16 };
      s.ready .decodeImage ∧ s.depth.toNat = 16 ∧ s.mem.wf ∧ 1 < s.chanCount ∧
        (s.srcByte s.cursor.toNat).toNat * 256 + (s.srcByte (s.cursor.toNat + 1)).toNat = 0 ∧
        s.cursor.toNat + 2 + 1 * (s.planeLen * (s.depth.toNat / 8)) ≤ s.srcLen.toNat ∧
        s.srcLen.toNat < s.cursor.toNat + 2 + (1 + 1) * (s.planeLen * (s.depth.toNat / 8))) ∧
    (let s := { start 1 2 [0x00, 0x00, 0x12] with depth := 16 };
      s.ready .decodeImage ∧ s.mem.wf ∧ 0 < s.chanCount ∧ s.cursor.toNat + 2 + 0 * (s.planeLen * (s.depth.toNat / 8)) ≤ s.srcLen.toNat ∧
        s.srcLen.toNat < s.cursor.toNat + 2 + (0 + 1) * (s.planeLen * (s.depth.toNat / 8))) := by decide

/-- An RLE image of two channels whose second overruns after a no-op, and is cut off there. -/
theorem wit_decodeImageRleErrors :
    let table : List Byte := [0x00, 0x02, 0x00, 0x02]
    let before := [0x00, 0x01] ++ table ++ streamOf [[.lit [0xAA]]].flatten
    (let s := start 1 2 (before ++ [0x80, 0xFF, 0x07]);
      s.ready .decodeImage ∧ s.depth.toNat = 8 ∧ s.mem.wf ∧ table.length = s.tableLen ∧ [[Directive.lit [0xAA]]].length < s.chanCount ∧
        (∀ x ∈ [[Directive.lit [0xAA]]], fillsChannel s.planeLen x) ∧ s.streamHolds s.cursor.toNat before ∧
        s.failsAfter (s.cursor.toNat + before.length) [.nop80] 5) ∧
    (let s := start 1 2 (before ++ [0x80]);
      s.ready .decodeImage ∧ s.depth.toNat = 8 ∧ s.mem.wf ∧ s.streamHolds s.cursor.toNat before ∧
        s.failsAfter (s.cursor.toNat + before.length) [.nop80] 1) :=
  ⟨⟨by decide, by decide, by decide, by decide, by decide, by decide, by decide, by decide⟩,
    ⟨by decide, by decide, by decide, by decide, by decide⟩⟩

theorem wit_decodeImageRestoresRleImage :
    let s := image 1
    let ds : List Directive := [.lit [0xAA, 0xBB]]
    s.mem.wf ∧ s.ready .decodeImage ∧ s.depth.toNat = 8 ∧ [0x00, 0x03].length = s.tableLen ∧ [ds].length = s.chanCount ∧
      fillsChannel s.planeLen ds ∧ s.streamHolds s.cursor.toNat ([0x00, 0x01] ++ [0x00, 0x03] ++ streamOf [ds].flatten) := by decide

theorem wit_decodeImageRestoresRawImage :
    let s := { start 1 2 [0x00, 0x00, 0x12, 0x34, 0x56, 0x78] with depth := 16 }
    s.mem.wf ∧ s.ready .decodeImage ∧ s.depth.toNat = 16 ∧ s.srcByte s.cursor.toNat = 0 ∧ s.srcByte (s.cursor.toNat + 1) = 0 ∧
      s.cursor.toNat + 2 + s.chanCount * (s.planeLen * (s.depth.toNat / 8)) ≤ s.srcLen.toNat := by decide

theorem wit_failedDecodeKeepsOutput :
    let s := image 2
    s.mem.wf ∧ s.err = false ∧ (after (exec .decodeImage s)).map State.err = some true := by decide

theorem wit_successfulDecodeResults :
    let s := image 1
    s.mem.wf ∧ s.done = false ∧ (after (exec .decodeImage s)).map State.done = some true := by decide

theorem wit_decodeImageFrame : (image 1).mem.wf ∧ ∃ t, exec .decodeImage (image 1) = .next t := ⟨by decide, ⟨_, rfl⟩⟩

theorem wit_everyCommandCompletes : isCommand .mux = true ∧ isCommand (.rleChan 255) = true := by decide

theorem wit_cursorStaysInStream :
    isCommand .ldbe16 = true ∧ ∃ t, exec .ldbe16 (start 1 1 [1, 2]) = .next t := ⟨rfl, ⟨_, rfl⟩⟩

theorem wit_configurationNeverWritten :
    (∃ t, exec .decodeImage (image 1) = .next t) ∧ (∃ t, exec (.lit 0) (opened 1 1 [0x00, 0x09]) = .next t) ∧
      Instr.nop ≠ .decodeImage ∧ Instr.nop ∉ [Instr.swap16, .swap32, .ldbe16, .ldbe32] :=
  ⟨⟨_, rfl⟩, ⟨_, rfl⟩, by decide, by decide⟩

theorem wit_resetValues : RegName.cmd ≠ .id ∧ RegName.cmd ≠ .muxStride := by decide

theorem wit_windowAccesses :
    { State.reset with schedule := [.secondHost] }.schedule = .secondHost :: [] ∧
    (let s := { State.reset with regBase := 0x40000000, schedule := [.regRead 0x40000100 .word] };
      s.regBase.toNat + 0x100 ≤ (0x40000100 : Word).toNat ∧ (0x3FFFFFFF : Word).toNat < s.regBase.toNat ∧
        s.schedule = .regRead 0x40000100 .word :: []) ∧
    (let s := { State.reset with regBase := 0x40000000, schedule := [.regWrite 0x400000FC .word 7] };
      (0x400000FC : Word).toNat = s.regBase.toNat + 0xFC ∧ 0xFC < 0x100 ∧ 0xFC % 4 = 0 ∧
        s.schedule = .regWrite 0x400000FC .word 7 :: []) ∧
    ¬(AccessSize.half = .word ∧ 0xFC % 4 = 0) ∧ ¬(AccessSize.word = .word ∧ 0x02 % 4 = 0) := by decide

theorem wit_idleWritesStore :
    State.reset.busy = false ∧ RegName.ctrl ≠ .width ∧ 0x50 ≤ 0x50 ∧ 0x50 % 4 = 0 ∧ 0xFC < 0x100 ∧ 0xFC % 4 = 0 := by decide

theorem wit_ctrlWrites :
    State.reset.busy = false ∧ (1 : Word).getLsbD 1 = false ∧ (3 : Word).getLsbD 1 = true ∧ RegName.cmd ≠ .id ∧
      RegName.cmd ≠ .muxStride := by decide

theorem wit_statusReadsAndClears : State.reset.busy = false := by decide

theorem wit_busyWritesIgnored : (State.reset.withCommand 0).busy = true := by decide

theorem wit_readsHaveNoSideEffect :
    State.reset.busy = false ∧ RegName.status ∉ [RegName.comp, .cursor, .dataOut, .outCount, .curCh] := by decide

theorem wit_irqIsCompletionLevel :
    State.reset.busy = false ∧ { State.reset with ie := true, done := true }.irq = true := by decide

theorem wit_hostMemoryAccesses :
    (let s := { opened 2 1 [0x01, 0xAA, 0xBB] with schedule := [.memWrite 0x2000 0x55] };
      s.acceptedCommand = some (.rleChan 0) ∧ firstError (staticChecks (.rleChan 0) s) = none ∧
        s.planesRange ∈ usedRanges (.rleChan 0) s ∧ s.planesRange.base ≤ 0x2000 ∧ 0x2000 < s.planesRange.base + s.planesRange.len) ∧
    (let s := { opened 2 1 [0x01, 0xAA, 0xBB] with schedule := [.memWrite 0x2002 0x55] };
      s.acceptedCommand = some (.rleChan 0) ∧
        (∀ r ∈ usedRanges (.rleChan 0) s, 0x2002 < r.base ∨ r.base + r.len ≤ 0x2002) ∧ s.byteExists 0x2002 = true ∧ s.mem.wf) := by
  decide

theorem wit_hardResetResets :
    let s := { opened 2 1 [0x01, 0xAA, 0xBB] with schedule := [.hardReset] }
    s.schedule = .hardReset :: [] ∧ s.mem.wf ∧ s.acceptedRanges writtenRanges = [s.planesRange] ∧ State.reset.busy = false := by decide

theorem wit_busyFreezesConfiguration :
    let s := opened 2 1 [0x01, 0xAA, 0xBB]
    (∃ t, step s = .next t) ∧ s.busy = true ∧ ∀ rest, s.schedule ≠ .hardReset :: rest := ⟨⟨_, rfl⟩, by decide, nofun⟩

theorem wit_registerMovesKeepMemory :
    let s := { State.reset with schedule := [.memWrite 0x10 0x55] }
    s.schedule = .memWrite 0x10 0x55 :: [] ∧ (after (step s)).map (fun t => decide (t.mem ≠ s.mem)) = some true := by decide

theorem wit_commandIsOneStep :
    let s := State.reset.withCommand 0
    s.schedule = [] ∧ s.inChannel = false ∧ ∃ t, step s = .next t := ⟨rfl, rfl, ⟨_, rfl⟩⟩

theorem wit_stepKeepsInvariant :
    let s := opened 2 1 [0x01, 0xAA, 0xBB]
    s.Inv ∧ ∃ t, step s = .next t := by
  refine ⟨⟨by simp only [State.MemoryOk]; decide, by simp only [State.StatusOk]; decide, fun _ => ⟨.rleChan 0, by decide, rfl⟩⟩, ⟨_, rfl⟩⟩

end Sys2Proof.Machine.Tests
end

/-! Rules of the register window (10_state.md): which register stands at an offset, what a write at an offset does while BUSY and
while idle, the registers after a reset, and irq. Then the obligations on CTRL, on writes while BUSY and on irq. -/

namespace Sys2Proof.Machine

/-- The offsets of R32 are all different, so a register is found at its own. -/
@[simp] theorem regAt_offset (r : RegName) : regAt r.offset = some r := by cases r <;> rfl

theorem regAt_eq_some_iff {off : Nat} {r : RegName} : regAt off = some r ↔ off = r.offset := by
  constructor
  · intro h
    have hoff : (r.offset == off) = true := List.find?_some (p := fun r : RegName => r.offset == off) h
    exact (beq_iff_eq.mp hoff).symm
  · rintro rfl
    exact regAt_offset r

/-- R55: the only offset at which a write while BUSY does anything is CMD's. -/
theorem State.writeOffset_of_busy {s : State} (h : s.busy = true) (off : Nat) (v : Word) :
    s.writeOffset off v = if off = RegName.cmd.offset then { s with drop := true } else s := by
  by_cases hoff : off = RegName.cmd.offset
  · subst hoff
    simp only [State.writeOffset, h, regAt_offset, if_true]
  · have hcmd : regAt off ≠ some .cmd := fun hat => hoff (regAt_eq_some_iff.mp hat)
    -- `hcmd` decides the match on `regAt off`: simp takes it from the context.
    simp only [State.writeOffset, h, if_neg hoff]

/-- R54: while BUSY = 0 a write at a register's offset is that register's write. -/
theorem State.writeOffset_of_idle {s : State} (h : s.busy = false) (r : RegName) (v : Word) :
    s.writeOffset r.offset v = s.writeReg r v := by
  simp only [State.writeOffset, h, regAt_offset]

/-! ## CTRL and the soft reset -/

theorem State.writeCtrl_of_bit1_clear (s : State) {v : Word} (h : v.getLsbD 1 = false) :
    s.writeCtrl v = { s with ie := v.getLsbD 0 } :=
  if_neg (ne_true_of_eq_false h)

theorem State.writeCtrl_of_bit1_set (s : State) {v : Word} (h : v.getLsbD 1 = true) : s.writeCtrl v = s.resetRegs :=
  if_pos h

theorem State.ctrlWord_eq (s : State) : s.ctrlWord = if s.ie then 1 else 0 := by
  cases h : s.ie <;> simp [State.ctrlWord, h]

theorem State.regValue_resetRegs (s : State) (r : RegName) : s.resetRegs.regValue r = State.reset.regValue r := by
  cases r <;> rfl

/-- R60: ID is a constant and MUX_STRIDE resets to 1; every other register resets to 0. -/
theorem State.regValue_reset {r : RegName} (hid : r ≠ .id) (hstride : r ≠ .muxStride) : State.reset.regValue r = 0 := by
  cases r
  case id => exact absurd rfl hid
  case muxStride => exact absurd rfl hstride
  all_goals rfl

/-! ## irq -/

theorem State.irq_iff (s : State) : s.irq = true ↔ s.ie = true ∧ (s.done = true ∨ s.err = true) := by simp [State.irq]

theorem State.irq_of_ie_clear {s : State} (h : s.ie = false) : s.irq = false := by simp [State.irq, h]

theorem State.irq_of_no_completion {s : State} (hdone : s.done = false) (herr : s.err = false) : s.irq = false := by
  simp [State.irq, hdone, herr]

/-! ## The obligations -/

/-- Settles O49: a CTRL write while BUSY = 0 is `writeCtrl`, and a soft reset is `resetRegs`, whose registers are those of the
reset state. -/
theorem ctrlWrites : Obligations.CtrlWrites := by
  intro s v hidle
  have hwrite : s.writeOffset 0x04 v = s.writeCtrl v := State.writeOffset_of_idle hidle .ctrl v
  rw [hwrite]
  refine ⟨s.writeCtrl_of_bit1_clear, fun hbit => ?_, s.ctrlWord_eq⟩
  rw [s.writeCtrl_of_bit1_set hbit]
  refine ⟨s.regValue_resetRegs .muxStride, fun r hid hstride => ?_, State.irq_of_ie_clear rfl, s.resetRegs_mem⟩
  rw [s.regValue_resetRegs, State.regValue_reset hid hstride]

/-- Settles O51: 0x0C is the offset of CMD. -/
theorem busyWritesIgnored : Obligations.BusyWritesIgnored :=
  fun _ off v hbusy => State.writeOffset_of_busy hbusy off v

/-- Settles O53: acceptance and a STATUS write of 6 leave neither DONE nor ERR set, a CTRL write of 0 clears IE, and irq is made
of these three bits alone. -/
theorem irqIsCompletionLevel : Obligations.IrqIsCompletionLevel := by
  intro s v
  refine ⟨s.irq_iff, fun hidle => ?_, rfl⟩
  have haccept : s.writeOffset 0x0C v = s.accept v := State.writeOffset_of_idle hidle .cmd v
  have hctrl : s.writeOffset 0x04 0 = s.writeCtrl 0 := State.writeOffset_of_idle hidle .ctrl 0
  have hstatus : s.writeOffset 0x08 6 = s.writeStatus 6 := State.writeOffset_of_idle hidle .status 6
  rw [haccept, hctrl, hstatus, s.writeCtrl_of_bit1_clear (v := 0) rfl]
  refine ⟨State.irq_of_no_completion rfl rfl, State.irq_of_ie_clear rfl, ?_⟩
  exact State.irq_of_no_completion (by simp) (by simp)

end Sys2Proof.Machine

/-! The decoder of command words, said once: which words it refuses (R113) and that every other word is the encoding of what it
decodes to (R115). The sequencer's step of an illegal word (R245). Then the obligation on illegal words. -/

namespace Sys2Proof

theorem exists_withoutChannel_eq_error_iff {ch : BitVec 8} {i : Instr} : (∃ e, withoutChannel ch i = .error e) ↔ ch.toNat ≠ 0 := by
  unfold withoutChannel
  split
  next h => simp [h]
  next h => simpa using fun h0 => h (BitVec.eq_of_toNat_eq h0)

theorem withoutChannel_eq_ok_iff {ch : BitVec 8} {i j : Instr} : withoutChannel ch i = .ok j ↔ ch = 0 ∧ i = j := by
  unfold withoutChannel
  split
  next h => simp [h]
  next h => exact iff_of_false nofun fun hok => h hok.1

theorem decodeCommand_of_rsv {v : Word} (h : rsvField v ≠ 0) : decodeCommand v = .error .reservedBits := if_pos h

/-- R113: the illegal words are those of (a) RSV, (b) an unassigned OP and (c) a stray CH. -/
theorem exists_decodeCommand_eq_error_iff (v : Word) :
    (∃ e, decodeCommand v = .error e) ↔
      (rsvField v).toNat ≠ 0 ∨ (opField v).toNat = 6 ∨ (opField v).toNat = 7 ∨ 0x0E ≤ (opField v).toNat ∨
        ((chField v).toNat ≠ 0 ∧ (opField v).toNat ≠ 3 ∧ (opField v).toNat ≠ 4) := by
  by_cases hrsv : rsvField v = 0
  · have h0 : (rsvField v).toNat = 0 := by rw [hrsv]; rfl
    unfold decodeCommand
    rw [if_neg (not_not.mpr hrsv)]
    split
    case h_1 hop | h_2 hop => simp [h0, hop]
    case h_13 =>
      refine iff_of_true ⟨_, rfl⟩ ?_
      -- The twelve assigned OPs are refuted in the context as `op = n → False`, a form omega does not read.
      simp only [imp_false] at *
      omega
    all_goals
      next hop =>
      rw [exists_withoutChannel_eq_error_iff, h0, hop]
      simp
  · have h0 : (rsvField v).toNat ≠ 0 := fun h0 => hrsv (BitVec.eq_of_toNat_eq h0)
    exact iff_of_true ⟨_, decodeCommand_of_rsv hrsv⟩ (.inl h0)

theorem eq_commandWord_of_op {v : Word} {n : Nat} (hrsv : rsvField v = 0) (hop : (opField v).toNat = n) :
    v = commandWord (BitVec.ofNat 8 n) (chField v) := by
  rw [← hop, BitVec.ofNat_toNat, BitVec.setWidth_eq]
  exact eq_commandWord hrsv

/-- R110, R112: a word with RSV = 0 is fixed by OP and CH, and the decoder takes a command from both. -/
theorem encode_of_decodeCommand {v : Word} {i : Instr} (h : decodeCommand v = .ok i) : encode i = .command v := by
  by_cases hrsv : rsvField v = 0
  · unfold decodeCommand at h
    rw [if_neg (not_not.mpr hrsv)] at h
    split at h
    case h_1 hop | h_2 hop =>
      cases h
      exact congrArg Encoding.command (eq_commandWord_of_op hrsv hop).symm
    case h_13 => cases h
    all_goals
      next hop =>
      obtain ⟨hch, rfl⟩ := withoutChannel_eq_ok_iff.mp h
      have hv := eq_commandWord_of_op hrsv hop
      rw [hch] at hv
      exact congrArg Encoding.command hv.symm
  · rw [decodeCommand_of_rsv hrsv] at h
    cases h

end Sys2Proof

namespace Sys2Proof.Machine

/-- R95: with nothing else to move first, the step is the sequencer's. -/
theorem step_of_schedule_nil {s : State} (h : s.schedule = []) : step s = sequencerStep s := by
  simp only [step, nextMove, h]

/-- R245: an illegal word's command step is ILLEGAL_CMD's error completion. -/
theorem sequencerStep_of_illegal {s : State} {v : Word} {e : DecodeError} (hpend : s.cmdPending = some v)
    (hdec : decodeCommand v = .error e) : sequencerStep s = .next (s.completeErr .illegalCmd) := by
  simp only [sequencerStep, hpend, hdec]

/-- Settles O4: an accepted word that the decoder refuses ends in ILLEGAL_CMD, and the words it refuses are those of R113. -/
theorem illegalWordsRaiseIllegalCmd : Obligations.IllegalWordsRaiseIllegalCmd := by
  intro v
  have hillegal := exists_decodeCommand_eq_error_iff v
  rw [opField_toNat, chField_toNat, rsvField_toNat] at hillegal
  refine ⟨fun hill s hidle hsched => ?_, fun hlegal => ?_⟩
  · obtain ⟨e, hdec⟩ := hillegal.mpr hill
    have haccept : s.writeOffset 0x0C v = s.accept v := State.writeOffset_of_idle hidle .cmd v
    have hstep : step (s.accept v) = .next ((s.accept v).completeErr .illegalCmd) :=
      (step_of_schedule_nil (s := s.accept v) hsched).trans (sequencerStep_of_illegal rfl hdec)
    rw [haccept]
    exact ⟨rfl, hstep⟩
  · cases hdec : decodeCommand v with
    | error e => exact absurd (hillegal.mp ⟨e, hdec⟩) hlegal
    | ok i => exact ⟨i, rfl, isCommand_of_decode hdec, encode_of_decodeCommand hdec⟩

end Sys2Proof.Machine

/-! The ends of SKIP_COUNTS and of DECODE_IMAGE (40_decode_image.md): the code read and its dispatch, each branch said once, and
DECODE_IMAGE's error completion from whatever its planes raise. Then the obligations on NOP, SKIP_COUNTS and DECODE_IMAGE's
errors. -/

namespace Sys2Proof.Machine

variable {s u : State} {e : ErrCode}

theorem eq_ofNat_of_toNat {w x : Nat} {b : BitVec w} (h : b.toNat = x) : b = BitVec.ofNat w x := by
  rw [← h, BitVec.ofNat_toNat, BitVec.setWidth_eq]

/-! ## SKIP_COUNTS -/

theorem checkRange_some_iff (r : Range) : checkRange r = some .addrRange ↔ r.len ≠ 0 ∧ 2 ^ 32 < r.base + r.len := by
  simp [checkRange]

theorem checkGeom_of_illegal (h : ¬s.GeomLegal) : checkGeom s = some .badParam := by rw [checkGeom_eq, if_neg h]

theorem exec_skipCounts_of_illegal (h : ¬s.GeomLegal) : exec .skipCounts s = .next (s.completeErr .badParam) :=
  exec_error rfl (by rw [staticChecks, skipCountsChecks, checkGeom_of_illegal h, firstError_some_cons])

theorem exec_skipCounts_of_long_stream (hg : s.GeomLegal) (h : 2 ^ 32 < s.srcAddr.toNat + s.srcLen.toNat) :
    exec .skipCounts s = .next (s.completeErr .addrRange) := by
  have hrange : checkRange s.streamRange = some .addrRange := by
    have := s.srcAddr.isLt
    exact (checkRange_some_iff _).mpr ⟨by simp only [State.streamRange]; omega, h⟩
  exact exec_error rfl
    (by rw [staticChecks, skipCountsChecks, (checkGeom_none s).mpr hg, hrange, firstError_none_cons, firstError_some_cons])

/-- R152: SKIP_COUNTS uses no range, so its static checks alone make it ready. -/
theorem skipCounts_ready (hg : s.GeomLegal) (h : s.srcAddr.toNat + s.srcLen.toNat ≤ 2 ^ 32) : s.ready .skipCounts := by
  refine ⟨?_, rfl⟩
  rw [staticChecks, skipCountsChecks, (checkGeom_none s).mpr hg, (checkRange_none s.streamRange).mpr (.inr h)]
  rfl

/-- R147, R152: the table is cut off by SRC_LEN. -/
theorem skipTable_of_cut (h : s.srcLen.toNat < s.cursor.toNat + s.tableLen) : skipTable s = .raise .truncated s := if_pos h

theorem skipTable_of_fits (h : s.cursor.toNat + s.tableLen ≤ s.srcLen.toNat) :
    skipTable s = .ok { s with cursor := BitVec.ofNat 32 (s.cursor.toNat + s.tableLen) } := if_neg (not_lt.mpr h)

/-! ## The compression code and its dispatch -/

theorem State.streamBE_two (s : State) (i : Nat) :
    s.streamBE i 2 = (s.srcByte i).toNat * 256 + (s.srcByte (i + 1)).toNat := by
  simp [State.streamBE]

theorem afterCode_eq (s : State) : afterCode s = { s with
    comp := BitVec.ofNat 16 ((s.srcByte s.cursor.toNat).toNat * 256 + (s.srcByte (s.cursor.toNat + 1)).toNat)
    cursor := BitVec.ofNat 32 (s.cursor.toNat + 2) } := by
  rw [afterCode, State.streamBE_two]

/-- R145: the codes 2 and 3 are known and not supported. -/
theorem dispatchCode_unsupported (h : s.comp.toNat = 2 ∨ s.comp.toNat = 3) :
    dispatchCode s = .raise .unsupportedCompression s := if_pos h

theorem dispatchCode_unknown (h : 4 ≤ s.comp.toNat) : dispatchCode s = .raise .unknownCompression s := by
  rw [dispatchCode, if_neg (by omega), if_pos (by omega)]

/-- R146: DEPTH is checked after the code. -/
theorem dispatchCode_depth (h : s.comp.toNat = 0 ∨ s.comp.toNat = 1) (h8 : s.depth.toNat ≠ 8) (h16 : s.depth.toNat ≠ 16) :
    dispatchCode s = .raise .unsupportedDepth s := by
  rw [dispatchCode, if_neg (by omega), if_neg (by omega), if_pos ⟨h8, h16⟩]

theorem dispatchCode_ok (h : s.comp.toNat = 0 ∨ s.comp.toNat = 1) (hd : s.depth.toNat = 8 ∨ s.depth.toNat = 16) :
    dispatchCode s = .ok s := by
  rw [dispatchCode, if_neg (by omega), if_neg (by omega), if_neg (by omega)]

/-! ## DECODE_IMAGE up to its Mux -/

/-- R144: a stream with no room for the code. -/
theorem readCode_of_cut (h : s.srcLen.toNat < s.cursor.toNat + 2) : readCode s = .raise .truncated s := if_pos h

theorem readCode_of_fits (h : s.cursor.toNat + 2 ≤ s.srcLen.toNat) : readCode s = .ok (afterCode s) := if_neg (not_lt.mpr h)

theorem decodePlanes_of_no_code (h : s.srcLen.toNat < s.cursor.toNat + 2) : decodePlanes s = .raise .truncated s := by
  rw [decodePlanes, readCode_of_cut h, Exit.andThen_raise]

theorem decodePlanes_of_code (h : s.cursor.toNat + 2 ≤ s.srcLen.toNat) :
    decodePlanes s = (dispatchCode (afterCode s)).andThen fun s => if s.comp.toNat = 1 then rlePath s else rawPath s := by
  rw [decodePlanes, readCode_of_fits h, Exit.andThen_ok]

/-- R144: what a dispatch that fails leaves. -/
theorem decodePlanes_of_dispatch_raise (h : s.cursor.toNat + 2 ≤ s.srcLen.toNat)
    (hd : dispatchCode (afterCode s) = .raise e u) : decodePlanes s = .raise e u := by
  rw [decodePlanes_of_code h, hd, Exit.andThen_raise]

/-- R148: code 0 takes the raw path. -/
theorem decodePlanes_of_raw (h : s.cursor.toNat + 2 ≤ s.srcLen.toNat) (hcode : (afterCode s).comp.toNat = 0)
    (hd : s.depth.toNat = 8 ∨ s.depth.toNat = 16) :
    decodePlanes s = forChannels s.chanCount copyPlane (afterCode s) := by
  rw [decodePlanes_of_code h, dispatchCode_ok (.inl hcode) hd, Exit.andThen_ok, if_neg (by omega)]
  rfl

/-- R147: code 1 takes the RLE path. -/
theorem decodePlanes_of_rle (h : s.cursor.toNat + 2 ≤ s.srcLen.toNat) (hcode : (afterCode s).comp.toNat = 1)
    (hd : s.depth.toNat = 8 ∨ s.depth.toNat = 16) : decodePlanes s = rlePath (afterCode s) := by
  rw [decodePlanes_of_code h, dispatchCode_ok (.inr hcode) hd, Exit.andThen_ok, if_pos hcode]

/-- The state after the compression code and the row-count table (R144, R147). -/
def afterTable (s : State) : State :=
  { afterCode s with cursor := BitVec.ofNat 32 (s.cursor.toNat + 2 + s.tableLen) }

theorem afterTable_cursor (h : s.cursor.toNat + 2 + s.tableLen ≤ s.srcLen.toNat) :
    (afterTable s).cursor.toNat = s.cursor.toNat + 2 + s.tableLen := toNat_ofNat_of_le h s.srcLen.isLt

theorem rlePath_afterCode (h : s.cursor.toNat + 2 + s.tableLen ≤ s.srcLen.toNat) :
    rlePath (afterCode s) = forChannels s.chanCount decodePlane (afterTable s) := by
  have hcur := afterCode_cursor (s := s) (by omega)
  rw [rlePath, skipTable_of_fits (by rw [hcur]; exact h), Exit.andThen_ok, hcur]
  rfl

theorem rlePath_of_cut_table (hread : s.cursor.toNat + 2 ≤ s.srcLen.toNat)
    (h : s.srcLen.toNat < s.cursor.toNat + 2 + s.tableLen) : rlePath (afterCode s) = .raise .truncated (afterCode s) := by
  rw [rlePath, skipTable_of_cut (by rw [afterCode_cursor hread]; exact h), Exit.andThen_raise]

/-! ## DECODE_IMAGE's error completion -/

/-- R250, R251: an error of the planes completes DECODE_IMAGE before its Mux, with the progress registers and memory as they
stood, and every other register as it was. -/
theorem exec_decodeImage_raise (hr : s.ready .decodeImage) (h : decodePlanes s = .raise e u) :
    exec .decodeImage s = .next (State.failed
      { s with comp := u.comp, curCh := u.curCh, outCount := u.outCount, cursor := u.cursor, mem := u.mem } e.code) := by
  have hexec : exec .decodeImage s = .next (u.completeErr e) := by
    rw [exec_ready rfl hr, commandEffect, decodeImageEffect, h, Exit.andThen_raise, Exit.complete_raise]
  have hplanes : PlanesDone s u := by
    rcases decodePlanes_cases hr with ⟨e', u', h', hdone⟩ | ⟨u', h', _⟩ <;> rw [h] at h'
    · cases h'
      exact hdone
    · cases h'
  rw [hexec]
  conv_lhs => rw [hplanes.frame]
  rfl

section DecodeImageFailures

variable (hr : s.ready .decodeImage) (hw : s.mem.wf) (hd : s.depth.toNat = 8 ∨ s.depth.toNat = 16)
include hr hw hd

/-- R148, R191, R192: a raw image whose plane `k` is the first cut off. -/
theorem exec_decodeImage_raw_cut {k : Nat} (hcode : (afterCode s).comp = 0) (hk : k < s.chanCount)
    (hle : s.cursor.toNat + 2 + k * (s.planeLen * s.bytesPerSample) ≤ s.srcLen.toNat)
    (hcut : s.srcLen.toNat < s.cursor.toNat + 2 + (k + 1) * (s.planeLen * s.bytesPerSample)) :
    ∃ m' : Memory, exec .decodeImage s = .next (State.failed { s with
        comp := 0, curCh := BitVec.ofNat 5 k, outCount := 0
        cursor := BitVec.ofNat 32 (s.cursor.toNat + 2 + k * (s.planeLen * s.bytesPerSample)), mem := m' } 1) ∧ m'.wf ∧
      (∀ j < k, ∀ p < s.planeLen, m'.read (s.planeByte j p) =
        s.srcByte (s.cursor.toNat + 2 + j * (s.planeLen * s.bytesPerSample) + p * s.bytesPerSample)) ∧
      (∀ a, (∀ j < k, ¬s.inPlane j a) → m'.read a = s.mem.read a) := by
  have hread : s.cursor.toNat + 2 ≤ s.srcLen.toNat := by omega
  have hcur := afterCode_cursor hread
  have hbytes : 0 < (afterCode s).bytesPerSample := Nat.div_pos (by change 8 ≤ s.depth.toNat; omega) (by decide)
  obtain ⟨-, -, -, -, -, hapart, -⟩ := decodeImage_ready_iff.mp hr
  obtain ⟨u, hraise, hdone, -, hcursor, hplanes⟩ := copy_channels_fail (s := afterCode s) hbytes hk hapart hw
    (by rw [hcur]; exact hle) (by rw [hcur]; exact hcut)
  rw [hcur] at hcursor hplanes
  refine ⟨u.mem, ?_, hdone.wf hw, hplanes, hdone.other hw⟩
  have hcomp : u.comp = 0 := by rw [hdone.frame]; exact hcode
  have hplanesRaise := (decodePlanes_of_raw hread (congrArg BitVec.toNat hcode) hd).trans hraise
  rw [exec_decodeImage_raise hr hplanesRaise, beginCopy_comp, beginCopy_cursor, hcomp, eq_ofNat_of_toNat hcursor]
  rfl

/-- R147, R251 (c): an RLE image that fails in the channel after those of `dss`, past the elements that `ds` names. -/
theorem exec_decodeImage_rle_fails {dss : List (List Directive)} {ds : List Directive} {code : BitVec 4} {first : Nat}
    (hcode : (afterCode s).comp = 1) (hfirst : first = s.cursor.toNat + 2 + s.tableLen)
    (hlen : dss.length < s.chanCount) (hfills : ∀ x ∈ dss, fillsChannel s.planeLen x)
    (hst : s.streamHolds first (streamOf dss.flatten))
    (hfails : s.failsAfter (first + (streamOf dss.flatten).length) ds code) :
    ∃ m' : Memory, exec .decodeImage s = .next (State.failed { s with
        comp := 1, curCh := BitVec.ofNat 5 dss.length, outCount := BitVec.ofNat 32 (planeOf ds).length
        cursor := BitVec.ofNat 32 (first + (streamOf dss.flatten).length + (streamOf ds).length), mem := m' } code) ∧
      m'.wf ∧ (∀ k, ∀ x ∈ dss[k]?, s.planeHolds m' k (planeOf x)) ∧ s.planeHolds m' dss.length (planeOf ds) ∧
      (∀ a, (∀ k < dss.length, ¬s.inPlane k a) → (∀ p < (planeOf ds).length, a ≠ s.planeByte dss.length p) →
        m'.read a = s.mem.read a) := by
  have htable : s.cursor.toNat + 2 + s.tableLen ≤ s.srcLen.toNat := by have := hst.1; omega
  have hcur : (afterTable s).cursor.toNat = first := (afterTable_cursor htable).trans hfirst.symm
  obtain ⟨hgeom, -, -, -, -, hapart, -⟩ := decodeImage_ready_iff.mp hr
  obtain ⟨-, hplane, -, hchans⟩ := hgeom.planeLen_lt
  obtain ⟨e, u, rfl, hraise, -, hcomp, hch, hcount, hcursor, hwf, hbefore, hfailing, hother⟩ :=
    decode_channels_fail (s := afterTable s) hlen (hchans.trans (by decide)) hplane hapart hw hfills
      (by rw [hcur]; exact hst) (by rw [hcur]; exact hfails)
  refine ⟨u.mem, ?_, hwf, hbefore, hfailing, hother⟩
  have hread : s.cursor.toNat + 2 ≤ s.srcLen.toNat := by omega
  have hplanesRaise : decodePlanes s = .raise e u := by
    rw [decodePlanes_of_rle hread (congrArg BitVec.toNat hcode) hd, rlePath_afterCode htable]
    exact hraise
  rw [hcur] at hcursor
  rw [exec_decodeImage_raise hr hplanesRaise, hcomp, hch, eq_ofNat_of_toNat hcount, eq_ofNat_of_toNat hcursor,
    show (afterTable s).comp = 1 from hcode]

end DecodeImageFailures

/-! ## The obligations -/

/-- Settles O14: NOP is a completion and nothing else. -/
theorem nopOnlyCompletes : Obligations.NopOnlyCompletes := by
  refine ⟨by decide, fun s => ⟨rfl, ?_, fun herr hecode hdrop => ?_⟩⟩
  · simp [State.irq]
  · simp only [State.statusWord, State.busy, herr, hecode, hdrop]
    rfl

/-- Settles O15: the two static checks in R152's order, then the table against SRC_LEN. -/
theorem skipCountsMovesCursor : Obligations.SkipCountsMovesCursor := by
  refine ⟨by decide, fun s => ⟨exec_skipCounts_of_illegal, exec_skipCounts_of_long_stream, fun hg hfit hcut => ?_,
    fun hg hfit hle => ?_⟩⟩
  · rw [exec_ready rfl (skipCounts_ready hg hfit), commandEffect, skipTable_of_cut hcut]
    rfl
  · rw [exec_ready rfl (skipCounts_ready hg hfit), commandEffect, skipTable_of_fits hle]
    rfl

/-- Settles O37: each failure raises in the planes, and what it leaves is what `exec_decodeImage_raise` keeps. -/
theorem decodeImageDispatchErrors : Obligations.DecodeImageDispatchErrors := by
  intro s hr cur code s' plane
  have hs' : afterCode s = s' := afterCode_eq s
  have hcode : s'.comp.toNat = code := by rw [← hs', afterCode_comp, State.streamBE_two]
  refine ⟨fun hcut => exec_decodeImage_raise hr (decodePlanes_of_no_code hcut), fun hread => ?_, ?_⟩
  · have hdispatch (e : ErrCode) (h : dispatchCode s' = .raise e s') : exec .decodeImage s = .next (s'.failed e.code) := by
      rw [← hs'] at h
      rw [exec_decodeImage_raise hr (decodePlanes_of_dispatch_raise hread h), hs']
    rw [← hcode]
    refine ⟨fun h => hdispatch .unsupportedCompression (dispatchCode_unsupported h),
      fun h => hdispatch .unknownCompression (dispatchCode_unknown h),
      fun h h8 h16 => hdispatch .unsupportedDepth (dispatchCode_depth h h8 h16), fun h hd hcut => ?_,
      fun h hd hw k hk hle hcut => ?_⟩
    · have hrle := decodePlanes_of_rle hread (hs' ▸ h) hd
      have hskip := rlePath_of_cut_table hread hcut
      exact exec_decodeImage_raise hr (hs' ▸ hrle.trans hskip)
    · exact exec_decodeImage_raw_cut hr hw hd (hs' ▸ BitVec.eq_of_toNat_eq h) hk hle hcut
  · intro hd hw table dss ds e before htable hlen hfills hst hfails
    obtain ⟨hhead, hchannels⟩ := State.streamHolds_append.mp hst
    obtain ⟨hbytes, -⟩ := State.streamHolds_append.mp hhead
    obtain ⟨-, hbytes⟩ := State.streamHolds_iff.mp hbytes
    have hone : code = 1 := by
      have h0 : s.srcByte cur = 0 := hbytes 0 (by decide)
      have h1 : s.srcByte (cur + 1) = 1 := hbytes 1 (by decide)
      change (s.srcByte cur).toNat * 256 + (s.srcByte (cur + 1)).toNat = 1
      rw [h0, h1]
      rfl
    have hbefore : cur + before.length = cur + ([0x00, 0x01] ++ table).length + (streamOf dss.flatten).length := by
      rw [Nat.add_assoc, ← List.length_append]
    have hfirst : cur + ([0x00, 0x01] ++ table).length = cur + 2 + s.tableLen := by
      rw [← htable, List.length_append]; exact (Nat.add_assoc ..).symm
    rw [hbefore] at hfails ⊢
    exact exec_decodeImage_rle_fails hr hw hd (hs' ▸ BitVec.eq_of_toNat_eq (hcode.trans hone)) hfirst hlen hfills hchannels hfails

end Sys2Proof.Machine

/-! The mux (42_planar_mux.md): the completion of MUX, and the indices `k + p*C` of R198, which number the `N*C` output samples
once each. Then the obligations on MUX. -/

namespace Sys2Proof.Machine

variable {s : State}

/-! ## MUX's step -/

/-- R195, R197: once its checks pass, MUX is a completion with Mux's memory. -/
theorem exec_mux_of_ready (hr : s.ready .mux) :
    exec .mux s = .next (State.finished { s with mem := (muxEffect s).mem }) := exec_ready rfl hr

/-! ## The indices of the output samples -/

/-- R198: byte `N - 1` of channel `C - 1` has the last index. -/
theorem State.muxIndex_last (hN : 1 ≤ s.planeLen) (hC : 1 ≤ s.chanCount) :
    s.chanCount - 1 + (s.planeLen - 1) * s.chanCount = s.planeLen * s.chanCount - 1 := by
  have hrow : s.planeLen * s.chanCount = (s.planeLen - 1) * s.chanCount + s.chanCount := by
    rw [← Nat.succ_mul, Nat.succ_eq_add_one, Nat.sub_add_cancel hN]
  omega

/-- R198: every index is that of channel `q % C`'s byte `q / C`. -/
theorem State.exists_muxIndex_eq {q : Nat} (hq : q < s.planeLen * s.chanCount) :
    ∃ k < s.chanCount, ∃ p < s.planeLen, q = k + p * s.chanCount :=
  have hC : 0 < s.chanCount := Nat.pos_of_lt_mul_left hq
  ⟨q % s.chanCount, Nat.mod_lt q hC, q / s.chanCount, Nat.div_lt_of_lt_mul (Nat.mul_comm .. ▸ hq),
    (Nat.mod_add_div' q s.chanCount).symm⟩

/-! ## The output positions -/

/-- R198: no position lies after that of the last index. -/
theorem State.muxPos_le {k p : Nat} (hk : k < s.chanCount) (hp : p < s.planeLen) :
    s.muxPos k p ≤ s.stride * (s.planeLen * s.chanCount - 1) := by
  rw [State.muxPos_eq]
  exact Nat.mul_le_mul_left _ (Nat.le_sub_one_of_lt (State.muxIndex_lt hk hp))

/-- R198: every position lies inside the output buffer. -/
theorem State.muxPos_lt {k p : Nat} (hS : 0 < s.stride) (hk : k < s.chanCount) (hp : p < s.planeLen) :
    s.muxPos k p < s.planeLen * s.chanCount * s.stride := by
  rw [State.muxPos_eq, Nat.mul_comm]
  exact Nat.mul_lt_mul_of_pos_right (State.muxIndex_lt hk hp) hS

/-- R198: with S = 1 the positions are the indices, so Mux writes every output byte. -/
theorem State.inMuxOutput_of_stride_one {q : Nat} (hS : s.stride = 1) (hq : q < s.planeLen * s.chanCount) :
    s.inMuxOutput (s.dstByte q) := by
  obtain ⟨k, hk, p, hp, rfl⟩ := State.exists_muxIndex_eq hq
  refine ⟨k, hk, p, hp, ?_⟩
  rw [State.muxPos_eq, hS, Nat.one_mul]

/-- R198: with S = 2 every position is even, so no odd one is written. -/
theorem State.not_inMuxOutput_odd (hS : s.stride = 2) (q : Nat) : ¬s.inMuxOutput (s.dstByte (2 * q + 1)) := by
  rintro ⟨k, -, p, -, hpos⟩
  rw [State.muxPos_eq, hS] at hpos
  simp only [State.dstByte] at hpos
  omega

/-! ## The obligations -/

/-- Settles O33: MUX's memory is Mux's, whose bytes at the output positions and elsewhere the laws of Mux give. -/
theorem muxInterleavesPlanes : Obligations.MuxInterleavesPlanes := by
  intro s hw hr
  obtain ⟨-, hstride, -, -, hapart, -, -⟩ := mux_ready_iff.mp hr
  have hS : 0 < s.stride := by omega
  exact ⟨(muxEffect s).mem, exec_mux_of_ready hr, muxEffect_wf hw, fun _ hk _ hp => muxEffect_at hw hS hapart hk hp,
    fun _ ha => muxEffect_other hw ha⟩

/-- Settles O34: the position is the stride times the index, the indices number the output samples once each, and MUX leaves what
is no position. -/
theorem muxPositionsDistinct : Obligations.MuxPositionsDistinct := by
  intro s hgeom hstride
  have hS : 0 < s.stride := by change 0 < s.muxStride.toNat; omega
  obtain ⟨hN, -, hC, -⟩ := hgeom.planeLen_lt
  refine ⟨fun k hk p _ k' hk' p' _ => State.muxPos_inj hS hk hk',
    fun k hk p hp => ⟨State.muxPos_eq k p, State.muxPos_le hk hp, State.muxPos_lt hS hk hp⟩, ?_,
    fun hone q hq => State.inMuxOutput_of_stride_one hone hq, fun htwo hw hr t hexec q => ?_⟩
  · rw [State.muxPos_eq, State.muxIndex_last hN hC]
  · rw [exec_mux_of_ready hr] at hexec
    cases hexec
    exact muxEffect_other hw (State.not_inMuxOutput_odd htwo q)

end Sys2Proof.Machine

/-! The byte-order swapper (43_byteswap.md): bswap on values, the in-place swap of a buffer as a relation of two memories, the ends
of SWAPBUF16 and SWAPBUF32 and of LDBE16 and LDBE32. Then the obligations on the swapper. -/

namespace Sys2Proof.Machine

variable {i : Instr} {s t : State} {w n b : Nat}

/-! ## bswap on values -/

/-- One more byte at the low end. -/
theorem toNat_append_byte {k : Nat} (x : BitVec k) (y : Byte) : (x ++ y).toNat = x.toNat * 256 + y.toNat := by
  rw [BitVec.toNat_append, ← Nat.shiftLeft_add_eq_or_of_lt y.isLt, Nat.shiftLeft_eq]

/-- Above the low byte stand the bytes of the rest. -/
theorem extract_append_byte {k : Nat} (x : BitVec k) (y : Byte) (j : Nat) :
    (x ++ y).extractLsb' (j + 8) 8 = x.extractLsb' j 8 := by
  rw [BitVec.extractLsb'_append_eq_of_le (Nat.le_add_left 8 j), Nat.add_sub_cancel]

theorem toNat_bytes16 (b0 b1 : Byte) : (b1 ++ b0 : BitVec 16).toNat = b1.toNat * 256 + b0.toNat := toNat_append_byte b1 b0

theorem toNat_bytes32 (b0 b1 b2 b3 : Byte) : (b3 ++ b2 ++ b1 ++ b0 : Word).toNat =
    b3.toNat * 2 ^ 24 + b2.toNat * 2 ^ 16 + b1.toNat * 2 ^ 8 + b0.toNat := by
  have h : (b3 ++ b2 ++ b1 ++ b0 : Word).toNat = (b3 ++ b2 ++ b1).toNat * 256 + b0.toNat := toNat_append_byte _ _
  rw [h, toNat_append_byte, toNat_append_byte]
  omega

theorem exists_bytes16 (x : BitVec 16) : ∃ b0 b1 : Byte, x = b1 ++ b0 := by
  refine ⟨x.extractLsb' 0 8, x.extractLsb' 8 8, ?_⟩
  rw [BitVec.extractLsb'_append_extractLsb'_eq_extractLsb' (by decide)]
  exact BitVec.extractLsb'_eq_self.symm

theorem exists_bytes32 (x : Word) : ∃ b0 b1 b2 b3 : Byte, x = b3 ++ b2 ++ b1 ++ b0 := by
  refine ⟨x.extractLsb' 0 8, x.extractLsb' 8 8, x.extractLsb' 16 8, x.extractLsb' 24 8, ?_⟩
  rw [BitVec.extractLsb'_append_extractLsb'_eq_extractLsb' (by decide),
    BitVec.extractLsb'_append_extractLsb'_eq_extractLsb' (by decide),
    BitVec.extractLsb'_append_extractLsb'_eq_extractLsb' (by decide)]
  exact BitVec.extractLsb'_eq_self.symm

/-- R210: the two bytes change places. -/
theorem bswap16_append (b0 b1 : Byte) : bswap16 (b1 ++ b0) = b0 ++ b1 := by
  have h0 : (b1 ++ b0 : BitVec 16).extractLsb' 0 8 = b0 := BitVec.extractLsb'_append_eq_right
  have h1 : (b1 ++ b0 : BitVec 16).extractLsb' 8 8 = b1 := BitVec.extractLsb'_append_eq_left
  rw [bswap16, h0, h1]

/-- R210: the four bytes stand in the opposite order. -/
theorem bswap32_append (b0 b1 b2 b3 : Byte) : bswap32 (b3 ++ b2 ++ b1 ++ b0) = b0 ++ b1 ++ b2 ++ b3 := by
  have h0 : (b3 ++ b2 ++ b1 ++ b0 : Word).extractLsb' 0 8 = b0 := BitVec.extractLsb'_append_eq_right
  have h1 : (b3 ++ b2 ++ b1 ++ b0 : Word).extractLsb' 8 8 = b1 :=
    (extract_append_byte (b3 ++ b2 ++ b1) b0 0).trans BitVec.extractLsb'_append_eq_right
  have h2 : (b3 ++ b2 ++ b1 ++ b0 : Word).extractLsb' 16 8 = b2 :=
    (extract_append_byte (b3 ++ b2 ++ b1) b0 8).trans <|
      (extract_append_byte (b3 ++ b2) b1 0).trans BitVec.extractLsb'_append_eq_right
  have h3 : (b3 ++ b2 ++ b1 ++ b0 : Word).extractLsb' 24 8 = b3 :=
    (extract_append_byte (b3 ++ b2 ++ b1) b0 16).trans <|
      (extract_append_byte (b3 ++ b2) b1 8).trans BitVec.extractLsb'_append_eq_left
  rw [bswap32, h0, h1, h2, h3]

theorem bswap16_bswap16 (x : BitVec 16) : bswap16 (bswap16 x) = x := by
  obtain ⟨b0, b1, rfl⟩ := exists_bytes16 x
  rw [bswap16_append, bswap16_append]

theorem bswap32_bswap32 (x : Word) : bswap32 (bswap32 x) = x := by
  obtain ⟨b0, b1, b2, b3, rfl⟩ := exists_bytes32 x
  rw [bswap32_append, bswap32_append]

/-- R217 (c): bswap16 of a little-endian halfword is the big-endian value of its bytes. -/
theorem bswap16_littleEndian (b0 b1 : Byte) :
    (bswap16 (b1 ++ b0)).setWidth 32 = BitVec.ofNat 32 (b0.toNat * 256 + b1.toNat) := by
  rw [bswap16_append, ← BitVec.ofNat_toNat, toNat_bytes16]

/-- R217 (c): bswap32 of a little-endian word is the big-endian value of its bytes. -/
theorem bswap32_littleEndian (b0 b1 b2 b3 : Byte) : bswap32 (b3 ++ b2 ++ b1 ++ b0) =
    BitVec.ofNat 32 (b0.toNat * 2 ^ 24 + b1.toNat * 2 ^ 16 + b2.toNat * 2 ^ 8 + b3.toNat) := by
  rw [bswap32_append, ← toNat_bytes32, BitVec.ofNat_toNat, BitVec.setWidth_eq]

/-- R211: the halfword swap by value. -/
theorem bswap16_setWidth (x : BitVec 16) :
    (bswap16 x).setWidth 32 = BitVec.ofNat 32 (x.toNat % 256 * 256 + x.toNat / 256) := by
  obtain ⟨b0, b1, rfl⟩ := exists_bytes16 x
  have := b0.isLt
  have := b1.isLt
  rw [bswap16_littleEndian, toNat_bytes16]
  exact congrArg _ (by omega)

/-- R212: the word swap by value. -/
theorem bswap32_eq_ofNat (x : Word) : bswap32 x = BitVec.ofNat 32
    (x.toNat % 256 * 2 ^ 24 + x.toNat / 2 ^ 8 % 256 * 2 ^ 16 + x.toNat / 2 ^ 16 % 256 * 2 ^ 8 + x.toNat / 2 ^ 24) := by
  obtain ⟨b0, b1, b2, b3, rfl⟩ := exists_bytes32 x
  have := b0.isLt
  have := b1.isLt
  have := b2.isLt
  have := b3.isLt
  rw [bswap32_littleEndian, toNat_bytes32]
  exact congrArg _ (by omega)

/-! ## A range past 2^32 -/

/-- R247: a range that begins at a register and passes 2^32 is not empty. -/
theorem checkRange_of_long {a : Word} (h : 2 ^ 32 < a.toNat + n) : checkRange ⟨a.toNat, n⟩ = some .addrRange := by
  have := a.isLt
  exact (checkRange_some_iff _).mpr ⟨by simp only; omega, h⟩

/-! ## SWAPBUF16 and SWAPBUF32 -/

/-- `m'` is `m` with the bytes of each of `n` units of `w` bytes from `b` on reversed (R213, R214). -/
structure Memory.UnitsReversed (w b n : Nat) (m m' : Memory) : Prop where
  wf : m'.wf
  inside : ∀ u < n, ∀ j < w, m'.read (b + w * u + j) = m.read (b + w * u + (w - 1 - j))
  other : ∀ a, a < b ∨ b + w * n ≤ a → m'.read a = m.read a

/-- The loop over a buffer whose pass reverses one unit. -/
theorem PermutesUnit.unitsReversed {f : Memory → Nat → Memory} {m : Memory} (h : PermutesUnit w (fun j => w - 1 - j) f)
    (hm : m.wf) : Memory.UnitsReversed w b n m (m.forEach n fun u q => f q (b + w * u)) :=
  ⟨h.loop_wf hm, fun _ hu _ hj => h.loop_inside hm hu hj, fun _ hx => h.loop_other hm hx⟩

/-- An address of the buffer is byte `j` of some unit. -/
theorem exists_unit_eq {a : Nat} (h : ¬(a < b ∨ b + w * n ≤ a)) : ∃ u < n, ∃ j < w, a = b + w * u + j := by
  have hlt : a - b < w * n := by omega
  refine ⟨(a - b) / w, Nat.div_lt_of_lt_mul hlt, (a - b) % w, Nat.mod_lt _ (Nat.pos_of_lt_mul_right hlt), ?_⟩
  have := Nat.div_add_mod (a - b) w
  omega

/-- R217 (b): reversed twice, every byte stands where it was. -/
theorem Memory.UnitsReversed.twice {m m' m'' : Memory} (h : Memory.UnitsReversed w b n m m')
    (g : Memory.UnitsReversed w b n m' m'') (a : Nat) : m''.read a = m.read a := by
  by_cases ha : a < b ∨ b + w * n ≤ a
  · rw [g.other a ha, h.other a ha]
  · obtain ⟨u, hu, j, hj, rfl⟩ := exists_unit_eq ha
    have hback : w - 1 - (w - 1 - j) = j := by omega
    rw [g.inside u hu j hj, h.inside u hu _ (by omega), hback]

/-- `i` is the command that reverses units of `w` bytes. -/
def SwapsUnits (i : Instr) (w : Nat) : Prop := i = .swapbuf16 ∧ w = 2 ∨ i = .swapbuf32 ∧ w = 4

theorem SwapsUnits.isCommand (h : SwapsUnits i w) : isCommand i = true := by
  rcases h with ⟨rfl, -⟩ | ⟨rfl, -⟩ <;> rfl

theorem SwapsUnits.staticChecks (h : SwapsUnits i w) (s : State) :
    staticChecks i s = [checkUnit s w, checkRange s.swapRange] := by
  rcases h with ⟨rfl, rfl⟩ | ⟨rfl, rfl⟩ <;> rfl

/-- R213, R214, R246. -/
theorem exec_swapbuf_of_ragged (hi : SwapsUnits i w) (h : s.xferLen.toNat % w ≠ 0) :
    exec i s = .next (s.completeErr .badParam) := by
  have hunit : checkUnit s w = some .badParam := if_neg h
  exact exec_error hi.isCommand (by rw [hi.staticChecks, hunit, firstError_some_cons])

/-- R247, R249: the range is checked after the unit. -/
theorem exec_swapbuf_of_long (hi : SwapsUnits i w) (h : s.xferLen.toNat % w = 0)
    (hlong : 2 ^ 32 < s.srcAddr.toNat + s.xferLen.toNat) : exec i s = .next (s.completeErr .addrRange) := by
  have hunit : checkUnit s w = none := if_pos h
  have hrange : checkRange s.swapRange = some .addrRange := checkRange_of_long hlong
  exact exec_error hi.isCommand (by rw [hi.staticChecks, hunit, hrange, firstError_none_cons, firstError_some_cons])

/-- R213, R214: once its checks pass, the command is a completion with the buffer's units reversed. -/
theorem exec_swapbuf_of_ready (hi : SwapsUnits i w) (hr : s.ready i) (hw : s.mem.wf) :
    ∃ m' : Memory, exec i s = .next (State.finished { s with mem := m' }) ∧
      Memory.UnitsReversed w s.srcAddr.toNat (s.xferLen.toNat / w) s.mem m' := by
  rcases hi with ⟨rfl, rfl⟩ | ⟨rfl, rfl⟩
  · exact ⟨_, exec_ready rfl hr, swapUnit16_permutes.unitsReversed hw⟩
  · exact ⟨_, exec_ready rfl hr, swapUnit32_permutes.unitsReversed hw⟩

/-- R213, R214: the bytes of an existing buffer of whole units. -/
theorem exec_swapbuf_of_exists (hi : SwapsUnits i w) (hw : s.mem.wf) (h : s.xferLen.toNat % w = 0)
    (hx : s.AllExist ⟨s.srcAddr.toNat, s.xferLen.toNat⟩) :
    ∃ m' : Memory, exec i s = .next (State.finished { s with mem := m' }) ∧ m'.wf ∧
      (∀ u < s.xferLen.toNat / w, ∀ j < w,
        m'.read (s.srcAddr.toNat + w * u + j) = s.mem.read (s.srcAddr.toNat + w * u + (w - 1 - j))) ∧
      (∀ a, a < s.srcAddr.toNat ∨ s.srcAddr.toNat + s.xferLen.toNat ≤ a → m'.read a = s.mem.read a) := by
  obtain ⟨m', hexec, hwf, hinside, hother⟩ :=
    exec_swapbuf_of_ready hi ((swapbuf_ready_iff i w hi).mpr ⟨h, hx.fits, hx⟩) hw
  rw [Nat.mul_div_cancel' (Nat.dvd_of_mod_eq_zero h)] at hother
  exact ⟨m', hexec, hwf, hinside, hother⟩

/-- R250: a command whose checks fail leaves memory and its own operands as they were. -/
theorem exec_of_not_ready (hc : isCommand i = true) (hr : ¬s.ready i) (h : exec i s = .next t) :
    t.setup = s.setup ∧ t.mem = s.mem := by
  rcases exec_cases hc s with ⟨e, -, hexec⟩ | ⟨hready, -⟩ | ⟨-, -, hexec⟩
  · cases hexec.symm.trans h
    exact ⟨rfl, rfl⟩
  · exact absurd hready hr
  · cases hexec.symm.trans h

/-- R217 (b): run twice, the command leaves every byte of memory reading as it was. -/
theorem exec_swapbuf_twice {u : State} (hi : SwapsUnits i w) (hw : s.mem.wf) (hst : exec i s = .next t)
    (htu : exec i t = .next u) (a : Nat) : u.mem.read a = s.mem.read a := by
  by_cases hr : s.ready i
  · obtain ⟨m', hexec, hfirst⟩ := exec_swapbuf_of_ready hi hr hw
    cases hexec.symm.trans hst
    obtain ⟨m'', hexec, hsecond⟩ :=
      exec_swapbuf_of_ready (s := State.finished { s with mem := m' }) hi (State.setup_ready rfl i hr) hfirst.wf
    cases hexec.symm.trans htu
    exact hfirst.twice hsecond a
  · obtain ⟨hsetup, hmem⟩ := exec_of_not_ready hi.isCommand hr hst
    have hr' : ¬t.ready i := fun h => hr (State.setup_ready hsetup.symm i h)
    rw [(exec_of_not_ready hi.isCommand hr' htu).2, hmem]

/-! ## LDBE16 and LDBE32 -/

theorem State.streamBE_four (s : State) (i : Nat) : s.streamBE i 4 = (s.srcByte i).toNat * 2 ^ 24 +
    (s.srcByte (i + 1)).toNat * 2 ^ 16 + (s.srcByte (i + 2)).toNat * 2 ^ 8 + (s.srcByte (i + 3)).toNat := by
  simp only [State.streamBE, Nat.add_zero]
  omega

/-- The stream byte `j` places past offset `i`, by its address. -/
theorem State.srcByte_add (s : State) (i j : Nat) : s.srcByte (i + j) = s.mem.read (s.srcAddr.toNat + i + j) :=
  congrArg s.mem.read (Nat.add_assoc ..).symm

/-- `i` is the command that loads `n` stream bytes. -/
def LoadsBytes (i : Instr) (n : Nat) : Prop := i = .ldbe16 ∧ n = 2 ∨ i = .ldbe32 ∧ n = 4

theorem LoadsBytes.isCommand (h : LoadsBytes i n) : isCommand i = true := by
  rcases h with ⟨rfl, -⟩ | ⟨rfl, -⟩ <;> rfl

theorem LoadsBytes.staticChecks (h : LoadsBytes i n) (s : State) : staticChecks i s = [checkRange s.streamRange] := by
  rcases h with ⟨rfl, -⟩ | ⟨rfl, -⟩ <;> rfl

theorem LoadsBytes.ready_iff (h : LoadsBytes i n) : s.ready i ↔ (s.streamRange.len = 0 ∨
    s.streamRange.base + s.streamRange.len ≤ 2 ^ 32) ∧ s.AllExist s.streamRange :=
  ldbe_ready_iff i (h.imp And.left And.left)

/-- R247. -/
theorem exec_ldbe_of_long (hi : LoadsBytes i n) (h : 2 ^ 32 < s.srcAddr.toNat + s.srcLen.toNat) :
    exec i s = .next (s.completeErr .addrRange) := by
  have hrange : checkRange s.streamRange = some .addrRange := checkRange_of_long h
  exact exec_error hi.isCommand (by rw [hi.staticChecks, hrange, firstError_some_cons])

/-- Once its check passes, the command is the load's completion. -/
theorem exec_ldbe_of_ready (hi : LoadsBytes i n) (hr : s.ready i) : exec i s = (loadBE n s).complete := by
  rcases hi with ⟨rfl, rfl⟩ | ⟨rfl, rfl⟩ <;> exact exec_ready rfl hr

/-- R215, R216, R243: fewer than `n` bytes are left. -/
theorem exec_ldbe_of_cut (hi : LoadsBytes i n) (hr : s.ready i) (h : s.srcLen.toNat < s.cursor.toNat + n) :
    exec i s = .next (s.completeErr .truncated) := by
  have hload : loadBE n s = .raise .truncated s := if_pos h
  rw [exec_ldbe_of_ready hi hr, hload, Exit.complete_raise]

/-- R215, R216: the load itself. -/
theorem exec_ldbe_of_fits (hi : LoadsBytes i n) (hr : s.ready i) (h : s.cursor.toNat + n ≤ s.srcLen.toNat) :
    exec i s = .next (State.finished { s with
      dataOut := BitVec.ofNat 32 (s.streamBE s.cursor.toNat n), cursor := BitVec.ofNat 32 (s.cursor.toNat + n) }) := by
  have hload : loadBE n s = .ok { s with
      dataOut := BitVec.ofNat 32 (s.streamBE s.cursor.toNat n), cursor := BitVec.ofNat 32 (s.cursor.toNat + n) } :=
    if_neg (not_lt.mpr h)
  rw [exec_ldbe_of_ready hi hr, hload]
  rfl

/-! ## The obligations -/

/-- Settles O16: what DATA_OUT takes is `bswap16` of the low halfword, zero-extended. -/
theorem swap16ReversesTwoBytes : Obligations.Swap16ReversesTwoBytes := by
  refine ⟨by decide, fun s => ?_⟩
  have hlow : (s.dataIn.extractLsb' 0 16).toNat = s.dataIn.toNat % 65536 := BitVec.extractLsb'_toNat ..
  have hvalue : s.dataIn.toNat % 65536 % 256 * 256 + s.dataIn.toNat % 65536 / 256 =
      s.dataIn.toNat % 256 * 256 + s.dataIn.toNat / 256 % 256 := by omega
  rw [exec_ready rfl ⟨rfl, rfl⟩, commandEffect, bswap16_setWidth, hlow, hvalue]
  rfl

/-- Settles O17: what DATA_OUT takes is `bswap32` of DATA_IN. -/
theorem swap32ReversesFourBytes : Obligations.Swap32ReversesFourBytes := by
  refine ⟨by decide, fun s => ?_⟩
  rw [← bswap32_eq_ofNat, exec_ready rfl ⟨rfl, rfl⟩]
  rfl

/-- Settles O18: units of two bytes, whose bytes are 0 and 1. -/
theorem swapbuf16ReversesUnits : Obligations.Swapbuf16ReversesUnits := by
  have hi : SwapsUnits .swapbuf16 2 := .inl ⟨rfl, rfl⟩
  refine ⟨by decide, fun s hw => ⟨exec_swapbuf_of_ragged hi, exec_swapbuf_of_long hi, fun h hx => ?_⟩⟩
  obtain ⟨m', hexec, hwf, hinside, hother⟩ := exec_swapbuf_of_exists hi hw h hx
  exact ⟨m', hexec, hwf, fun u hu => ⟨hinside u hu 0 (by decide), hinside u hu 1 (by decide)⟩, hother⟩

/-- Settles O19: units of four bytes. -/
theorem swapbuf32ReversesUnits : Obligations.Swapbuf32ReversesUnits :=
  have hi : SwapsUnits .swapbuf32 4 := .inr ⟨rfl, rfl⟩
  ⟨by decide, fun _ hw => ⟨exec_swapbuf_of_ragged hi, exec_swapbuf_of_long hi, exec_swapbuf_of_exists hi hw⟩⟩

/-- Settles O20: the range of the stream, then the two bytes against SRC_LEN. -/
theorem ldbe16LoadsBigEndian : Obligations.Ldbe16LoadsBigEndian := by
  have hi : LoadsBytes .ldbe16 2 := .inl ⟨rfl, rfl⟩
  refine ⟨by decide, fun s => ⟨exec_ldbe_of_long hi, fun hx => ?_⟩⟩
  have hr : s.ready .ldbe16 := hi.ready_iff.mpr ⟨hx.fits, hx⟩
  refine ⟨exec_ldbe_of_cut hi hr, fun h => ?_⟩
  rw [exec_ldbe_of_fits hi hr h, State.streamBE_two, State.srcByte_add]
  rfl

/-- Settles O21: the range of the stream, then the four bytes against SRC_LEN. -/
theorem ldbe32LoadsBigEndian : Obligations.Ldbe32LoadsBigEndian := by
  have hi : LoadsBytes .ldbe32 4 := .inr ⟨rfl, rfl⟩
  refine ⟨by decide, fun s => ⟨exec_ldbe_of_long hi, fun hx => ?_⟩⟩
  have hr : s.ready .ldbe32 := hi.ready_iff.mpr ⟨hx.fits, hx⟩
  refine ⟨exec_ldbe_of_cut hi hr, fun h => ?_⟩
  rw [exec_ldbe_of_fits hi hr h, State.streamBE_four, State.srcByte_add, State.srcByte_add, State.srcByte_add]
  rfl

/-- Settles O22: the swap of a value and of a buffer undoes itself, and what LDBE loads is the big-endian value that bswap makes of
the little-endian one. -/
theorem swapsAreInvolutions : Obligations.SwapsAreInvolutions := by
  refine ⟨bswap16_bswap16, bswap32_bswap32, fun i s t u hi hw hst htu a => ?_, fun s hr => ⟨fun h => ?_, fun h => ?_⟩⟩
  · obtain ⟨w, hi⟩ : ∃ w, SwapsUnits i w := hi.elim (fun h => ⟨2, .inl ⟨h, rfl⟩⟩) fun h => ⟨4, .inr ⟨h, rfl⟩⟩
    exact exec_swapbuf_twice hi hw hst htu a
  · have hi : LoadsBytes .ldbe16 2 := .inl ⟨rfl, rfl⟩
    refine ⟨_, exec_ldbe_of_fits hi hr h, ?_⟩
    rw [bswap16_littleEndian, State.streamBE_two, State.srcByte_add]
    rfl
  · have hi : LoadsBytes .ldbe32 4 := .inr ⟨rfl, rfl⟩
    refine ⟨_, exec_ldbe_of_fits hi hr h, ?_⟩
    rw [bswap32_littleEndian, State.streamBE_four, State.srcByte_add, State.srcByte_add, State.srcByte_add]
    rfl

end Sys2Proof.Machine

/-! BAD_PARAM (R246): when each static check raises it, which bad parameters make a command end with it, and the obligation on it. No
command's effect raises it (`commandEffect_dynamic`), so the static checks decide. -/

namespace Sys2Proof.Machine

variable {i : Instr} {s t : State} {e : ErrCode}

/-! ## Which static checks raise BAD_PARAM -/

theorem firstError_cons_eq_some (c : Option ErrCode) (cs : List (Option ErrCode)) :
    firstError (c :: cs) = some e ↔ c = some e ∨ (c = none ∧ firstError cs = some e) := by
  cases c <;> simp

theorem checkGeom_badParam_iff (s : State) : checkGeom s = some .badParam ↔ ¬s.GeomLegal := by
  rw [checkGeom_eq, ite_eq_right_iff]
  simp only [reduceCtorEq, imp_false]

theorem checkStride_badParam_iff (s : State) : checkStride s = some .badParam ↔ ¬(s.stride = 1 ∨ s.stride = 2) := by
  simp [checkStride]

theorem checkChannel_badParam_iff (s : State) (ch : Nat) : checkChannel s ch = some .badParam ↔ s.chanCount ≤ ch := by
  simp [checkChannel]

theorem checkUnit_badParam_iff (s : State) (unit : Nat) : checkUnit s unit = some .badParam ↔ s.xferLen.toNat % unit ≠ 0 := by
  simp [checkUnit]

theorem checkDepth_ne_badParam (s : State) : checkDepth s ≠ some .badParam := by simp [checkDepth]

theorem checkRange_ne_badParam (r : Range) : checkRange r ≠ some .badParam := by simp [checkRange]

theorem checkDisjoint_ne_badParam (r q : Range) : checkDisjoint r q ≠ some .badParam := by simp [checkDisjoint]

/-! ## The commands that end with BAD_PARAM -/

/-- A parameter that the command checks is bad (R246). -/
def State.BadParams (s : State) (i : Instr) : Prop :=
  match i with
  | .decodeImage | .mux => ¬s.GeomLegal ∨ ¬(s.stride = 1 ∨ s.stride = 2)
  | .skipCounts => ¬s.GeomLegal
  | .rleChan ch | .rawChan ch => ¬s.GeomLegal ∨ s.chanCount ≤ ch.toNat
  | .swapbuf16 => s.xferLen.toNat % 2 ≠ 0
  | .swapbuf32 => s.xferLen.toNat % 4 ≠ 0
  | .nop | .swap16 | .swap32 | .ldbe16 | .ldbe32 | .lit _ | .nop80 | .rep _ => False

/-- R249: the parameters are checked before anything that raises another code, so a bad one is the error reported. -/
theorem firstError_staticChecks_badParam_iff (i : Instr) (s : State) :
    firstError (staticChecks i s) = some .badParam ↔ s.BadParams i := by
  cases i <;>
    simp only [State.BadParams, staticChecks, decodeImageChecks, skipCountsChecks, rleChanChecks, rawChanChecks, muxChecks,
      swapbufChecks, ldbeChecks, firstError_cons_eq_some, firstError_nil, checkGeom_badParam_iff, checkGeom_none,
      checkStride_badParam_iff, checkStride_none, checkChannel_badParam_iff, checkUnit_badParam_iff, checkDepth_ne_badParam,
      checkRange_ne_badParam, checkDisjoint_ne_badParam, reduceCtorEq, and_false, or_false]
  case decodeImage | mux | rleChan | rawChan => tauto

theorem State.BadParams.isCommand (h : s.BadParams i) : isCommand i = true := by
  cases i with
  | lit | nop80 | rep => exact h.elim
  | _ => rfl

/-- R250: the command ends with BAD_PARAM, and nothing else changes. -/
theorem State.BadParams.exec_eq (h : s.BadParams i) : exec i s = .next (s.failed 6) :=
  exec_error h.isCommand ((firstError_staticChecks_badParam_iff i s).mpr h)

theorem ErrCode.eq_badParam_of_code (h : e.code = 6) : e = .badParam := by
  cases e with
  | badParam => rfl
  | _ => cases h

/-- R246, R249: a command that ends with BAD_PARAM was turned away by its static checks. -/
theorem badParams_of_exec (hc : isCommand i = true) (hs : s.err = false) (h : exec i s = .next t) (ht : t.err = true)
    (hcode : t.ecode = 6) : s.BadParams i := by
  rcases exec_command_cases hc s with ⟨e, he, hexec⟩ | ⟨e, u, -, hraise, -, hexec⟩ | ⟨u, -, -, hdone, hexec⟩ | ⟨-, -, hexec⟩ <;>
    cases hexec.symm.trans h
  · rw [ErrCode.eq_badParam_of_code hcode] at he
    exact (firstError_staticChecks_badParam_iff i s).mp he
  · exact absurd (ErrCode.eq_badParam_of_code hcode) (commandEffect_dynamic i s e u hraise).1
  · rw [State.completeDone_err, hdone.err, hs] at ht
    cases ht

/-! ## The obligation -/

/-- Settles O10: each bad parameter is one of `BadParams` of the commands that check it, and a command ends with BAD_PARAM in no other
way. -/
theorem badParamChecks : Obligations.BadParamChecks := by
  intro s ch
  refine ⟨fun hgeom i hi => State.BadParams.exec_eq ?_, fun hstride i hi => State.BadParams.exec_eq ?_,
    fun hch i hi => State.BadParams.exec_eq ?_, State.BadParams.exec_eq (i := .swapbuf16),
    State.BadParams.exec_eq (i := .swapbuf32), fun i t hc hs hexec ht hcode => ?_⟩
  · simp only [List.mem_cons, List.not_mem_nil, or_false] at hi
    obtain rfl | rfl | rfl | rfl | rfl := hi
    exacts [.inl hgeom, hgeom, .inl hgeom, .inl hgeom, .inl hgeom]
  · simp only [List.mem_cons, List.not_mem_nil, or_false] at hi
    obtain rfl | rfl := hi <;> exact .inr hstride
  · simp only [List.mem_cons, List.not_mem_nil, or_false] at hi
    obtain rfl | rfl := hi <;> exact .inr hch
  · have hbad := badParams_of_exec hc hs hexec ht hcode
    cases i with
    | decodeImage | mux =>
      rcases hbad with hgeom | hstride
      · exact .inl ⟨hgeom, .inl (by simp)⟩
      · exact .inr (.inl ⟨hstride, by simp⟩)
    | skipCounts => exact .inl ⟨hbad, .inl (by simp)⟩
    | rleChan c | rawChan c =>
      rcases hbad with hgeom | hch
      · exact .inl ⟨hgeom, .inr ⟨c, by simp⟩⟩
      · exact .inr (.inr (.inl ⟨c, hch, by simp⟩))
    | swapbuf16 => exact .inr (.inr (.inr (.inl ⟨hbad, rfl⟩)))
    | swapbuf32 => exact .inr (.inr (.inr (.inr ⟨hbad, rfl⟩)))
    | nop | swap16 | swap32 | ldbe16 | ldbe32 | lit | nop80 | rep => exact hbad.elim

end Sys2Proof.Machine

/-! The two encodings (30_encoding.md): a command word from its OP and CH, a control byte from its high bit and its seven low bits. Then
the obligations on the round trips and on the control bytes. -/

namespace Sys2Proof.Machine

variable {i : Instr} {c : Byte}

/-! ## Control bytes -/

theorem toNat_append_bits {k n : Nat} (x : BitVec k) (y : BitVec n) : (x ++ y).toNat = x.toNat * 2 ^ n + y.toNat := by
  rw [BitVec.toNat_append, ← Nat.shiftLeft_add_eq_or_of_lt y.isLt, Nat.shiftLeft_eq]

theorem toNat_controlByte (b : BitVec 1) (n : BitVec 7) : (b ++ n : Byte).toNat = b.toNat * 128 + n.toNat :=
  toNat_append_bits b n

theorem low7_controlByte (b : BitVec 1) (n : BitVec 7) : (b ++ n : Byte).extractLsb' 0 7 = n :=
  BitVec.extractLsb'_append_eq_right

theorem toNat_low7 (c : Byte) : (c.extractLsb' 0 7).toNat = c.toNat % 128 := by simp

theorem decodeElement_of_lt (h : c.toNat < 128) : decodeElement c = .lit (c.extractLsb' 0 7) := if_pos h

theorem decodeElement_of_gt (h : 128 < c.toNat) : decodeElement c = .rep (c.extractLsb' 0 7) := by
  rw [decodeElement, selectElement, if_neg (by omega), if_pos h]

theorem decodeElement_of_eq (h : c.toNat = 128) : decodeElement c = .nop80 := by
  rw [decodeElement, selectElement, if_neg (by omega), if_neg (by omega)]

/-- R119, R120: above 128 the low bits are not zero. -/
theorem low7_ne_zero (h : 128 < c.toNat) : c.extractLsb' 0 7 ≠ 0 := by
  intro h0
  have hlow := toNat_low7 c
  have := c.isLt
  rw [h0] at hlow
  change 0 = _ at hlow
  omega

theorem decodeElement_lit (n : BitVec 7) : decodeElement (0#1 ++ n) = .lit n := by
  have := n.isLt
  have hbyte : (0#1 ++ n : Byte).toNat = 0 * 128 + n.toNat := toNat_controlByte 0 n
  rw [decodeElement_of_lt (by omega), low7_controlByte]

theorem decodeElement_rep {m : BitVec 7} (hm : m ≠ 0) : decodeElement (1#1 ++ m) = .rep m := by
  have hbyte : (1#1 ++ m : Byte).toNat = 1 * 128 + m.toNat := toNat_controlByte 1 m
  have hpos : m.toNat ≠ 0 := fun h0 => hm (BitVec.eq_of_toNat_eq h0)
  rw [decodeElement_of_gt (by omega), low7_controlByte]

/-- R117, R122: every control byte is the encoding of the element it begins. -/
theorem encode_decodeElement (c : Byte) : encode (decodeElement c) = .control c := by
  have hlow := toNat_low7 c
  have := c.isLt
  rcases lt_trichotomy c.toNat 128 with h | h | h
  · have hbyte : (0#1 ++ c.extractLsb' 0 7 : Byte).toNat = 0 * 128 + _ := toNat_controlByte 0 _
    rw [decodeElement_of_lt h]
    exact congrArg Encoding.control (BitVec.eq_of_toNat_eq (by omega))
  · rw [decodeElement_of_eq h]
    exact congrArg Encoding.control (BitVec.eq_of_toNat_eq h.symm)
  · have hbyte : (1#1 ++ c.extractLsb' 0 7 : Byte).toNat = 1 * 128 + _ := toNat_controlByte 1 _
    rw [decodeElement_of_gt h]
    exact congrArg Encoding.control (BitVec.eq_of_toNat_eq (by omega))

theorem wellFormed_decodeElement (c : Byte) : (decodeElement c).wellFormed = true := by
  rcases lt_trichotomy c.toNat 128 with h | h | h
  · rw [decodeElement_of_lt h]; rfl
  · rw [decodeElement_of_eq h]; rfl
  · rw [decodeElement_of_gt h]
    exact bne_iff_ne.mpr (low7_ne_zero h)

/-! ## Command words -/

/-- R112: every instruction of a command word is well-formed. -/
theorem wellFormed_of_isCommand (h : isCommand i = true) : i.wellFormed = true := by
  cases i with
  | rep m => cases h
  | _ => rfl

/-- R110, R112: what the decoder reads of a word made of OP and CH. -/
theorem decodeCommand_encode {v : Word} (h : encode i = .command v) : decodeCommand v = .ok i := by
  cases i with
  | lit n | nop80 | rep m => cases h
  | _ =>
    cases h
    simp [decodeCommand, withoutChannel]

/-! ## The obligations -/

/-- Settles O2: the fields of the encoding are those the instruction was made of. -/
theorem decodeInvertsEncode : Obligations.DecodeInvertsEncode := by
  intro i hwf
  cases i with
  | lit n => exact congrArg Except.ok (decodeElement_lit n)
  | nop80 => exact congrArg Except.ok (decodeElement_of_eq rfl)
  | rep m => exact congrArg Except.ok (decodeElement_rep (bne_iff_ne.mp hwf))
  | _ => exact decodeCommand_encode rfl

/-- Settles O3: a command word by its fields, a control byte by its high bit. -/
theorem encodeInvertsDecode : Obligations.EncodeInvertsDecode := by
  intro e i hdec
  cases e with
  | command v => exact ⟨wellFormed_of_isCommand (isCommand_of_decode hdec), encode_of_decodeCommand hdec⟩
  | control c =>
    cases hdec
    exact ⟨wellFormed_decodeElement c, encode_decodeElement c⟩

/-- Settles O1: nine words, each decoded. -/
theorem specWordsDecode : Obligations.SpecWordsDecode := by
  unfold Obligations.SpecWordsDecode
  decide

/-- Settles O5: the three ranges of the control byte, with the run lengths of its low bits. -/
theorem controlBytesSelectElements : Obligations.ControlBytesSelectElements :=
  fun _ => ⟨fun h => ⟨_, decodeElement_of_lt h, low7_of_lt h⟩,
    fun h => ⟨_, decodeElement_of_gt h, low7_ne_zero h, low7_of_gt h⟩, decodeElement_of_eq⟩

end Sys2Proof.Machine

/-! PackBits channels (41_packbits.md): an element as one step of its channel, DecodePlane of the stream that directives name, and the
steps of an open channel. Then the obligations on the elements, on RLE_CHAN and on the steps between two elements. -/

namespace Sys2Proof.Machine

variable {s t u : State} {i : Instr} {e : ErrCode} {c : Byte}

/-! ## Elements as instructions -/

/-- R160: with the checks of its channel made, an element is its effect. -/
theorem runElement_of_ready (hr : s.ready (.rleChan (s.curCh.setWidth 8))) (f : State → Exit) :
    runElement f s = (f s).resume := by
  have hch : (s.curCh.setWidth 8).toNat = s.curCh.toNat := BitVec.toNat_setWidth_of_le (by decide)
  obtain ⟨hchecks, hranges⟩ := hr
  simp only [staticChecks, hch] at hchecks
  rcases runElement_cases f s with ⟨hfail, -⟩ | ⟨-, hmissing, -⟩ | ⟨-, -, h⟩
  · exact absurd hchecks hfail
  · exact absurd hranges (ne_true_of_eq_false hmissing)
  · exact h

theorem State.atElement.fits (h : s.atElement) : ElementFits s := by
  obtain ⟨hr, hcur, hcount⟩ := h
  obtain ⟨hgeom, -⟩ := (rleChan_ready_iff _).mp hr
  obtain ⟨-, hplane, -⟩ := hgeom.planeLen_lt
  exact ⟨hplane, hcount.le, hcur⟩

theorem State.atElement.channelReady (h : s.atElement) (hw : s.mem.wf) : ChannelReady s := by
  obtain ⟨hr, -⟩ := h
  obtain ⟨hgeom, hk, -, -, hapart, -⟩ := (rleChan_ready_iff _).mp hr
  obtain ⟨-, hplane, -⟩ := hgeom.planeLen_lt
  rw [BitVec.toNat_setWidth_of_le (by decide)] at hk
  exact ⟨hplane, hk, hapart, hw⟩

/-- R161: a run copied from the stream into the plane, the two being apart. -/
theorem ChannelReady.copied_run (h : ChannelReady s) {first count run j : Nat} (hsrc : first + run ≤ s.srcLen.toNat)
    (hroom : count + run ≤ s.planeLen) (hj : j < run) :
    (s.mem.forEach run fun j m => m.write (s.planeByte s.curCh.toNat (count + j)) (m.read (s.srcPos (first + j)))).read
      (s.planeByte s.curCh.toNat (count + j)) = s.srcByte (first + j) := by
  refine Memory.forEach_copy (d := fun j => s.planeByte s.curCh.toNat (count + j)) h.wf ?_ ?_ hj
  · intro a _ b _ hab
    by_contra hne
    exact State.planeByte_ne (by omega) hab
  · exact fun a ha b hb => h.src_ne_plane (by omega) (by omega)

/-! ## RLE_CHAN -/

/-- R166: what RLE_CHAN's checks give its channel. -/
theorem ChannelReady.of_rleChan {ch : BitVec 8} (hr : s.ready (.rleChan ch)) (hw : s.mem.wf) :
    ChannelReady (beginChannel ch.toNat s) := by
  obtain ⟨hgeom, hk, -, -, hapart, -⟩ := (rleChan_ready_iff ch).mp hr
  obtain ⟨-, hplane, -, hchans⟩ := hgeom.planeLen_lt
  exact ChannelReady.of_channels hk (by omega) hplane hapart hw (ChannelsDone.refl _ s)

theorem toNat_curCh_of_ready {ch : BitVec 8} (hr : s.ready (.rleChan ch)) :
    (beginChannel ch.toNat s).curCh.toNat = ch.toNat := by
  obtain ⟨hgeom, hk, -⟩ := (rleChan_ready_iff ch).mp hr
  obtain ⟨-, -, -, hchans⟩ := hgeom.planeLen_lt
  rw [beginChannel_curCh, BitVec.toNat_ofNat]
  omega

/-- What a decode of a whole channel or of its first elements leaves, as an update of the state before it. -/
theorem PassesDone.eq_begun {k : Nat} (h : PassesDone (beginChannel k s) u) : u = { s with
    curCh := BitVec.ofNat 5 k, inChannel := true, outCount := u.outCount, cursor := u.cursor, mem := u.mem } := h.frame

/-- R167, R127: the plane of channel `k` holds the bytes decoded, and no other byte has changed. -/
theorem Decoded.planeHolds {k : Nat} {xs ys : List Byte} (h : Decoded (beginChannel k s) u xs ys)
    (hk : (beginChannel k s).curCh.toNat = k) (hw : s.mem.wf) : s.planeHolds u.mem k ys := by
  intro p hp
  have hbyte := h.bytes hw p hp
  rw [hk, beginChannel_outCount] at hbyte
  change u.mem.read (s.planeByte k (0 + p)) = ys[p] at hbyte
  rw [← Nat.zero_add p, hbyte]
  simp

theorem Decoded.other {k a : Nat} {xs ys : List Byte} (h : Decoded (beginChannel k s) u xs ys)
    (hk : (beginChannel k s).curCh.toNat = k) (hw : s.mem.wf) (ha : ∀ p < ys.length, a ≠ s.planeByte k p) :
    u.mem.read a = s.mem.read a := by
  have hcount : u.outCount.toNat = 0 + ys.length := h.count
  refine h.done.other hw a fun j _ hj => ?_
  rw [hk]
  exact ha j (by omega)

theorem Decoded.outCount_eq {k : Nat} {xs ys : List Byte} (h : Decoded (beginChannel k s) u xs ys) :
    u.outCount = BitVec.ofNat 32 ys.length :=
  eq_ofNat_of_toNat (h.count.trans (Nat.zero_add _))

/-- R167, R253: RLE_CHAN of a channel that is decoded whole. -/
theorem exec_rleChan_done {ch : BitVec 8} {xs ys : List Byte} (hr : s.ready (.rleChan ch))
    (h : decodePlane ch.toNat s = .ok { u with inChannel := false }) (hd : Decoded (beginChannel ch.toNat s) u xs ys) :
    exec (.rleChan ch) s = .next (State.finished { s with
      curCh := ch.setWidth 5, outCount := BitVec.ofNat 32 ys.length
      cursor := BitVec.ofNat 32 (s.cursor.toNat + xs.length), mem := u.mem }) := by
  rw [exec_ready rfl hr, commandEffect, h, hd.done.eq_begun, hd.outCount_eq, eq_ofNat_of_toNat hd.cursor, BitVec.ofNat_toNat]
  rfl

/-- R167, R250: RLE_CHAN of a channel that fails past the elements decoded. -/
theorem exec_rleChan_raise {ch : BitVec 8} {xs ys : List Byte} (hr : s.ready (.rleChan ch))
    (h : decodePlane ch.toNat s = .raise e u) (hd : Decoded (beginChannel ch.toNat s) u xs ys) :
    exec (.rleChan ch) s = .next (State.failed { s with
      curCh := ch.setWidth 5, outCount := BitVec.ofNat 32 ys.length
      cursor := BitVec.ofNat 32 (s.cursor.toNat + xs.length), mem := u.mem } e.code) := by
  rw [exec_ready rfl hr, commandEffect, h, hd.done.eq_begun, hd.outCount_eq, eq_ofNat_of_toNat hd.cursor, BitVec.ofNat_toNat]
  rfl

/-- R251 (c): a RLE_CHAN that ends with ERR, its static checks passed, was raised by its channel. -/
theorem decodePlane_of_exec_err {ch : BitVec 8} (hr : s.ready (.rleChan ch)) (hs : s.err = false)
    (h : exec (.rleChan ch) s = .next t) (ht : t.err = true) : ∃ e u, decodePlane ch.toNat s = .raise e u ∧ t.ecode = e.code := by
  rw [exec_ready rfl hr] at h
  rcases commandEffect_cases (i := .rleChan ch) rfl hr with ⟨e, u, hraise, -⟩ | ⟨u, hdone, hframe⟩
  · rw [hraise] at h
    cases h
    exact ⟨e, u, hraise, rfl⟩
  · rw [hdone] at h
    cases h
    rw [State.completeDone_err, hframe.err, hs] at ht
    cases ht

/-! ## The steps of an open channel -/

/-- The step stands between two elements of a channel of `i` whose checks hold, with nothing else to move first (R160, R167). -/
structure ChannelOpen (i : Instr) (s : State) : Prop where
  schedule : s.schedule = []
  isOpen : s.inChannel = true
  accepted : s.acceptedCommand = some i
  decodes : decodesChannels i = true
  ready : s.ready i
  chan : s.curCh.toNat < s.chanCount

theorem ChannelOpen.step_eq (h : ChannelOpen i s) : step s = channelStep i s := by
  obtain ⟨w, hpend, hdec⟩ := acceptedCommand_eq_some h.accepted
  rw [step_of_schedule_nil h.schedule]
  simp only [sequencerStep, hpend, hdec, h.isOpen, if_true]

theorem ChannelOpen.step_element (h : ChannelOpen i s) (hcount : s.outCount.toNat < s.planeLen)
    (hcur : s.cursor.toNat < s.srcLen.toNat) : step s = exec (decodeElement (s.srcByte s.cursor.toNat)) s := by
  rw [h.step_eq, channelStep_ready h.decodes h.ready h.chan, if_pos hcount, if_neg (not_le.mpr hcur)]

theorem ChannelOpen.step_short (h : ChannelOpen i s) (hcount : s.outCount.toNat < s.planeLen)
    (hcur : s.srcLen.toNat ≤ s.cursor.toNat) : step s = .next (s.completeErr .truncated) := by
  rw [h.step_eq, channelStep_ready h.decodes h.ready h.chan, if_pos hcount, if_pos hcur]

theorem ChannelOpen.step_full (h : ChannelOpen i s) (hcount : s.planeLen ≤ s.outCount.toNat) :
    step s = .next (closeChannel i s) := by
  rw [h.step_eq, channelStep_ready h.decodes h.ready h.chan, if_neg (not_lt.mpr hcount)]

/-- RLE_CHAN's checks, for the channel in CUR_CH (R166). -/
theorem ChannelOpen.ready_curCh {ch : BitVec 8} (h : ChannelOpen (.rleChan ch) s) :
    s.ready (.rleChan (s.curCh.setWidth 8)) := by
  obtain ⟨hgeom, -, hrest⟩ := (rleChan_ready_iff ch).mp h.ready
  refine (rleChan_ready_iff _).mpr ⟨hgeom, ?_, hrest⟩
  rw [BitVec.toNat_setWidth_of_le (by decide)]
  exact h.chan

/-- R167: a step of a channel that is not full is one pass of DecodePlane's loop. -/
theorem ChannelOpen.step_pass {ch : BitVec 8} (h : ChannelOpen (.rleChan ch) s) (hcount : s.outCount.toNat < s.planeLen) :
    step s = (elementPass s).resume := by
  rw [elementPass_eq]
  split_ifs with hcur
  · exact h.step_short hcount hcur
  · rw [h.step_element hcount (not_le.mp hcur), exec_decodeElement, runElement_of_ready h.ready_curCh]

theorem ChannelOpen.of_pass (h : ChannelOpen i s) (hd : ElementDone s t) : ChannelOpen i t := by
  refine ⟨?_, hd.inChannel.trans h.isOpen, ?_, h.decodes, State.setup_ready hd.setup i h.ready, ?_⟩
  · rw [State.setup_schedule hd.setup]
    exact h.schedule
  · rw [State.acceptedCommand, hd.cmdPending]
    exact h.accepted
  · rw [hd.curCh, State.setup_chanCount hd.setup]
    exact h.chan

/-- R95, R167: DecodePlane's loop, run one element a step, ends as the loop completes. -/
theorem exists_run_eq_elementLoop {ch : BitVec 8} (fuel : Nat) : ∀ {s : State}, ChannelOpen (.rleChan ch) s →
    s.planeLen < 2 ^ 32 → s.srcLen.toNat - s.cursor.toNat < fuel →
    ∃ n, Host.Core.run Sys2Proof.core n s = (elementLoop fuel s).complete := by
  induction fuel with
  | zero => intro s _ _ hfuel; omega
  | succ fuel ih =>
    intro s h hplane hfuel
    rw [elementLoop]
    split_ifs with hcount
    · have hstep := h.step_pass hcount
      rcases elementPass_cases hplane hcount with ⟨e, hraise, -⟩ | ⟨-, -, t, hok, hd, -⟩
      · rw [hraise] at hstep ⊢
        exact ⟨1, run_of_next hstep⟩
      · rw [hok] at hstep ⊢
        have hadvance := hd.cursor_lt
        have hbound := hd.cursor_le
        have hlen := State.setup_srcLen hd.setup
        have hlen' := State.setup_planeLen hd.setup
        obtain ⟨n, hn⟩ := ih (h.of_pass hd) (by omega) (by rw [hlen]; omega)
        exact ⟨n + 1, (run_of_next hstep).trans hn⟩
    · exact ⟨1, run_of_next (h.step_full (not_lt.mp hcount))⟩

/-! ## The obligations -/

/-- Settles O27: DecodePlane decodes the stream of the directives whole, and RLE_CHAN completes with what it leaves. -/
theorem rleChanDecodesItsStream : Obligations.RleChanDecodesItsStream := by
  intro s ch ds hw hr hfills hst
  have hk := toNat_curCh_of_ready hr
  obtain ⟨u, hplane, hd⟩ := decodePlane_directives (ChannelReady.of_rleChan hr hw) hfills hst
  obtain ⟨-, hlen, -⟩ := hfills
  have hexec := exec_rleChan_done hr hplane hd
  rw [hlen] at hexec
  refine ⟨u.mem, hexec, hd.done.wf hw, fun p hp => hd.planeHolds hk hw p (by omega), fun a ha => ?_⟩
  exact hd.other hk hw fun p hp hpa => ha ⟨p, by omega, hpa⟩

/-- Settles O29: DecodePlane fails just past the elements decoded, and in no other way. -/
theorem rleChanErrorsPrecise : Obligations.RleChanErrorsPrecise := by
  intro s ch hw hr
  have hk := toNat_curCh_of_ready hr
  have hready := ChannelReady.of_rleChan hr hw
  refine ⟨fun ds code hfails => ?_, fun t hs hexec ht => ?_⟩
  · obtain ⟨e, u, rfl, hplane, hd⟩ := decodePlane_fails hready hfails
    exact ⟨u.mem, exec_rleChan_raise hr hplane hd, hd.done.wf hw, hd.planeHolds hk hw, fun a ha => hd.other hk hw ha⟩
  · obtain ⟨e, u, hplane, hcode⟩ := decodePlane_of_exec_err hr hs hexec ht
    rw [hcode]
    exact decodePlane_raise hready hplane

/-- Settles O23: the three ends of LIT, and the bytes of its copying loop. -/
theorem litCopiesItsRun : Obligations.LitCopiesItsRun := by
  intro s n hw hat i count run
  have hexec : exec (.lit n) s = (litEffect n s).resume := runElement_of_ready hat.1 _
  rw [hexec]
  rcases litEffect_cases n s with ⟨hcut, he⟩ | ⟨hle, hover, he⟩ | ⟨hle, hroom, he⟩ <;> rw [he]
  · exact ⟨fun _ => rfl, fun hle => absurd hcut (not_lt.mpr hle), fun hle => absurd hcut (not_lt.mpr hle)⟩
  · exact ⟨fun hcut => absurd hcut (not_lt.mpr hle), fun _ _ => rfl, fun _ hroom => absurd hover (not_lt.mpr hroom)⟩
  · refine ⟨fun hcut => absurd hcut (not_lt.mpr hle), fun _ hover => absurd hover (not_lt.mpr hroom), fun _ _ => ?_⟩
    exact ⟨_, rfl, Memory.forEach_wf hw fun _ _ _ => Memory.write_wf,
      fun j hj => (hat.channelReady hw).copied_run hle hroom hj, fun a ha => Memory.forEach_write_other hw ha⟩

/-- Settles O24: the three ends of REP, and the bytes of its filling loop. -/
theorem repRepeatsItsByte : Obligations.RepRepeatsItsByte := by
  intro s m _ hw hat i count run
  have hrun : repRun m = run := (repRun_eq m).trans (by omega)
  have hexec : exec (.rep m) s = (repEffect m s).resume := runElement_of_ready hat.1 _
  rw [hexec, ← hrun]
  rcases repEffect_cases m s with ⟨hcut, he⟩ | ⟨hle, hover, he⟩ | ⟨hle, hroom, he⟩ <;> rw [he]
  · exact ⟨fun _ => rfl, fun hle => absurd hcut (not_lt.mpr hle), fun hle => absurd hcut (not_lt.mpr hle)⟩
  · exact ⟨fun hcut => absurd hcut (not_lt.mpr hle), fun _ _ => rfl, fun _ hroom => absurd hover (not_lt.mpr hroom)⟩
  · refine ⟨fun hcut => absurd hcut (not_lt.mpr hle), fun _ hover => absurd hover (not_lt.mpr hroom), fun _ _ => ?_⟩
    exact ⟨_, rfl, Memory.forEach_wf hw fun _ _ _ => Memory.write_wf,
      fun j hj => Memory.forEach_fill (d := fun j => s.planeByte s.curCh.toNat (count + j)) hw hj,
      fun a ha => Memory.forEach_write_other (f := fun _ _ => _) hw ha⟩

/-- Settles O25: NOP80's effect is the move of CURSOR. -/
theorem nop80MovesCursor : Obligations.Nop80MovesCursor :=
  fun _ hat => runElement_of_ready hat.1 nop80Effect

/-- Settles O26: an element that raises clears BUSY, and one that is done has moved by the lengths of its control byte. -/
theorem elementLengths : Obligations.ElementLengths := by
  intro s t c hat hbusy hexec htbusy
  rw [exec_decodeElement, runElement_of_ready hat.1] at hexec
  rcases elementEffect_cases c hat.fits with ⟨-, he⟩ | ⟨-, -, he⟩ | ⟨-, -, u, he, -, hcur, hcount⟩ <;> rw [he] at hexec <;>
    cases hexec
  · cases htbusy
  · cases htbusy
  · exact ⟨hcur, hcount⟩

/-- Settles O31: an element raises with nothing written, or writes its run alone. -/
theorem elementFrame : Obligations.ElementFrame := by
  intro s t c hw hexec
  rw [exec_decodeElement] at hexec
  rcases runElement_cases (elementEffect c) s with ⟨-, hrun⟩ | ⟨-, -, hrun⟩ | ⟨-, -, hrun⟩ <;> rw [hrun] at hexec
  · cases hexec
  · cases hexec
  · rcases elementEffect_frame c hw with he | he | ⟨u, he, hframe, hother⟩ <;> rw [he] at hexec <;> cases hexec
    · exact ⟨.inr (.inl rfl), .inr ⟨rfl, rfl⟩, fun _ _ => rfl⟩
    · exact ⟨.inr (.inr rfl), .inr ⟨rfl, rfl⟩, fun _ _ => rfl⟩
    · exact ⟨.inl hframe, .inl ⟨by rw [hframe], by rw [hframe]⟩, hother⟩

/-- Settles O28: the channel that RLE_CHAN begins is open, and its loop run one element a step ends as the command. -/
theorem rleChanIsElementwise : Obligations.RleChanIsElementwise := by
  intro s ch hsched haccepted hr
  obtain ⟨hgeom, hk, -⟩ := (rleChan_ready_iff ch).mp hr
  obtain ⟨-, hplane, -⟩ := hgeom.planeLen_lt
  have hopen : ChannelOpen (.rleChan ch) (beginChannel ch.toNat s) :=
    ⟨hsched, rfl, haccepted, rfl, hr, (toNat_curCh_of_ready hr).trans_lt hk⟩
  obtain ⟨n, hn⟩ := exists_run_eq_elementLoop (passBound s) hopen hplane (Nat.lt_succ_self _)
  refine ⟨n, ?_⟩
  rw [exec_ready rfl hr, commandEffect, decodePlane, ← hn, beginChannel, BitVec.ofNat_toNat]

/-- Settles O7: the step of an open channel that has a control byte to read. -/
theorem stepRunsNextElement : Obligations.StepRunsNextElement :=
  fun _ _ hsched hopen haccepted hdecodes hr hk => ChannelOpen.step_element ⟨hsched, hopen, haccepted, hdecodes, hr, hk⟩

/-- Settles O8: the step of an open channel that has nothing to read, or is full. -/
theorem stepEndsChannel : Obligations.StepEndsChannel := by
  intro s i hsched hopen haccepted hdecodes hr hk
  have h : ChannelOpen i s := ⟨hsched, hopen, haccepted, hdecodes, hr, hk⟩
  refine ⟨h.step_short, fun hfull => ?_⟩
  rw [h.step_full hfull]
  refine ⟨fun ch hi => ?_, fun hi hnext => ?_, fun hi hlast hw => ?_⟩
  · subst hi
    rfl
  · subst hi
    rw [closeChannel, if_pos hnext, beginChannel, ← hopen]
  · subst hi
    obtain ⟨-, hstride, -, -, hapart, -⟩ := mux_ready_iff.mp (mux_ready_of_decodeImage hr)
    rw [closeChannel, if_neg (not_lt.mpr hlast)]
    exact ⟨(muxEffect s).mem, rfl, fun k hk p hp => muxEffect_at hw (by omega) hapart hk hp, fun a ha => muxEffect_other hw ha⟩

end Sys2Proof.Machine

/-! What any command's step leaves (R116, R250, R253), and what an element's does: the completions, the registers no instruction writes,
CURSOR's bounds. Then the obligations on all commands, and on the frames of the commands that do not decode an image. -/

namespace Sys2Proof.Machine

variable {s t : State} {i : Instr}

/-! ## Commands -/

/-- What a command that answers a next state has done to the state, whether it was turned away, failed or succeeded. -/
structure CommandCompleted (i : Instr) (s t : State) : Prop where
  setup : t.setup = s.setup
  pending : t.cmdPending = none
  channel : t.inChannel = false
  ends : (t.done = true ∧ t.err = s.err ∧ t.ecode = s.ecode) ∨ (t.err = true ∧ t.done = s.done ∧ ∃ e : ErrCode, t.ecode = e.code)
  cursor : t.cursor = s.cursor ∨ (s.cursor.toNat ≤ t.cursor.toNat ∧ t.cursor.toNat ≤ s.srcLen.toNat)
  comp : i ≠ .decodeImage → t.comp = s.comp
  dataOut : i ∉ [Instr.swap16, .swap32, .ldbe16, .ldbe32] → t.dataOut = s.dataOut
  wf : s.mem.wf → t.mem.wf
  entries : ∀ c ∈ t.mem, c ∈ s.mem ∨ s.byteExists c.1 = true

theorem CommandDone.completeErr (h : CommandDone i s t) (e : ErrCode) : CommandCompleted i s (t.completeErr e) :=
  ⟨h.setup, rfl, rfl, .inr ⟨rfl, h.done, e, rfl⟩, h.cursor, h.comp, h.dataOut, h.wf, h.entries⟩

theorem CommandDone.completeDone (h : CommandDone i s t) : CommandCompleted i s t.completeDone :=
  ⟨h.setup, rfl, rfl, .inl ⟨rfl, h.err, h.ecode⟩, h.cursor, h.comp, h.dataOut, h.wf, h.entries⟩

theorem commandCompleted_of_exec (hc : isCommand i = true) (h : exec i s = .next t) : CommandCompleted i s t := by
  rcases exec_command_cases hc s with ⟨e, -, hexec⟩ | ⟨e, u, -, -, hdone, hexec⟩ | ⟨u, -, -, hdone, hexec⟩ | ⟨-, -, hexec⟩ <;>
    cases hexec.symm.trans h
  · exact (CommandDone.refl i s).completeErr e
  · exact hdone.completeErr e
  · exact hdone.completeDone

/-- The registers a command may write. -/
theorem CommandCompleted.eq_update (h : CommandCompleted i s t) : t = { s with
    done := t.done, err := t.err, ecode := t.ecode, cmdPending := none, inChannel := false, comp := t.comp, cursor := t.cursor,
    dataOut := t.dataOut, outCount := t.outCount, curCh := t.curCh, mem := t.mem } :=
  (State.eq_of_setup h.setup).trans (by rw [h.pending, h.channel])

/-- A command that answers a next state was turned away by its static checks, or they hold and its ranges exist. -/
theorem turnedAway_or_ready (hc : isCommand i = true) (h : exec i s = .next t) : (∃ e, t = s.completeErr e) ∨ s.ready i := by
  rcases exec_cases hc s with ⟨e, -, hexec⟩ | ⟨hr, -⟩ | ⟨-, -, hexec⟩
  · cases hexec.symm.trans h
    exact .inl ⟨e, rfl⟩
  · exact .inr hr
  · cases hexec.symm.trans h

/-- R86: a range does not exist exactly when one of its bytes does not. -/
theorem State.all_rangeExists_eq_false_iff (rs : List Range) :
    rs.all s.rangeExists = false ↔ ∃ r ∈ rs, ∃ j < r.len, s.byteExists (r.base + j) = false := by
  simp only [List.all_eq_false, State.rangeExists_iff, State.AllExist, not_forall, Bool.not_eq_true, exists_prop]

/-! ## Elements -/

/-- An element raises with nothing written, or writes memory and the progress registers only (R161 to R163). -/
def Exit.FramesElement (s : State) (x : Exit) : Prop :=
  (∃ e, x = .raise e s) ∨ ∃ t, x = .ok t ∧ t = { s with outCount := t.outCount, cursor := t.cursor, mem := t.mem }

theorem litEffect_frames (n : BitVec 7) (s : State) : (litEffect n s).FramesElement s := by
  rcases litEffect_cases n s with ⟨-, h⟩ | ⟨-, -, h⟩ | ⟨-, -, h⟩
  · exact .inl ⟨_, h⟩
  · exact .inl ⟨_, h⟩
  · exact .inr ⟨_, h, rfl⟩

theorem repEffect_frames (m : BitVec 7) (s : State) : (repEffect m s).FramesElement s := by
  rcases repEffect_cases m s with ⟨-, h⟩ | ⟨-, -, h⟩ | ⟨-, -, h⟩
  · exact .inl ⟨_, h⟩
  · exact .inl ⟨_, h⟩
  · exact .inr ⟨_, h, rfl⟩

theorem runElement_frame {f : State → Exit} (hf : (f s).FramesElement s) (h : runElement f s = .next t) :
    t.setup = s.setup ∧ t.comp = s.comp ∧ t.dataOut = s.dataOut := by
  rcases runElement_cases f s with ⟨-, hrun⟩ | ⟨-, -, hrun⟩ | ⟨-, -, hrun⟩
  · cases hrun.symm.trans h
  · cases hrun.symm.trans h
  · rw [hrun] at h
    rcases hf with ⟨e, he⟩ | ⟨u, hu, hframe⟩
    · rw [he] at h
      cases h
      exact ⟨rfl, rfl, rfl⟩
    · rw [hu] at h
      cases h
      rw [hframe]
      exact ⟨rfl, rfl, rfl⟩

/-- R41, R50, R54: what no instruction writes, and what only some do. -/
theorem exec_frame (h : exec i s = .next t) : t.setup = s.setup ∧ (i ≠ .decodeImage → t.comp = s.comp) ∧
    (i ∉ [Instr.swap16, .swap32, .ldbe16, .ldbe32] → t.dataOut = s.dataOut) := by
  cases hc : isCommand i with
  | true =>
    have hdone := commandCompleted_of_exec hc h
    exact ⟨hdone.setup, hdone.comp, hdone.dataOut⟩
  | false =>
    obtain ⟨f, hf, hrun⟩ : ∃ f, (f s).FramesElement s ∧ runElement f s = .next t := by
      cases i with
      | lit n => exact ⟨_, litEffect_frames n s, h⟩
      | rep m => exact ⟨_, repEffect_frames m s, h⟩
      | nop80 => exact ⟨nop80Effect, .inr ⟨_, rfl, rfl⟩, h⟩
      | _ => cases hc
    obtain ⟨hsetup, hcomp, hdata⟩ := runElement_frame hf hrun
    exact ⟨hsetup, fun _ => hcomp, fun _ => hdata⟩

/-! ## Planes -/

/-- R167: DecodePlane writes no byte outside its plane, whether or not it raises. -/
theorem PassesDone.other_plane {k a : Nat} (h : PassesDone (beginChannel k s) t) (hk : (beginChannel k s).curCh.toNat = k)
    (hw : s.mem.wf) (ha : ¬s.inPlane k a) : t.mem.read a = s.mem.read a := by
  refine h.other hw a fun j _ hj hpa => ha ⟨j, hj.trans_le h.count_bound, ?_⟩
  rw [hk] at hpa
  exact hpa

theorem exec_rleChan_other {ch : BitVec 8} (hr : s.ready (.rleChan ch)) (hw : s.mem.wf) (h : exec (.rleChan ch) s = .next t)
    {a : Nat} (ha : ¬s.inPlane ch.toNat a) : t.mem.read a = s.mem.read a := by
  obtain ⟨hgeom, -⟩ := (rleChan_ready_iff ch).mp hr
  obtain ⟨-, hplane, -⟩ := hgeom.planeLen_lt
  have hk := toNat_curCh_of_ready hr
  rw [exec_ready rfl hr, commandEffect] at h
  rcases decodePlane_cases ch.toNat hplane with ⟨e, u, hu, hdone, -⟩ | ⟨u, hu, hdone, -⟩ <;> rw [hu] at h <;> cases h <;>
    exact hdone.other_plane hk hw ha

theorem exec_rawChan_other {ch : BitVec 8} (hr : s.ready (.rawChan ch)) (hw : s.mem.wf) (h : exec (.rawChan ch) s = .next t)
    {a : Nat} (ha : ¬s.inPlane ch.toNat a) : t.mem.read a = s.mem.read a := by
  rw [exec_ready rfl hr, commandEffect] at h
  rcases copyPlane_done ch.toNat s with ⟨-, hu⟩ | ⟨u, hu, hdone, -⟩ <;> rw [hu] at h <;> cases h
  · rfl
  · exact hdone.other hw a ha

/-! ## Buffers and registers -/

theorem exec_mux_frame (hr : s.ready .mux) (hw : s.mem.wf) (h : exec .mux s = .next t) :
    t = { s with done := t.done, err := t.err, ecode := t.ecode, cmdPending := none, inChannel := false, mem := t.mem } ∧
      ∀ a, ¬s.inMuxOutput a → t.mem.read a = s.mem.read a := by
  cases (exec_mux_of_ready hr).symm.trans h
  exact ⟨rfl, fun _ ha => muxEffect_other hw ha⟩

theorem exec_swapbuf_frame {w : Nat} (hi : SwapsUnits i w) (hr : s.ready i) (hw : s.mem.wf) (h : exec i s = .next t) :
    t = { s with done := t.done, err := t.err, ecode := t.ecode, cmdPending := none, inChannel := false, mem := t.mem } ∧
      ∀ a, a < s.srcAddr.toNat ∨ s.srcAddr.toNat + s.xferLen.toNat ≤ a → t.mem.read a = s.mem.read a := by
  obtain ⟨m', hexec, hswap⟩ := exec_swapbuf_of_ready hi hr hw
  cases hexec.symm.trans h
  have := Nat.mul_div_le s.xferLen.toNat w
  exact ⟨rfl, fun a ha => hswap.other a (by omega)⟩

/-- The ends of SKIP_COUNTS write CURSOR and STATUS alone. -/
theorem exec_skipCounts_frame (h : exec .skipCounts s = .next t) : t = { s with
    done := t.done, err := t.err, ecode := t.ecode, cmdPending := none, inChannel := false, cursor := t.cursor } := by
  rcases turnedAway_or_ready rfl h with ⟨e, rfl⟩ | hr
  · rfl
  · rw [exec_ready rfl hr, commandEffect] at h
    rcases skipTable_cases s with ⟨-, hu⟩ | ⟨-, hu⟩ <;> rw [hu] at h <;> cases h <;> rfl

/-- The ends of LDBE16 and LDBE32 write CURSOR, DATA_OUT and STATUS alone. -/
theorem exec_ldbe_frame {n : Nat} (hi : LoadsBytes i n) (h : exec i s = .next t) : t = { s with
    done := t.done, err := t.err, ecode := t.ecode, cmdPending := none, inChannel := false, cursor := t.cursor,
    dataOut := t.dataOut } := by
  rcases turnedAway_or_ready hi.isCommand h with ⟨e, rfl⟩ | hr
  · rfl
  · rw [exec_ldbe_of_ready hi hr] at h
    rcases loadBE_cases n s with ⟨-, hu⟩ | ⟨-, hu⟩ <;> rw [hu] at h <;> cases h <;> rfl

/-! ## The obligations -/

/-- Settles O43: the four ends of a command's step. -/
theorem everyCommandCompletes : Obligations.EveryCommandCompletes := by
  intro s i hc
  rcases exec_command_cases hc s with ⟨e, -, hexec⟩ | ⟨e, u, -, -, hd, hexec⟩ | ⟨u, -, -, hd, hexec⟩ | ⟨hchecks, hranges, hexec⟩
  · exact .inl ⟨_, hexec, rfl, rfl, .inr ⟨rfl, rfl, e.code_bounds⟩⟩
  · exact .inl ⟨_, hexec, rfl, rfl, .inr ⟨rfl, hd.done, e.code_bounds⟩⟩
  · exact .inl ⟨_, hexec, rfl, rfl, .inl ⟨rfl, hd.err, hd.ecode⟩⟩
  · exact .inr ⟨hexec, hchecks, (State.all_rangeExists_eq_false_iff _).mp hranges⟩

/-- Settles O44: CURSOR's bounds are those of every command's effect. -/
theorem cursorStaysInStream : Obligations.CursorStaysInStream :=
  fun _ _ _ hc h => (commandCompleted_of_exec hc h).cursor

/-- Settles O45: what is left is the set-up, which no instruction writes. -/
theorem configurationNeverWritten : Obligations.ConfigurationNeverWritten := by
  intro s t i h
  obtain ⟨hsetup, hcomp, hdata⟩ := exec_frame h
  exact ⟨State.eq_of_setup hsetup, hcomp, hdata⟩

/-- Settles O13: a range with a missing byte does not exist. -/
theorem rangesOutsideRamRefused : Obligations.RangesOutsideRamRefused := by
  intro s i r j hc hchecks hr hj hmissing
  have hranges := (State.all_rangeExists_eq_false_iff (s := s) _).mpr ⟨r, hr, j, hj, hmissing⟩
  rcases exec_cases hc s with ⟨e, herror, -⟩ | ⟨⟨-, hexist⟩, -⟩ | ⟨-, -, hexec⟩
  · cases hchecks.symm.trans herror
  · cases hranges.symm.trans hexist
  · exact hexec

/-- Settles O30: the registers are those of every command, and the memory is that of DecodePlane and of CopyPlane. -/
theorem channelCommandsFrame : Obligations.ChannelCommandsFrame := by
  intro s t ch i hi hw h
  have hc : isCommand i = true := by rcases hi with rfl | rfl <;> rfl
  have hdone := commandCompleted_of_exec hc h
  have hcomp : t.comp = s.comp := hdone.comp (by rcases hi with rfl | rfl <;> simp)
  have hdata : t.dataOut = s.dataOut := hdone.dataOut (by rcases hi with rfl | rfl <;> simp)
  refine ⟨hdone.eq_update.trans (by rw [hcomp, hdata]), fun a ha => ?_⟩
  rcases turnedAway_or_ready hc h with ⟨e, rfl⟩ | hr
  · rfl
  · rcases hi with rfl | rfl
    · exact exec_rleChan_other hr hw h ha
    · exact exec_rawChan_other hr hw h ha

/-- Settles O35: MUX's and the swaps' completions write memory alone, where their loops do. -/
theorem bufferCommandsFrame : Obligations.BufferCommandsFrame := by
  intro s t i hi hw h
  have hc : isCommand i = true := by rcases hi with rfl | rfl | rfl <;> rfl
  rcases turnedAway_or_ready hc h with ⟨e, rfl⟩ | hr
  · exact ⟨rfl, fun _ _ => rfl⟩
  · rcases hi with rfl | rfl | rfl
    · exact exec_mux_frame hr hw h
    · exact exec_swapbuf_frame (.inl ⟨rfl, rfl⟩) hr hw h
    · exact exec_swapbuf_frame (.inr ⟨rfl, rfl⟩) hr hw h

/-- Settles O36: the ends of the commands that store nothing. -/
theorem registerCommandsFrame : Obligations.RegisterCommandsFrame := by
  intro s t
  refine ⟨fun h => ?_, exec_skipCounts_frame, fun i hi h => ?_, fun i hi h => ?_⟩
  · cases h
    rfl
  · rcases hi with rfl | rfl <;> cases h <;> rfl
  · rcases hi with rfl | rfl
    · exact exec_ldbe_frame (.inl ⟨rfl, rfl⟩) h
    · exact exec_ldbe_frame (.inr ⟨rfl, rfl⟩) h

end Sys2Proof.Machine

/-! The order of a command's static checks (R249): its parameters (R246, R242), then that its ranges fit (R247), then that they are apart
(R248). Then the obligations on ADDR_RANGE and OVERLAP. -/

namespace Sys2Proof.Machine

variable {s : State} {i : Instr} {e : ErrCode} {r q : Range}

/-! ## The three groups of static checks -/

/-- The checks of single parameters (R246, R242). -/
def paramChecks (i : Instr) (s : State) : List (Option ErrCode) :=
  match i with
  | .decodeImage | .mux => [checkGeom s, checkStride s]
  | .skipCounts => [checkGeom s]
  | .rleChan ch => [checkGeom s, checkChannel s ch.toNat]
  | .rawChan ch => [checkGeom s, checkChannel s ch.toNat, checkDepth s]
  | .swapbuf16 => [checkUnit s 2]
  | .swapbuf32 => [checkUnit s 4]
  | .nop | .swap16 | .swap32 | .ldbe16 | .ldbe32 | .lit _ | .nop80 | .rep _ => []

/-- The ranges that must fit (R247). -/
def checkedRanges (i : Instr) (s : State) : List Range :=
  match i with
  | .decodeImage => [s.streamRange, s.planesRange, s.outputRange]
  | .skipCounts | .ldbe16 | .ldbe32 => [s.streamRange]
  | .rleChan _ | .rawChan _ => [s.streamRange, s.planesRange]
  | .mux => [s.planesRange, s.outputRange]
  | .swapbuf16 | .swapbuf32 => [s.swapRange]
  | .nop | .swap16 | .swap32 | .lit _ | .nop80 | .rep _ => []

/-- The pairs of ranges that must be apart (R248). -/
def checkedPairs (i : Instr) (s : State) : List (Range × Range) :=
  match i with
  | .decodeImage => [(s.streamRange, s.planesRange), (s.streamRange, s.outputRange), (s.planesRange, s.outputRange)]
  | .rleChan _ | .rawChan _ => [(s.streamRange, s.planesRange)]
  | .mux => [(s.planesRange, s.outputRange)]
  | .skipCounts | .swapbuf16 | .swapbuf32 | .ldbe16 | .ldbe32 | .nop | .swap16 | .swap32 | .lit _ | .nop80 | .rep _ => []

theorem staticChecks_eq (i : Instr) (s : State) : staticChecks i s =
    paramChecks i s ++ ((checkedRanges i s).map checkRange ++ (checkedPairs i s).map fun p => checkDisjoint p.1 p.2) := by
  cases i <;> rfl

/-! ## The first error of a list -/

theorem firstError_append_of_none {cs : List (Option ErrCode)} (h : firstError cs = none) (ds : List (Option ErrCode)) :
    firstError (cs ++ ds) = firstError ds := by
  induction cs with
  | nil => rfl
  | cons c cs ih =>
    obtain ⟨rfl, hcs⟩ := (firstError_cons_eq_none c cs).mp h
    exact ih hcs

theorem firstError_append_of_some {cs : List (Option ErrCode)} (h : firstError cs = some e) (ds : List (Option ErrCode)) :
    firstError (cs ++ ds) = some e := by
  induction cs with
  | nil => cases h
  | cons c cs ih =>
    cases c with
    | some _ => exact h
    | none => exact ih h

theorem firstError_eq_none_of_forall {cs : List (Option ErrCode)} (h : ∀ c ∈ cs, c = none) : firstError cs = none := by
  induction cs with
  | nil => rfl
  | cons c cs ih =>
    exact (firstError_cons_eq_none c cs).mpr ⟨h c (by simp), ih fun d hd => h d (by simp [hd])⟩

/-- Where the checks of a list raise one code only, one that raises it decides. -/
theorem firstError_of_mem {cs : List (Option ErrCode)} (hcs : ∀ c ∈ cs, c = none ∨ c = some e) (h : some e ∈ cs) :
    firstError cs = some e := by
  induction cs with
  | nil => cases h
  | cons c cs ih =>
    rcases hcs c (by simp) with rfl | rfl
    · exact ih (fun d hd => hcs d (by simp [hd])) (by simpa using h)
    · rfl

theorem checkRange_cases (r : Range) : checkRange r = none ∨ checkRange r = some .addrRange := by
  unfold checkRange
  split_ifs <;> simp

theorem checkDisjoint_cases (r q : Range) : checkDisjoint r q = none ∨ checkDisjoint r q = some .overlap := by
  unfold checkDisjoint
  split_ifs <;> simp

theorem checkDisjoint_of_meet (h : ¬r.Apart q) : checkDisjoint r q = some .overlap :=
  (checkDisjoint_cases r q).resolve_left fun hnone => h ((checkDisjoint_none r q).mp hnone)

/-! ## The commands that end with ADDR_RANGE and OVERLAP -/

/-- R247, R249: its parameters passed, a range that passes 2^32 ends a command. -/
theorem exec_of_long_range (hc : isCommand i = true) (hparams : firstError (paramChecks i s) = none)
    (hr : r ∈ checkedRanges i s) (hlong : checkRange r = some .addrRange) : exec i s = .next (s.completeErr .addrRange) := by
  refine exec_error hc ?_
  rw [staticChecks_eq, firstError_append_of_none hparams]
  refine firstError_append_of_some (firstError_of_mem (fun c hc => ?_) (List.mem_map.mpr ⟨r, hr, hlong⟩)) _
  obtain ⟨q, -, rfl⟩ := List.mem_map.mp hc
  exact checkRange_cases q

/-- R248, R249: its parameters passed and its ranges below 2^32, two of them that meet end a command. -/
theorem exec_of_overlap (hc : isCommand i = true) (hparams : firstError (paramChecks i s) = none)
    (hfit : ∀ x ∈ checkedRanges i s, x.base + x.len ≤ 2 ^ 32) (hp : (r, q) ∈ checkedPairs i s) (hmeet : ¬r.Apart q) :
    exec i s = .next (s.completeErr .overlap) := by
  have hranges : firstError ((checkedRanges i s).map checkRange) = none := by
    refine firstError_eq_none_of_forall fun c hc => ?_
    obtain ⟨x, hx, rfl⟩ := List.mem_map.mp hc
    exact (checkRange_none x).mpr (.inr (hfit x hx))
  refine exec_error hc ?_
  rw [staticChecks_eq, firstError_append_of_none hparams, firstError_append_of_none hranges]
  refine firstError_of_mem (fun c hc => ?_) (List.mem_map.mpr ⟨(r, q), hp, checkDisjoint_of_meet hmeet⟩)
  obtain ⟨p, -, rfl⟩ := List.mem_map.mp hc
  exact checkDisjoint_cases p.1 p.2

/-! ## Parameters that pass -/

theorem paramChecks_skipCounts (hg : s.GeomLegal) : firstError (paramChecks .skipCounts s) = none := by
  rw [paramChecks, (checkGeom_none s).mpr hg]
  rfl

theorem paramChecks_rleChan {ch : BitVec 8} (hg : s.GeomLegal) (hk : ch.toNat < s.channels.toNat) :
    firstError (paramChecks (.rleChan ch) s) = none := by
  rw [paramChecks, (checkGeom_none s).mpr hg, (checkChannel_none s ch.toNat).mpr hk]
  rfl

theorem paramChecks_rawChan {ch : BitVec 8} (hg : s.GeomLegal) (hk : ch.toNat < s.channels.toNat)
    (hd : s.depth.toNat = 8 ∨ s.depth.toNat = 16) : firstError (paramChecks (.rawChan ch) s) = none := by
  rw [paramChecks, (checkGeom_none s).mpr hg, (checkChannel_none s ch.toNat).mpr hk, (checkDepth_none s).mpr hd]
  rfl

/-- DECODE_IMAGE has the same parameters as MUX. -/
theorem paramChecks_mux (hg : s.GeomLegal) (hS : s.muxStride.toNat = 1 ∨ s.muxStride.toNat = 2) :
    firstError (paramChecks .mux s) = none := by
  rw [paramChecks, (checkGeom_none s).mpr hg, (checkStride_none s).mpr hS]
  rfl

/-! ## The obligations -/

/-- Settles O11: every range a command checks is one of `checkedRanges`, after its parameters. -/
theorem addressRangeChecks : Obligations.AddressRangeChecks := by
  intro s ch
  refine ⟨fun hg => ⟨fun hlong => ?_, fun hlong hk => ?_, fun hS => ⟨fun hlong => ?_, fun hlong => ?_⟩⟩,
    fun hlong => ⟨fun hunit => ?_, fun hunit => ?_⟩, fun hlong => ⟨?_, ?_⟩⟩
  · exact exec_of_long_range rfl (paramChecks_skipCounts hg) (r := s.streamRange) (by simp [checkedRanges])
      (checkRange_of_long hlong)
  · obtain ⟨r, hr, hcheck⟩ : ∃ r ∈ [s.streamRange, s.planesRange], checkRange r = some .addrRange := by
      rcases hlong with hlong | hlong
      · exact ⟨s.streamRange, by simp, checkRange_of_long hlong⟩
      · exact ⟨s.planesRange, by simp, checkRange_of_long hlong⟩
    exact ⟨exec_of_long_range rfl (paramChecks_rleChan hg hk) hr hcheck,
      fun hd => exec_of_long_range rfl (paramChecks_rawChan hg hk hd) hr hcheck⟩
  · obtain ⟨r, hr, hcheck⟩ : ∃ r ∈ [s.planesRange, s.outputRange], checkRange r = some .addrRange := by
      rcases hlong with hlong | hlong
      · exact ⟨s.planesRange, by simp, checkRange_of_long hlong⟩
      · exact ⟨s.outputRange, by simp, checkRange_of_long hlong⟩
    exact ⟨exec_of_long_range rfl (paramChecks_mux hg hS) hr hcheck,
      exec_of_long_range rfl (paramChecks_mux hg hS) (List.mem_cons_of_mem _ hr) hcheck⟩
  · exact exec_of_long_range rfl (paramChecks_mux hg hS) (r := s.streamRange) (by simp [checkedRanges])
      (checkRange_of_long hlong)
  · exact exec_swapbuf_of_long (.inl ⟨rfl, rfl⟩) hunit hlong
  · exact exec_swapbuf_of_long (.inr ⟨rfl, rfl⟩) hunit hlong
  · exact exec_ldbe_of_long (.inl ⟨rfl, rfl⟩) hlong
  · exact exec_ldbe_of_long (.inr ⟨rfl, rfl⟩) hlong

/-- Settles O12: every pair a command checks is one of `checkedPairs`, after its parameters and its ranges. -/
theorem overlapChecks : Obligations.OverlapChecks := by
  intro s ch stream planes output hg hplanes
  refine ⟨fun hstream hmeet hk => ?_, fun hS houtput => ⟨fun hmeet => ?_, fun hstream hmeet => ?_⟩⟩
  · have hfit : ∀ x ∈ [s.streamRange, s.planesRange], x.base + x.len ≤ 2 ^ 32 := by
      simpa using ⟨hstream, hplanes⟩
    have hp : (s.streamRange, s.planesRange) ∈ [(s.streamRange, s.planesRange)] := List.mem_singleton_self _
    exact ⟨exec_of_overlap rfl (paramChecks_rleChan hg hk) hfit hp hmeet,
      fun hd => exec_of_overlap rfl (paramChecks_rawChan hg hk hd) hfit hp hmeet⟩
  · have hfit : ∀ x ∈ [s.planesRange, s.outputRange], x.base + x.len ≤ 2 ^ 32 := by
      simpa using ⟨hplanes, houtput⟩
    exact exec_of_overlap rfl (paramChecks_mux hg hS) hfit (List.mem_singleton_self _) hmeet
  · have hfit : ∀ x ∈ [s.streamRange, s.planesRange, s.outputRange], x.base + x.len ≤ 2 ^ 32 := by
      simpa using ⟨hstream, hplanes, houtput⟩
    obtain ⟨r, q, hp, hmeet⟩ : ∃ r q, (r, q) ∈ checkedPairs .decodeImage s ∧ ¬r.Apart q := by
      rcases hmeet with hmeet | hmeet | hmeet
      · exact ⟨_, _, .head _, hmeet⟩
      · exact ⟨_, _, .tail _ (.head _), hmeet⟩
      · exact ⟨_, _, .tail _ (.tail _ (.head _)), hmeet⟩
    exact exec_of_overlap rfl (paramChecks_mux hg hS) hfit hp hmeet

end Sys2Proof.Machine

/-! Accesses to the register window (10_state.md, 20_memory.md section 3): the offset an access reaches, what a write while BUSY = 0
stores, the fields of STATUS, what a read returns. Then the obligations on the window and on the order of moves. -/

namespace Sys2Proof.Machine

variable {s : State} {m : Move} {rest : List Move} {size : AccessSize} {addr v : Word} {r : RegName}

/-! ## Moves -/

/-- R16: the first scheduled move is taken. -/
theorem step_of_schedule_cons (h : s.schedule = m :: rest) : step s = runMove m { s with schedule := rest } := by
  simp only [step, nextMove, h]

/-- R263: with nothing pending the sequencer is idle. -/
theorem sequencerStep_of_idle (h : s.cmdPending = none) : sequencerStep s = .next s := by
  simp only [sequencerStep, h]

/-! ## Offsets -/

theorem State.windowOffset_outside (h : addr.toNat < s.regBase.toNat ∨ s.regBase.toNat + 0x100 ≤ addr.toNat) (size : AccessSize) :
    s.windowOffset addr size = .error .outsideWindow := if_pos h

/-- R85: inside the window the size and the offset decide. -/
theorem State.windowOffset_inside {off : Nat} (ha : addr.toNat = s.regBase.toNat + off) (hoff : off < 0x100) (size : AccessSize) :
    s.windowOffset addr size = if size = .word ∧ off % 4 = 0 then .ok off else .error .badAccess := by
  have hin : ¬(addr.toNat < s.regBase.toNat ∨ s.regBase.toNat + windowSize ≤ addr.toNat) := by
    simp only [windowSize]
    omega
  have hsub : addr.toNat - s.regBase.toNat = off := by omega
  simp only [State.windowOffset, if_neg hin, hsub]

theorem hostRegWrite_of_ok {off : Nat} (h : s.windowOffset addr size = .ok off) (v : Word) :
    hostRegWrite addr size v s = .next (s.writeOffset off v) := by simp only [hostRegWrite, h]

theorem hostRegWrite_of_error {e : Refusal} (h : s.windowOffset addr size = .error e) (v : Word) :
    hostRegWrite addr size v s = .refused e := by simp only [hostRegWrite, h]

theorem hostRegRead_of_ok {off : Nat} (h : s.windowOffset addr size = .ok off) :
    hostRegRead addr size s = .next (s.readOffset off) := by simp only [hostRegRead, h]

theorem hostRegRead_of_error {e : Refusal} (h : s.windowOffset addr size = .error e) :
    hostRegRead addr size s = .refused e := by simp only [hostRegRead, h]

theorem RegName.offset_lt (r : RegName) : r.offset < 0x50 := by cases r <;> decide

/-- R53: past CUR_CH no register stands. -/
theorem regAt_of_reserved {off : Nat} (h : 0x50 ≤ off) : regAt off = none := by
  cases hr : regAt off with
  | none => rfl
  | some r =>
    have := regAt_eq_some_iff.mp hr
    have := r.offset_lt
    omega

/-! ## Writes while BUSY = 0 -/

/-- The registers that store what is written and do nothing else (R54). -/
def plainRegs : List RegName :=
  [.width, .height, .channels, .depth, .muxStride, .srcAddr, .srcLen, .cursor, .planeAddr, .dstAddr, .xferLen, .dataIn]

theorem State.regValue_writeReg (hr : r ∈ plainRegs) (r' : RegName) :
    (s.writeReg r v).regValue r' = if r' = r then v else s.regValue r' := by
  simp only [plainRegs, List.mem_cons, List.not_mem_nil, or_false] at hr
  obtain rfl | rfl | rfl | rfl | rfl | rfl | rfl | rfl | rfl | rfl | rfl | rfl := hr <;> cases r' <;> rfl

theorem State.cmdPending_writeReg (hr : r ∈ plainRegs) : (s.writeReg r v).cmdPending = s.cmdPending := by
  simp only [plainRegs, List.mem_cons, List.not_mem_nil, or_false] at hr
  obtain rfl | rfl | rfl | rfl | rfl | rfl | rfl | rfl | rfl | rfl | rfl | rfl := hr <;> rfl

/-- R59, R8: no register write changes memory or the platform. -/
theorem State.writeCtrl_keeps (s : State) (v : Word) : (s.writeCtrl v).mem = s.mem ∧
    (s.writeCtrl v).ramHoles = s.ramHoles ∧ (s.writeCtrl v).regBase = s.regBase := by
  rw [State.writeCtrl]
  split_ifs <;> exact ⟨rfl, rfl, rfl⟩

theorem State.writeReg_keeps (s : State) (r : RegName) (v : Word) : (s.writeReg r v).mem = s.mem ∧
    (s.writeReg r v).ramHoles = s.ramHoles ∧ (s.writeReg r v).regBase = s.regBase := by
  cases r with
  | ctrl => exact s.writeCtrl_keeps v
  | _ => exact ⟨rfl, rfl, rfl⟩

theorem State.cmdPending_of_idle (h : s.busy = false) : s.cmdPending = none := by
  simpa [State.busy] using h

/-! ## STATUS -/

/-- R35: the layout of STATUS. -/
theorem State.toNat_statusWord (s : State) : s.statusWord.toNat =
    s.busy.toNat + 2 * s.done.toNat + 4 * s.err.toNat + 8 * s.drop.toNat + 256 * s.ecode.toNat := by
  have h : s.statusWord.toNat = (0#20 ++ s.ecode ++ 0#4 ++ BitVec.ofBool s.drop ++ BitVec.ofBool s.err ++
    BitVec.ofBool s.done ++ BitVec.ofBool s.busy).toNat := rfl
  rw [h]
  simp only [toNat_append_bits, BitVec.toNat_ofBool, BitVec.toNat_ofNat]
  omega

theorem getLsbD_eq_true_iff (v : Word) (n : Nat) : v.getLsbD n = true ↔ v.toNat / 2 ^ n % 2 = 1 := by
  rw [← BitVec.testBit_toNat, Nat.testBit_eq_decide_div_mod_eq, decide_eq_true_iff]

/-- R35: a bit written as 1 is cleared. -/
theorem and_not_eq_ite (b c : Bool) : (b && !c) = if c = true then false else b := by cases c <;> simp

/-! ## Reads -/

theorem State.readOffset_offset (s : State) (r : RegName) : s.readOffset r.offset = s.readReg r := by
  simp only [State.readOffset, regAt_offset]

/-- R56: a read returns the register, or, of a progress register while BUSY, a free value of its bits. -/
theorem State.readReg_cases (s : State) (r : RegName) :
    ((s.busy = false ∨ r.openBits = none) ∧ s.readReg r = { s with hostData := s.regValue r }) ∨
    (∃ bits, s.busy = true ∧ r.openBits = some bits ∧
      s.readReg r = { s with hostData := Config.freeWord s.draws &&& bits, draws := s.draws + 1 }) := by
  unfold State.readReg
  cases hbusy : s.busy with
  | false => exact .inl ⟨.inl rfl, rfl⟩
  | true =>
    cases hbits : r.openBits with
    | none => exact .inl ⟨.inr rfl, rfl⟩
    | some bits => exact .inr ⟨bits, rfl, rfl, rfl⟩

/-- R56: the registers that a read while BUSY leaves open. -/
theorem RegName.openBits_eq_none_iff (r : RegName) :
    r.openBits = none ↔ r ∉ [RegName.comp, .cursor, .dataOut, .outCount, .curCh] := by
  cases r <;> simp [RegName.openBits]

theorem toNat_and_le (x bits : Word) : (x &&& bits).toNat ≤ bits.toNat := by
  rw [BitVec.toNat_and]
  exact Nat.and_le_right

/-- R54, R56: a register whose value and whose open bits lie below a bound reads below it. -/
theorem State.readReg_lt {n : Nat} (hvalue : (s.regValue r).toNat < n) (hbits : ∀ bits, r.openBits = some bits → bits.toNat < n) :
    (s.readReg r).hostData.toNat < n := by
  rcases s.readReg_cases r with ⟨-, hread⟩ | ⟨bits, -, hopen, hread⟩ <;> rw [hread]
  · exact hvalue
  · exact (toNat_and_le _ _).trans_lt (hbits bits hopen)

/-! ## The obligations -/

/-- Settles O9: the schedule's head, or an idle sequencer. -/
theorem stepTakesMovesInOrder : Obligations.StepTakesMovesInOrder :=
  ⟨fun _ _ _ => step_of_schedule_cons, fun _ hsched hpend => (step_of_schedule_nil hsched).trans (sequencerStep_of_idle hpend)⟩

/-- Settles O46: every register of the reset state. -/
theorem resetValues : Obligations.ResetValues :=
  ⟨rfl, rfl, fun _ => State.regValue_reset, rfl, rfl, rfl⟩

/-- R85, log 15: an access that reaches no offset has its step refused. -/
theorem step_access_refused {e : Refusal} (h : s.windowOffset addr size = .error e) :
    (s.schedule = .regWrite addr size v :: rest → step s = .refused e) ∧
    (s.schedule = .regRead addr size :: rest → step s = .refused e) :=
  ⟨fun hsched => (step_of_schedule_cons hsched).trans (hostRegWrite_of_error (s := { s with schedule := rest }) h v),
    fun hsched => (step_of_schedule_cons hsched).trans (hostRegRead_of_error (s := { s with schedule := rest }) h)⟩

/-- Settles O47: the offset that an access reaches decides what its move does. -/
theorem windowAccesses : Obligations.WindowAccesses := by
  refine ⟨fun s rest => step_of_schedule_cons, fun s addr v size rest hout => step_access_refused (State.windowOffset_outside hout size),
    fun s addr v size rest off ha hoff => ?_⟩
  have hinside := State.windowOffset_inside ha hoff size
  refine ⟨fun hword => ?_, fun hbad => step_access_refused (hinside.trans (if_neg hbad))⟩
  have hreach := hinside.trans (if_pos hword)
  exact ⟨fun hsched => (step_of_schedule_cons hsched).trans (hostRegWrite_of_ok (s := { s with schedule := rest }) hreach v),
    fun hsched => (step_of_schedule_cons hsched).trans (hostRegRead_of_ok (s := { s with schedule := rest }) hreach)⟩

/-- Settles O48: while BUSY = 0 a write is `writeReg` of the register at its offset, and past CUR_CH there is none. -/
theorem idleWritesStore : Obligations.IdleWritesStore := by
  intro s v hidle
  refine ⟨fun r hr => ?_, State.writeOffset_of_idle hidle .cmd v, fun r hr => ?_, fun off hlo _ _ => ?_⟩
  · rw [State.writeOffset_of_idle hidle]
    refine ⟨?_, fun r' hr' => ?_, (s.writeReg_keeps r v).1, (State.cmdPending_writeReg hr).trans (State.cmdPending_of_idle hidle)⟩
    · rw [State.regValue_writeReg hr, if_pos rfl]
    · rw [State.regValue_writeReg hr, if_neg hr']
  · rw [State.writeOffset_of_idle hidle]
    simp only [List.mem_cons, List.not_mem_nil, or_false] at hr
    obtain rfl | rfl | rfl | rfl | rfl := hr <;> rfl
  · have hnone := regAt_of_reserved hlo
    simp only [State.writeOffset, State.readOffset, hidle, hnone, and_self]

/-- Settles O50: the layout of STATUS, and its W1C bit by bit. -/
theorem statusReadsAndClears : Obligations.StatusReadsAndClears := by
  refine ⟨State.toNat_statusWord, fun s v hidle => ⟨s.writeStatus v, State.writeOffset_of_idle hidle .status v, rfl, ?_⟩⟩
  have h1 : v.getLsbD 1 = true ↔ v.toNat / 2 % 2 = 1 := getLsbD_eq_true_iff v 1
  have h2 : v.getLsbD 2 = true ↔ v.toNat / 4 % 2 = 1 := getLsbD_eq_true_iff v 2
  have h3 : v.getLsbD 3 = true ↔ v.toNat / 8 % 2 = 1 := getLsbD_eq_true_iff v 3
  simp only [State.writeStatus_done, State.writeStatus_err, State.writeStatus_ecode, State.writeStatus_drop, and_not_eq_ite,
    h1, h2, h3, and_self]

/-- Settles O52: a read changes the host's record, and returns the register or free bits of it. -/
theorem readsHaveNoSideEffect : Obligations.ReadsHaveNoSideEffect := by
  intro s r
  rw [s.readOffset_offset]
  refine ⟨?_, fun hidle => ?_, fun hstable => ?_, fun hr => ?_, fun hr => ?_⟩
  · rcases s.readReg_cases r with ⟨-, hread⟩ | ⟨bits, -, -, hread⟩ <;> rw [hread]
  · rcases s.readReg_cases r with ⟨-, hread⟩ | ⟨bits, hbusy, -, -⟩
    · rw [hread]
    · cases hidle.symm.trans hbusy
  · rcases s.readReg_cases r with ⟨-, hread⟩ | ⟨bits, -, hbits, -⟩
    · rw [hread]
    · exact absurd (r.openBits_eq_none_iff.mpr hstable) (by rw [hbits]; nofun)
  · subst hr
    exact State.readReg_lt ((BitVec.toNat_setWidth_of_le (by decide)).trans_lt s.comp.isLt) (by rintro _ ⟨⟩; decide)
  · subst hr
    exact State.readReg_lt ((BitVec.toNat_setWidth_of_le (by decide)).trans_lt s.curCh.isLt) (by rintro _ ⟨⟩; decide)

end Sys2Proof.Machine

/-! The steps of the machine (R16, R95): what the sequencer, the host's accesses and the resets do and leave unchanged. Then the
obligations on the host's memory accesses, on the hard reset and on what a step changes. -/

namespace Sys2Proof.Machine

variable {s t : State} {i : Instr} {m : Memory} {a : Nat} {r : RegName} {v : Word}

/-! ## The accepted command's ranges -/

theorem State.mem_acceptedRanges {f : Instr → State → List Range} {q : Range} : q ∈ s.acceptedRanges f ↔
    ∃ i, s.acceptedCommand = some i ∧ firstError (staticChecks i s) = none ∧ q ∈ f i s := by
  unfold State.acceptedRanges
  cases s.acceptedCommand with
  | none => simp
  | some i => by_cases h : firstError (staticChecks i s) = none <;> simp [h]

theorem State.races_iff : s.races a = true ↔ ∃ q ∈ s.acceptedRanges usedRanges, q.base ≤ a ∧ a < q.base + q.len := by
  simp only [State.races, List.any_eq_true, Range.holds_iff]

/-! ## The host's accesses to memory -/

theorem hostAccess_of_race (h : s.races a = true) (t : State) : hostAccess a s t = .refused .race := if_pos h

theorem hostAccess_of_exists (h : s.races a = false) (hx : s.byteExists a = true) (t : State) : hostAccess a s t = .next t := by
  simp only [hostAccess, h, hx, Bool.false_eq_true, if_true, if_false]

theorem of_hostAccess {u : State} (h : hostAccess a s u = .next t) : t = u ∧ s.byteExists a = true := by
  unfold hostAccess at h
  split_ifs at h with hrace hx
  cases h
  exact ⟨rfl, hx⟩

/-! ## The hard reset -/

/-- R282: what every write of a free value to an existing byte of the ranges keeps, the reset keeps. -/
theorem foldl_scramble_keeps {P : Memory → Prop} (rs : List Range) (h : P m)
    (hwrite : ∀ q ∈ rs, ∀ j < q.len, ∀ m b, s.byteExists (q.base + j) = true → P m → P (m.write (q.base + j) b)) :
    P (rs.foldl (fun m q => s.scramble q m) m) := by
  refine List.foldlRecOn rs _ h fun m hm q hq => Memory.forEach_keeps hm fun j hj m hm => ?_
  split_ifs with hx
  · exact hwrite q hq j hj m _ hx hm
  · exact hm

/-- R280, R282: the two forms of the hard reset. -/
theorem hardReset_cases (s : State) : (s.busy = false ∧ hardReset s = s.resetRegs) ∨
    (s.busy = true ∧ hardReset s = { s.resetRegs with
      mem := (s.acceptedRanges writtenRanges).foldl (fun m q => s.scramble q m) s.mem, draws := s.draws + 1 }) := by
  unfold hardReset State.busy
  cases s.cmdPending with
  | none => exact .inl ⟨rfl, rfl⟩
  | some w => exact .inr ⟨rfl, rfl⟩

/-- R282: what the writes of a hard reset keep, it keeps. -/
theorem hardReset_mem_keeps {P : Memory → Prop} (h : P s.mem) (hwrite : ∀ q ∈ s.acceptedRanges writtenRanges, ∀ j < q.len,
    ∀ m b, s.byteExists (q.base + j) = true → P m → P (m.write (q.base + j) b)) : P (hardReset s).mem := by
  rcases hardReset_cases s with ⟨-, heq⟩ | ⟨-, heq⟩ <;> rw [heq]
  · exact h
  · exact foldl_scramble_keeps _ h hwrite

theorem hardReset_wf (hw : s.mem.wf) : (hardReset s).mem.wf :=
  hardReset_mem_keeps hw fun _ _ _ _ _ _ _ => Memory.write_wf

theorem hardReset_other (hw : s.mem.wf) (ha : ∀ q ∈ s.acceptedRanges writtenRanges, a < q.base ∨ q.base + q.len ≤ a) :
    (hardReset s).mem.read a = s.mem.read a := by
  suffices h : (hardReset s).mem.wf ∧ (hardReset s).mem.read a = s.mem.read a from h.2
  refine hardReset_mem_keeps (P := fun m => m.wf ∧ m.read a = s.mem.read a) ⟨hw, rfl⟩ fun q hq j hj m b _ hm => ?_
  have hne : a ≠ q.base + j := by have := ha q hq; omega
  exact ⟨Memory.write_wf hm.1, (Memory.read_write_other hm.1 hne).trans hm.2⟩

theorem hardReset_entries : ∀ c ∈ (hardReset s).mem, c ∈ s.mem ∨ s.byteExists c.1 = true := by
  refine hardReset_mem_keeps (P := fun m => ∀ c ∈ m, c ∈ s.mem ∨ s.byteExists c.1 = true) (fun c hc => .inl hc)
    fun q _ j _ m b hx hm c hc => ?_
  rcases Memory.mem_write hc with hc | hc
  · rw [hc]
    exact .inr hx
  · exact hm c hc

/-- R280: every register is at its reset value. -/
theorem hardReset_eq (s : State) : hardReset s = { State.reset with
    mem := (hardReset s).mem, draws := (hardReset s).draws, ramHoles := s.ramHoles, regBase := s.regBase,
    schedule := s.schedule, hostData := s.hostData } := by
  rcases hardReset_cases s with ⟨-, heq⟩ | ⟨-, heq⟩ <;> rw [heq] <;> rfl

theorem hardReset_mem_of_idle (h : s.busy = false) : (hardReset s).mem = s.mem := by
  rcases hardReset_cases s with ⟨-, heq⟩ | ⟨hbusy, -⟩
  · rw [heq, State.resetRegs_mem]
  · cases h.symm.trans hbusy

/-! ## The sequencer -/

/-- R167: everything the step between two elements can do, its channel's checks made. -/
theorem channelStep_cases (h : channelStep i s = .next t) : decodesChannels i = true ∧ s.ready i ∧ s.curCh.toNat < s.chanCount ∧
    (t = s.completeErr .truncated ∨
      (s.outCount.toNat < s.planeLen ∧ s.cursor.toNat < s.srcLen.toNat ∧
        exec (decodeElement (s.srcByte s.cursor.toNat)) s = .next t) ∨
      t = closeChannel i s) := by
  unfold channelStep at h
  split_ifs at h with hchecks hranges hcount hcur
  all_goals
    obtain ⟨hdecodes, hstatic, hk⟩ := hchecks
    refine ⟨hdecodes, ⟨hstatic, hranges⟩, hk, ?_⟩
  · cases h
    exact .inl rfl
  · exact .inr (.inl ⟨hcount, not_le.mp hcur, h⟩)
  · cases h
    exact .inr (.inr rfl)

/-- R95: everything the sequencer's step can do. -/
theorem sequencerStep_cases (h : sequencerStep s = .next t) : (s.cmdPending = none ∧ t = s) ∨
    (s.busy = true ∧ t = s.completeErr .illegalCmd) ∨
    (∃ i, s.acceptedCommand = some i ∧ s.busy = true ∧ isCommand i = true ∧
      ((s.inChannel = true ∧ channelStep i s = .next t) ∨ (s.inChannel = false ∧ exec i s = .next t))) := by
  cases hpend : s.cmdPending with
  | none =>
    rw [sequencerStep_of_idle hpend] at h
    cases h
    exact .inl ⟨rfl, rfl⟩
  | some w =>
    have hbusy : s.busy = true := by rw [State.busy, hpend]; rfl
    cases hdec : decodeCommand w with
    | error e =>
      rw [sequencerStep_of_illegal hpend hdec] at h
      cases h
      exact .inr (.inl ⟨hbusy, rfl⟩)
    | ok i =>
      simp only [sequencerStep, hpend, hdec] at h
      refine .inr (.inr ⟨i, acceptedCommand_of_decode hpend hdec, hbusy, isCommand_of_decode hdec, ?_⟩)
      cases hin : s.inChannel <;> simp only [hin, Bool.false_eq_true, if_true, if_false] at h
      · exact .inr ⟨rfl, h⟩
      · exact .inl ⟨rfl, h⟩

theorem setup_closeChannel (i : Instr) (s : State) : (closeChannel i s).setup = s.setup := by
  cases i with
  | decodeImage => rw [closeChannel]; split_ifs <;> rfl
  | _ => rfl

/-- R41, R54: the sequencer writes no configuration register. -/
theorem sequencerStep_setup (h : sequencerStep s = .next t) : t.setup = s.setup := by
  rcases sequencerStep_cases h with ⟨-, rfl⟩ | ⟨-, rfl⟩ | ⟨i, -, -, -, ⟨-, hstep⟩ | ⟨-, hexec⟩⟩
  · rfl
  · rfl
  · obtain ⟨-, -, -, rfl | ⟨-, -, hexec⟩ | rfl⟩ := channelStep_cases hstep
    · rfl
    · exact (exec_frame hexec).1
    · exact setup_closeChannel i s
  · exact (exec_frame hexec).1

/-! ## What a step leaves unchanged -/

/-- The platform and the configuration (R8, R30): the set-up without DROP and the model's own fields. -/
def State.configuration (s : State) : State := { s.setup with drop := false, schedule := [], hostData := 0, draws := 0 }

theorem State.configuration_congr {α : Type} (f : State → α) (hf : ∀ s, f s.configuration = f s)
    (h : t.configuration = s.configuration) : f t = f s := by
  rw [← hf t, h, hf s]

theorem State.configuration_of_setup (h : t.setup = s.setup) : t.configuration = s.configuration := by
  rw [State.configuration, h, State.configuration]

theorem State.platform_of_configuration (h : t.configuration = s.configuration) : t.ramHoles = s.ramHoles ∧ t.regBase = s.regBase :=
  ⟨State.configuration_congr State.ramHoles (fun _ => rfl) h, State.configuration_congr State.regBase (fun _ => rfl) h⟩

/-- The registers that hold the configuration (R34, R36 to R49). -/
def configRegs : List RegName :=
  [.id, .ctrl, .cmd, .width, .height, .channels, .depth, .muxStride, .srcAddr, .srcLen, .planeAddr, .dstAddr, .xferLen, .dataIn]

theorem State.regValue_of_configuration (h : t.configuration = s.configuration) (hr : r ∈ configRegs) :
    t.regValue r = s.regValue r := by
  refine State.configuration_congr (fun s => s.regValue r) (fun s => ?_) h
  simp only [configRegs, List.mem_cons, List.not_mem_nil, or_false] at hr
  obtain rfl | rfl | rfl | rfl | rfl | rfl | rfl | rfl | rfl | rfl | rfl | rfl | rfl | rfl := hr <;> rfl

theorem State.configuration_readOffset (s : State) (off : Nat) : (s.readOffset off).configuration = s.configuration := by
  unfold State.readOffset
  cases regAt off with
  | none => rfl
  | some r => rcases s.readReg_cases r with ⟨-, hread⟩ | ⟨bits, -, -, hread⟩ <;> simp only [hread] <;> rfl

theorem State.configuration_writeOffset (h : s.busy = true) (off : Nat) (v : Word) :
    (s.writeOffset off v).configuration = s.configuration := by
  rw [State.writeOffset_of_busy h]
  split_ifs <;> rfl

/-- A write at an offset is ignored, sets DROP, or, with BUSY = 0, is the write of the register there (R53 to R55). -/
theorem State.writeOffset_cases (s : State) (off : Nat) (v : Word) : s.writeOffset off v = s ∨
    s.writeOffset off v = { s with drop := true } ∨ (s.busy = false ∧ ∃ r, s.writeOffset off v = s.writeReg r v) := by
  cases hbusy : s.busy with
  | true =>
    rw [State.writeOffset_of_busy hbusy]
    split_ifs
    · exact .inr (.inl rfl)
    · exact .inl rfl
  | false =>
    cases hreg : regAt off with
    | none => exact .inl (by simp only [State.writeOffset, hbusy, hreg])
    | some r => exact .inr (.inr ⟨rfl, r, by simp only [State.writeOffset, hbusy, hreg]⟩)

theorem State.writeOffset_keeps (s : State) (off : Nat) (v : Word) : (s.writeOffset off v).mem = s.mem ∧
    (s.writeOffset off v).ramHoles = s.ramHoles ∧ (s.writeOffset off v).regBase = s.regBase := by
  rcases s.writeOffset_cases off v with h | h | ⟨-, r, h⟩ <;> rw [h]
  · exact ⟨rfl, rfl, rfl⟩
  · exact ⟨rfl, rfl, rfl⟩
  · exact s.writeReg_keeps r v

theorem State.readOffset_mem (s : State) (off : Nat) : (s.readOffset off).mem = s.mem := by
  unfold State.readOffset
  cases regAt off with
  | none => rfl
  | some r => rcases s.readReg_cases r with ⟨-, hread⟩ | ⟨bits, -, -, hread⟩ <;> simp only [hread]

/-! ## Moves -/

/-- Everything a move that answers a next state can be (R16, R80, R87, R280). -/
theorem runMove_cases {mv : Move} (h : runMove mv s = .next t) :
    (∃ addr size v, mv = .regWrite addr size v ∧ ∃ off, t = s.writeOffset off v) ∨
    (∃ addr size, mv = .regRead addr size ∧ ∃ off, t = s.readOffset off) ∨
    (∃ addr b, mv = .memWrite addr b ∧ s.byteExists addr.toNat = true ∧ t = { s with mem := s.mem.write addr.toNat b }) ∨
    (∃ addr w, mv = .memRead addr ∧ t = { s with hostData := w }) ∨
    (mv = .hardReset ∧ t = hardReset s) ∨
    (mv = .sequencer ∧ sequencerStep s = .next t) := by
  cases mv with
  | regWrite addr size v =>
    cases hoff : s.windowOffset addr size with
    | error e => cases (hostRegWrite_of_error hoff v).symm.trans h
    | ok off =>
      cases (hostRegWrite_of_ok hoff v).symm.trans h
      exact .inl ⟨addr, size, v, rfl, off, rfl⟩
  | regRead addr size =>
    cases hoff : s.windowOffset addr size with
    | error e => cases (hostRegRead_of_error hoff).symm.trans h
    | ok off =>
      cases (hostRegRead_of_ok hoff).symm.trans h
      exact .inr (.inl ⟨addr, size, rfl, off, rfl⟩)
  | memWrite addr b =>
    obtain ⟨rfl, hx⟩ := of_hostAccess h
    exact .inr (.inr (.inl ⟨addr, b, rfl, hx, rfl⟩))
  | memRead addr =>
    obtain ⟨rfl, -⟩ := of_hostAccess h
    exact .inr (.inr (.inr (.inl ⟨addr, _, rfl, rfl⟩)))
  | hardReset =>
    cases h
    exact .inr (.inr (.inr (.inr (.inl ⟨rfl, rfl⟩))))
  | secondHost => cases h
  | sequencer => exact .inr (.inr (.inr (.inr (.inr ⟨rfl, h⟩))))

/-- R8: no move changes the platform. -/
theorem runMove_platform {mv : Move} (h : runMove mv s = .next t) : t.ramHoles = s.ramHoles ∧ t.regBase = s.regBase := by
  rcases runMove_cases h with ⟨_, _, v, -, off, rfl⟩ | ⟨_, _, -, off, rfl⟩ | ⟨_, _, -, -, rfl⟩ | ⟨_, _, -, rfl⟩ |
    ⟨-, rfl⟩ | ⟨-, hstep⟩
  · exact (s.writeOffset_keeps off v).2
  · exact State.platform_of_configuration (s.configuration_readOffset off)
  · exact ⟨rfl, rfl⟩
  · exact ⟨rfl, rfl⟩
  · rw [hardReset_eq]
    exact ⟨rfl, rfl⟩
  · exact State.platform_of_configuration (State.configuration_of_setup (sequencerStep_setup hstep))

/-- R55, R57: while BUSY no move but a hard reset changes the configuration. -/
theorem runMove_configuration {mv : Move} (hbusy : s.busy = true) (hmv : mv ≠ .hardReset) (h : runMove mv s = .next t) :
    t.configuration = s.configuration := by
  rcases runMove_cases h with ⟨_, _, v, -, off, rfl⟩ | ⟨_, _, -, off, rfl⟩ | ⟨_, _, -, -, rfl⟩ | ⟨_, _, -, rfl⟩ |
    ⟨hreset, -⟩ | ⟨-, hstep⟩
  · exact State.configuration_writeOffset hbusy off v
  · exact s.configuration_readOffset off
  · rfl
  · rfl
  · exact absurd hreset hmv
  · exact State.configuration_of_setup (sequencerStep_setup hstep)

/-- R16: a step is the sequencer's with nothing scheduled, or the first scheduled move's. -/
theorem step_cases (h : step s = .next t) : (s.schedule = [] ∧ runMove .sequencer s = .next t) ∨
    (∃ mv rest, s.schedule = mv :: rest ∧ runMove mv { s with schedule := rest } = .next t) := by
  cases hsched : s.schedule with
  | nil => exact .inl ⟨rfl, (step_of_schedule_nil hsched).symm.trans h⟩
  | cons mv rest => exact .inr ⟨mv, rest, rfl, (step_of_schedule_cons hsched).symm.trans h⟩

/-! ## The obligations -/

/-- Settles O54: the access races inside the accepted ranges, and takes place outside them. -/
theorem hostMemoryAccesses : Obligations.HostMemoryAccesses := by
  intro s a b rest
  refine ⟨fun hin => ?_, fun hout hx => ?_⟩
  · have hrace : State.races { s with schedule := rest } a.toNat = true := by
      obtain ⟨i, haccepted, hchecks, q, hq, ha⟩ := hin
      exact State.races_iff.mpr ⟨q, State.mem_acceptedRanges.mpr ⟨i, haccepted, hchecks, hq⟩, ha⟩
    exact ⟨fun hsched => (step_of_schedule_cons hsched).trans (hostAccess_of_race hrace _),
      fun hsched => (step_of_schedule_cons hsched).trans (hostAccess_of_race hrace _)⟩
  · have hfree : State.races { s with schedule := rest } a.toNat = false := by
      refine eq_false_of_ne_true fun hrace => ?_
      obtain ⟨q, hq, ha⟩ := State.races_iff.mp hrace
      obtain ⟨i, haccepted, -, hq⟩ := State.mem_acceptedRanges.mp hq
      have := hout i haccepted q hq
      omega
    refine ⟨fun hsched hw => ?_, fun hsched => ?_⟩
    · exact ⟨s.mem.write a.toNat b, (step_of_schedule_cons hsched).trans (hostAccess_of_exists hfree hx _),
        Memory.write_wf hw, fun x => Memory.read_write hw⟩
    · exact ⟨_, (step_of_schedule_cons hsched).trans (hostAccess_of_exists hfree hx _),
        BitVec.toNat_setWidth_of_le (by decide)⟩

/-- Settles O55: the hard reset's registers, and what its writes keep of memory. -/
theorem hardResetResets : Obligations.HardResetResets := by
  intro s rest hsched
  have hstep : step s = .next (hardReset { s with schedule := rest }) := step_of_schedule_cons hsched
  refine ⟨(hardReset { s with schedule := rest }).mem, (hardReset { s with schedule := rest }).draws, ?_,
    fun hidle => hardReset_mem_of_idle (s := { s with schedule := rest }) hidle, fun hw => ⟨hardReset_wf hw, fun a ha => ?_⟩⟩
  · rw [hstep]
    exact congrArg _ (hardReset_eq _)
  · exact hardReset_other (s := { s with schedule := rest }) hw ha

/-- Settles O56: every move keeps the platform, and the configuration unless it is a hard reset. -/
theorem busyFreezesConfiguration : Obligations.BusyFreezesConfiguration := by
  intro s t hstep
  rcases step_cases hstep with ⟨-, hmove⟩ | ⟨mv, rest, hsched, hmove⟩
  · obtain ⟨hram, hbase⟩ := runMove_platform hmove
    exact ⟨hram, hbase, fun hbusy _ _ =>
      State.regValue_of_configuration (runMove_configuration (mv := .sequencer) hbusy nofun hmove)⟩
  · obtain ⟨hram, hbase⟩ := runMove_platform hmove
    refine ⟨hram, hbase, fun hbusy hno _ => State.regValue_of_configuration ?_⟩
    refine runMove_configuration (s := { s with schedule := rest }) hbusy (fun hreset => hno rest ?_) hmove
    rw [hsched, hreset]

/-- Settles O57: a register access and a host read keep memory, and so does a hard reset of an idle block. -/
theorem registerMovesKeepMemory : Obligations.RegisterMovesKeepMemory := by
  intro s t mv rest hsched hstep hmem
  rw [step_of_schedule_cons hsched] at hstep
  rcases runMove_cases hstep with ⟨_, _, v, -, off, rfl⟩ | ⟨_, _, -, off, rfl⟩ | ⟨addr, b, rfl, -⟩ | ⟨_, _, -, rfl⟩ |
    ⟨rfl, rfl⟩ | ⟨rfl, -⟩
  · exact absurd (State.writeOffset_keeps _ off v).1 hmem
  · exact absurd (State.readOffset_mem _ off) hmem
  · exact .inr (.inl ⟨addr, b, rfl⟩)
  · exact absurd rfl hmem
  · refine .inr (.inr ⟨rfl, ?_⟩)
    by_contra hidle
    exact hmem (hardReset_mem_of_idle (s := { s with schedule := rest }) (eq_false_of_ne_true hidle))
  · exact .inl rfl

/-- Settles O58: the sequencer is idle, or its command ends in one of the two completions. -/
theorem commandIsOneStep : Obligations.CommandIsOneStep := by
  intro s t hsched hclosed hstep
  rw [step_of_schedule_nil hsched] at hstep
  rcases sequencerStep_cases hstep with ⟨hpend, rfl⟩ | ⟨-, rfl⟩ | ⟨i, -, -, hc, ⟨hopen, -⟩ | ⟨-, hexec⟩⟩
  · exact ⟨by rw [State.busy, hpend]; rfl, hclosed⟩
  · exact ⟨rfl, rfl⟩
  · cases hclosed.symm.trans hopen
  · have hdone := commandCompleted_of_exec hc hexec
    exact ⟨by rw [State.busy, hdone.pending]; rfl, hdone.channel⟩

/-- Settles O6: with no channel open the sequencer runs the accepted instruction. -/
theorem stepRunsAcceptedCommand : Obligations.StepRunsAcceptedCommand := by
  intro s w i hsched hclosed hpend hdec
  rw [step_of_schedule_nil hsched]
  simp only [sequencerStep, hpend, hdec, hclosed, Bool.false_eq_true, if_false]

end Sys2Proof.Machine

/-! The invariant of Safety.lean: what each of its three parts needs, and that completions, elements, the ends of a channel, register
writes, resets and so all moves keep it. Then the obligations on the invariant. -/

namespace Sys2Proof.Machine

variable {s t : State} {i : Instr}

/-! ## Status, channel and memory -/

theorem State.StatusOk.clear_of_busy (h : s.StatusOk) (hbusy : s.busy = true) :
    s.done = false ∧ s.err = false ∧ s.ecode = 0 := by
  obtain ⟨-, hzero, -, hclear⟩ := h
  obtain ⟨hdone, herr⟩ := hclear hbusy
  exact ⟨hdone, herr, hzero herr⟩

/-- R35, R250: ERR with its code, DONE as it was, nothing pending. -/
theorem State.statusOk_of_err {e : ErrCode} (hdone : s.done = false) (herr : s.err = true) (hcode : s.ecode = e.code)
    (hpend : s.cmdPending = none) : s.StatusOk := by
  refine ⟨fun h => ?_, fun h => ?_, fun _ => hcode ▸ e.code_bounds, fun h => ?_⟩
  · cases hdone.symm.trans h
  · cases herr.symm.trans h
  · rw [State.busy, hpend] at h
    cases h

/-- R35, R253: no error, and, while BUSY, DONE clear. -/
theorem State.statusOk_of_no_err (herr : s.err = false) (hcode : s.ecode = 0) (hbusy : s.busy = true → s.done = false) :
    s.StatusOk := by
  refine ⟨fun _ => herr, fun _ => hcode, fun h => ?_, fun h => ⟨hbusy h, herr⟩⟩
  cases herr.symm.trans h

theorem State.channelOk_of_closed (h : s.inChannel = false) : s.ChannelOk := by
  intro hopen
  cases h.symm.trans hopen

/-- R86: entries that were there, or stand at bytes that exist, are listed bytes that exist. -/
theorem State.MemoryOk.of_entries (h : s.MemoryOk) (hx : t.byteExists = s.byteExists) (hw : t.mem.wf)
    (hentries : ∀ c ∈ t.mem, c ∈ s.mem ∨ s.byteExists c.1 = true) : t.MemoryOk := by
  refine ⟨hw, fun c hc => ?_⟩
  rw [hx]
  exact (hentries c hc).elim (h.2 c) id

/-! ## The invariant, kept by each part of a step -/

theorem State.Inv.completeErr (h : s.Inv) (hbusy : s.busy = true) (e : ErrCode) : (s.completeErr e).Inv := by
  obtain ⟨hmem, hstatus, -⟩ := h
  obtain ⟨hdone, -, -⟩ := hstatus.clear_of_busy hbusy
  exact ⟨hmem, State.statusOk_of_err (e := e) hdone rfl rfl rfl, State.channelOk_of_closed rfl⟩

theorem State.Inv.completeDone (h : s.Inv) (hbusy : s.busy = true) : s.completeDone.Inv := by
  obtain ⟨hmem, hstatus, -⟩ := h
  obtain ⟨-, herr, hcode⟩ := hstatus.clear_of_busy hbusy
  exact ⟨hmem, State.statusOk_of_no_err herr hcode (by simp), State.channelOk_of_closed rfl⟩

/-- R116: a command keeps the invariant. -/
theorem State.Inv.of_command (h : s.Inv) (hbusy : s.busy = true) (hc : CommandCompleted i s t) : t.Inv := by
  obtain ⟨hmem, hstatus, -⟩ := h
  obtain ⟨hdone, herr, hcode⟩ := hstatus.clear_of_busy hbusy
  refine ⟨hmem.of_entries (State.setup_byteExists hc.setup) (hc.wf hmem.1) hc.entries, ?_, State.channelOk_of_closed hc.channel⟩
  rcases hc.ends with ⟨-, herr', hcode'⟩ | ⟨herr', hdone', e, hcode'⟩
  · refine State.statusOk_of_no_err (herr'.trans herr) (hcode'.trans hcode) fun hb => ?_
    rw [State.busy, hc.pending] at hb
    cases hb
  · exact State.statusOk_of_err (hdone'.trans hdone) herr' hcode' hc.pending

/-- R160, R166: what the checks of a command that decodes channels give its planes. -/
theorem planes_of_decodesChannels (hd : decodesChannels i = true) (hr : s.ready i) :
    s.planeLen < 2 ^ 32 ∧ s.AllExist s.planesRange := by
  cases i with
  | decodeImage =>
    obtain ⟨hgeom, -, -, -, -, -, -, -, -, hplanes, -⟩ := decodeImage_ready_iff.mp hr
    obtain ⟨-, hlen, -⟩ := hgeom.planeLen_lt
    exact ⟨hlen, hplanes⟩
  | rleChan ch =>
    obtain ⟨hgeom, -, -, -, -, -, hplanes⟩ := (rleChan_ready_iff ch).mp hr
    obtain ⟨-, hlen, -⟩ := hgeom.planeLen_lt
    exact ⟨hlen, hplanes⟩
  | _ => cases hd

/-- R160: an element of an open channel keeps the invariant. -/
theorem State.Inv.of_element {c : Byte} (h : s.Inv) (hbusy : s.busy = true) (hf : ElementFits s)
    (hk : s.curCh.toNat < s.chanCount) (hx : s.AllExist s.planesRange) (hexec : exec (decodeElement c) s = .next t) : t.Inv := by
  rw [exec_decodeElement] at hexec
  rcases runElement_cases (elementEffect c) s with ⟨-, hrun⟩ | ⟨-, -, hrun⟩ | ⟨-, -, hrun⟩ <;> rw [hrun] at hexec
  · cases hexec
  · cases hexec
  · rcases elementEffect_cases c hf with ⟨-, he⟩ | ⟨-, -, he⟩ | ⟨-, -, u, he, hdone, -⟩ <;> rw [he] at hexec <;> cases hexec
    · exact h.completeErr hbusy _
    · exact h.completeErr hbusy _
    · obtain ⟨hmem, hstatus, hchannel⟩ := h
      refine ⟨hmem.of_entries (State.setup_byteExists hdone.setup) (hdone.wf hmem.1) fun c hc => ?_, ?_, ?_⟩
      · refine (hdone.entries c hc).imp id ?_
        rintro ⟨j, hj, hcj⟩
        obtain ⟨hlo, hhi⟩ := State.planeByte_mem hk hj
        rw [hcj]
        exact hx.byte hlo hhi
      · rw [hdone.frame]
        exact hstatus
      · rw [hdone.frame]
        exact hchannel

/-- R149: Mux keeps the invariant. -/
theorem State.Inv.muxEffect (h : s.Inv) (hr : s.ready .decodeImage) : (muxEffect s).Inv := by
  obtain ⟨hmem, hstatus, hchannel⟩ := h
  obtain ⟨-, hstride, -, -, -, -, -, -, -, -, houtput⟩ := decodeImage_ready_iff.mp hr
  refine ⟨hmem.of_entries rfl (muxEffect_wf hmem.1) fun c hc => (mem_muxEffect hc).imp id fun hout => ?_, hstatus, hchannel⟩
  obtain ⟨hlo, hhi⟩ := State.inMuxOutput_mem (by omega) hout
  exact houtput.byte hlo hhi

/-- R167: the end of a channel keeps the invariant. -/
theorem State.Inv.closeChannel (h : s.Inv) (hbusy : s.busy = true) (haccepted : s.acceptedCommand = some i)
    (hdecodes : decodesChannels i = true) (hr : s.ready i) : (closeChannel i s).Inv := by
  cases i with
  | decodeImage =>
    rw [Machine.closeChannel]
    split_ifs
    · obtain ⟨hmem, hstatus, -⟩ := h
      exact ⟨hmem, hstatus, fun _ => ⟨_, haccepted, hdecodes⟩⟩
    · exact (h.muxEffect hr).completeDone hbusy
  | rleChan ch => exact h.completeDone hbusy
  | _ => cases hdecodes

theorem State.Inv.sequencerStep (h : s.Inv) (hstep : sequencerStep s = .next t) : t.Inv := by
  rcases sequencerStep_cases hstep with ⟨-, rfl⟩ | ⟨hbusy, rfl⟩ | ⟨i, haccepted, hbusy, hc, ⟨-, hstep⟩ | ⟨-, hexec⟩⟩
  · exact h
  · exact h.completeErr hbusy _
  · obtain ⟨hdecodes, hr, hk, rfl | ⟨hcount, hcur, hexec⟩ | rfl⟩ := channelStep_cases hstep
    · exact h.completeErr hbusy _
    · obtain ⟨hplane, hx⟩ := planes_of_decodesChannels hdecodes hr
      exact h.of_element hbusy ⟨hplane, hcount.le, hcur⟩ hk hx hexec
    · exact h.closeChannel hbusy haccepted hdecodes hr
  · exact h.of_command hbusy (commandCompleted_of_exec hc hexec)

/-- R57: a channel is open only while BUSY. -/
theorem State.ChannelOk.closed_of_idle (h : s.ChannelOk) (hidle : s.busy = false) : s.inChannel = false := by
  cases hopen : s.inChannel with
  | false => rfl
  | true =>
    obtain ⟨i, haccepted, -⟩ := h hopen
    obtain ⟨w, hpend, -⟩ := acceptedCommand_eq_some haccepted
    rw [State.busy, hpend] at hidle
    cases hidle

/-- R35: the bits that a STATUS write clears leave ERR and ECODE together. -/
theorem State.StatusOk.writeStatus (h : s.StatusOk) (hidle : s.busy = false) (v : Word) : (s.writeStatus v).StatusOk := by
  obtain ⟨hexcl, hzero, hrange, -⟩ := h
  have hbusy : (s.writeStatus v).busy = false := hidle
  refine ⟨fun hd => ?_, fun he => ?_, fun he => ?_, fun hb => ?_⟩
  · rw [State.writeStatus_done, Bool.and_eq_true] at hd
    rw [State.writeStatus_err, hexcl hd.1, Bool.false_and]
  · rw [State.writeStatus_ecode]
    rw [State.writeStatus_err] at he
    split_ifs with hbit
    · rfl
    · rw [eq_false_of_ne_true hbit, Bool.not_false, Bool.and_true] at he
      exact hzero he
  · rw [State.writeStatus_err, Bool.and_eq_true, Bool.not_eq_true'] at he
    rw [State.writeStatus_ecode, he.2]
    exact hrange he.1
  · cases hbusy.symm.trans hb

theorem State.Inv.writeReg (h : s.Inv) (hidle : s.busy = false) (r : RegName) (v : Word) : (s.writeReg r v).Inv := by
  obtain ⟨hmem, hstatus, hchannel⟩ := h
  cases r with
  | ctrl =>
    rw [State.writeReg, State.writeCtrl]
    split_ifs
    · exact ⟨hmem, State.statusOk_of_no_err rfl rfl (fun _ => rfl), State.channelOk_of_closed rfl⟩
    · exact ⟨hmem, hstatus, hchannel⟩
  | status => exact ⟨hmem, hstatus.writeStatus hidle v, hchannel⟩
  | cmd =>
    exact ⟨hmem, State.statusOk_of_no_err rfl rfl (fun _ => rfl), State.channelOk_of_closed (hchannel.closed_of_idle hidle)⟩
  | _ => exact ⟨hmem, hstatus, hchannel⟩

theorem State.Inv.readOffset (h : s.Inv) (off : Nat) : (s.readOffset off).Inv := by
  unfold State.readOffset
  cases regAt off with
  | none => exact h
  | some r => rcases s.readReg_cases r with ⟨-, hread⟩ | ⟨bits, -, -, hread⟩ <;> simp only [hread] <;> exact h

theorem State.Inv.hardReset (h : s.Inv) : (hardReset s).Inv := by
  obtain ⟨hmem, -, -⟩ := h
  have hx : (Machine.hardReset s).byteExists = s.byteExists := by rw [hardReset_eq]; rfl
  refine ⟨hmem.of_entries hx (hardReset_wf hmem.1) hardReset_entries, ?_, ?_⟩
  · rw [hardReset_eq]
    exact State.statusOk_of_no_err rfl rfl (fun _ => rfl)
  · rw [hardReset_eq]
    exact State.channelOk_of_closed rfl

/-- Every move keeps the invariant. -/
theorem State.Inv.runMove {mv : Move} (h : s.Inv) (hmove : runMove mv s = .next t) : t.Inv := by
  rcases runMove_cases hmove with ⟨_, _, v, -, off, rfl⟩ | ⟨_, _, -, off, rfl⟩ | ⟨addr, b, -, hx, rfl⟩ | ⟨_, _, -, rfl⟩ |
    ⟨-, rfl⟩ | ⟨-, hstep⟩
  · rcases s.writeOffset_cases off v with heq | heq | ⟨hidle, r, heq⟩ <;> rw [heq]
    · exact h
    · exact h
    · exact h.writeReg hidle r v
  · exact h.readOffset off
  · obtain ⟨hmem, hstatus, hchannel⟩ := h
    refine ⟨hmem.of_entries rfl (Memory.write_wf hmem.1) fun c hc => ?_, hstatus, hchannel⟩
    exact (Memory.mem_write hc).elim (fun hc => .inr (hc ▸ hx)) .inl
  · exact h
  · exact h.hardReset
  · exact h.sequencerStep hstep

/-! ## The obligations -/

/-- Settles O60: the step is a move, and every move keeps the invariant. -/
theorem stepKeepsInvariant : Obligations.StepKeepsInvariant := by
  intro s t hinv hstep
  rcases step_cases hstep with ⟨-, hmove⟩ | ⟨mv, rest, -, hmove⟩
  · exact hinv.runMove hmove
  · exact State.Inv.runMove (s := { s with schedule := rest }) hinv hmove

/-- Settles O59: no byte is listed, no flag is set, no channel is open. -/
theorem resetMeetsInvariant : Obligations.ResetMeetsInvariant :=
  ⟨⟨Memory.wf_nil, nofun⟩, State.statusOk_of_no_err rfl rfl (fun _ => rfl), State.channelOk_of_closed rfl⟩

end Sys2Proof.Machine

/-! RAW_CHAN (42_planar_mux.md) and DECODE_IMAGE that succeeds (40_decode_image.md): the planes its paths leave, then Mux. Then the
obligations on RAW_CHAN's copy, on the images that DECODE_IMAGE restores, and on what it leaves alone. -/

namespace Sys2Proof.Machine

variable {s t u : State} {k p a : Nat}

/-! ## RAW_CHAN -/

theorem State.srcPos_ne_planeByte {j : Nat} (hap : s.streamRange.Apart s.planesRange) (hj : j < s.srcLen.toNat)
    (hk : k < s.chanCount) (hp : p < s.planeLen) : s.srcPos j ≠ s.planeByte k p := by
  have := State.planeByte_mem hk hp
  simp only [Range.Apart, State.streamRange, State.planesRange, State.srcPos] at *
  omega

/-- R190, R242: with legal geometry and channel, DEPTH is checked next. -/
theorem exec_rawChan_of_depth {ch : BitVec 8} (hg : s.GeomLegal) (hk : ch.toNat < s.channels.toNat) (h8 : s.depth.toNat ≠ 8)
    (h16 : s.depth.toNat ≠ 16) : exec (.rawChan ch) s = .next (s.completeErr .unsupportedDepth) := by
  have hdepth : checkDepth s = some .unsupportedDepth := if_neg (not_or.mpr ⟨h8, h16⟩)
  refine exec_error rfl ?_
  rw [staticChecks, rawChanChecks, (checkGeom_none s).mpr hg, (checkChannel_none s ch.toNat).mpr hk, hdepth]
  rfl

/-- R191: a plane byte's sample lies before the end of the plane's stream bytes. -/
theorem State.sample_lt (hbytes : 0 < s.bytesPerSample) (hp : p < s.planeLen) :
    p * s.bytesPerSample < s.planeLen * s.bytesPerSample :=
  Nat.mul_lt_mul_of_pos_right hp hbytes

/-! ## DECODE_IMAGE's Mux -/

theorem State.setup_inMuxOutput (h : t.setup = s.setup) (a : Nat) : t.inMuxOutput a ↔ s.inMuxOutput a := by
  simp only [State.inMuxOutput, State.setup_chanCount h, State.setup_planeLen h, State.setup_dstByte h, State.setup_muxPos h]

/-- R149, R253: DECODE_IMAGE whose planes are decoded completes after its Mux. -/
theorem exec_decodeImage_of_ok (hr : s.ready .decodeImage) (h : decodePlanes s = .ok u) :
    exec .decodeImage s = .next (muxEffect u).completeDone := by
  rw [exec_ready rfl hr, commandEffect, decodeImageEffect, h, Exit.andThen_ok, Exit.complete_ok]

/-- R149, R197: Mux interleaves the planes that the paths have left, and leaves them as they are. -/
theorem muxEffect_planes (hr : s.ready .decodeImage) (hs : u.setup = s.setup) (hw : u.mem.wf) (hk : k < s.chanCount)
    (hp : p < s.planeLen) :
    (muxEffect u).mem.read (s.planeByte k p) = u.mem.read (s.planeByte k p) ∧
      (muxEffect u).mem.read (s.dstByte (s.muxPos k p)) = u.mem.read (s.planeByte k p) := by
  obtain ⟨-, hstride, -, -, -, -, -, hapart, -⟩ := decodeImage_ready_iff.mp hr
  have hS : 0 < s.stride := by omega
  constructor
  · exact muxEffect_other hw (mt (State.setup_inMuxOutput hs _).mp (State.plane_not_output hS hapart hk hp))
  · rw [← State.setup_planesRange hs, ← State.setup_outputRange hs] at hapart
    rw [← State.setup_chanCount hs] at hk
    rw [← State.setup_planeLen hs] at hp
    rw [← State.setup_stride hs] at hS
    rw [← State.setup_dstByte hs, ← State.setup_muxPos hs, ← State.setup_planeByte hs]
    exact muxEffect_at hw hS hapart hk hp

/-- R149, R150: the image that DECODE_IMAGE leaves when its planes are decoded. -/
theorem exec_decodeImage_image (hr : s.ready .decodeImage) (hw : s.mem.wf) (h : decodePlanes s = .ok u) :
    ∃ m' : Memory, exec .decodeImage s = .next (State.finished { s with
        comp := u.comp, cursor := u.cursor, outCount := BitVec.ofNat 32 s.planeLen
        curCh := BitVec.ofNat 5 (s.chanCount - 1), mem := m' }) ∧ m'.wf ∧
      (∀ k < s.chanCount, ∀ p < s.planeLen, m'.read (s.planeByte k p) = u.mem.read (s.planeByte k p) ∧
        m'.read (s.dstByte (s.muxPos k p)) = u.mem.read (s.planeByte k p)) ∧
      (∀ a, (∀ k < s.chanCount, ¬s.inPlane k a) → ¬s.inMuxOutput a → m'.read a = s.mem.read a) := by
  rcases decodePlanes_cases hr with ⟨e, u', hu, -⟩ | ⟨u', hu, hdone, -, hch, hcount, -⟩ <;> cases hu.symm.trans h
  refine ⟨(muxEffect u).mem, ?_, muxEffect_wf (hdone.wf hw),
    fun k hk p hp => muxEffect_planes hr hdone.setup (hdone.wf hw) hk hp, fun a hplane hout => ?_⟩
  · rw [exec_decodeImage_of_ok hr h, ← eq_ofNat_of_toNat hch, ← eq_ofNat_of_toNat hcount]
    generalize hm : (muxEffect u).mem = m'
    have hmux : muxEffect u = { u with mem := m' } := by rw [← hm]; rfl
    rw [hmux, hdone.frame]
    rfl
  · rw [muxEffect_other (hdone.wf hw) (mt (State.setup_inMuxOutput hdone.setup a).mp hout)]
    exact hdone.other hw a hplane

/-- Everything DECODE_IMAGE can do: it is turned away, its planes raise, or it completes after its Mux. -/
theorem exec_decodeImage_cases (h : exec .decodeImage s = .next t) : (∃ e, t = s.completeErr e) ∨
    (s.ready .decodeImage ∧ ((∃ e u, decodePlanes s = .raise e u ∧ PlanesDone s u ∧ t = u.completeErr e) ∨
      ∃ u, decodePlanes s = .ok u)) := by
  refine (turnedAway_or_ready rfl h).imp id fun hr => ⟨hr, ?_⟩
  rcases decodePlanes_cases hr with ⟨e, u, hu, hdone⟩ | ⟨u, hu, -⟩
  · rw [exec_ready rfl hr, commandEffect, decodeImageEffect, hu] at h
    cases h
    exact .inl ⟨e, u, hu, hdone, rfl⟩
  · exact .inr ⟨u, hu⟩

/-- R251 (d): no byte of the output is a byte of a plane. -/
theorem State.output_not_plane (hap : s.planesRange.Apart s.outputRange) {q : Nat}
    (hq : q < s.planeLen * s.chanCount * s.stride) (hk : k < s.chanCount) : ¬s.inPlane k (s.dstAddr.toNat + q) := by
  intro hplane
  have := State.inPlane_mem hk hplane
  simp only [Range.Apart, State.planesRange, State.outputRange] at *
  omega

/-! ## The compression code -/

/-- R144: a code whose high byte is 0 is its low byte. -/
theorem afterCode_comp_of_high (h : s.srcByte s.cursor.toNat = 0) :
    (afterCode s).comp.toNat = (s.srcByte (s.cursor.toNat + 1)).toNat := by
  rw [afterCode_comp, State.streamBE_two, h]
  exact Nat.zero_add _

section Images

variable (hr : s.ready .decodeImage) (hw : s.mem.wf) (hd : s.depth.toNat = 8 ∨ s.depth.toNat = 16)
include hr hw hd

/-- R147: the planes of an RLE image that its stream holds whole. -/
theorem decodePlanes_rle_image {dss : List (List Directive)} {first : Nat} (hcode : (afterCode s).comp.toNat = 1)
    (hfirst : first = s.cursor.toNat + 2 + s.tableLen) (hlen : dss.length = s.chanCount)
    (hfills : ∀ ds ∈ dss, fillsChannel s.planeLen ds) (hst : s.streamHolds first (streamOf dss.flatten)) :
    ∃ u, decodePlanes s = .ok u ∧ u.comp.toNat = 1 ∧ u.cursor.toNat = first + (streamOf dss.flatten).length ∧
      (∀ k p, ∀ ds ∈ dss[k]?, p < s.planeLen → (planeOf ds)[p]? = some (u.mem.read (s.planeByte k p))) := by
  have htable : s.cursor.toNat + 2 + s.tableLen ≤ s.srcLen.toNat := by have := hst.1; omega
  have hcur : (afterTable s).cursor.toNat = first := (afterTable_cursor htable).trans hfirst.symm
  obtain ⟨hgeom, -, -, -, -, hapart, -⟩ := decodeImage_ready_iff.mp hr
  obtain ⟨-, hplane, -, hchans⟩ := hgeom.planeLen_lt
  obtain ⟨u, hok, hdone, hcursor, hbytes⟩ := decode_channels (s := afterTable s) s.chanCount dss hlen le_rfl
    (hchans.trans (by decide)) hplane hapart hw hfills (by rw [hcur]; exact hst)
  refine ⟨u, ?_, ?_, by rw [hcursor, hcur], hbytes⟩
  · rw [decodePlanes_of_rle (by omega) hcode hd, rlePath_afterCode htable]
    exact hok
  · rw [hdone.frame]
    exact hcode

/-- R148: the planes of a raw image that its stream holds whole. -/
theorem decodePlanes_raw_image (hcode : (afterCode s).comp.toNat = 0)
    (hle : s.cursor.toNat + 2 + s.chanCount * (s.planeLen * s.bytesPerSample) ≤ s.srcLen.toNat) :
    ∃ u, decodePlanes s = .ok u ∧ u.comp.toNat = 0 ∧
      u.cursor.toNat = s.cursor.toNat + 2 + s.chanCount * (s.planeLen * s.bytesPerSample) ∧
      (∀ k < s.chanCount, ∀ p < s.planeLen, u.mem.read (s.planeByte k p) =
        s.srcByte (s.cursor.toNat + 2 + k * (s.planeLen * s.bytesPerSample) + p * s.bytesPerSample)) := by
  have hread : s.cursor.toNat + 2 ≤ s.srcLen.toNat := by omega
  have hcur := afterCode_cursor hread
  have hbytes : 0 < (afterCode s).bytesPerSample := Nat.div_pos (by change 8 ≤ s.depth.toNat; omega) (by decide)
  obtain ⟨-, -, -, -, -, hapart, -⟩ := decodeImage_ready_iff.mp hr
  obtain ⟨u, hok, hdone, -, hcursor, hplanes⟩ :=
    copy_channels (s := afterCode s) s.chanCount hbytes le_rfl hapart hw (by rw [hcur]; exact hle)
  rw [hcur] at hcursor hplanes
  refine ⟨u, (decodePlanes_of_raw hread hcode hd).trans hok, ?_, hcursor, hplanes⟩
  rw [hdone.frame]
  exact hcode

end Images

/-! ## The obligations -/

/-- Settles O32: DEPTH before the ranges, then the two ends of CopyPlane, whose targets are apart from the stream. -/
theorem rawChanCopiesPlane : Obligations.RawChanCopiesPlane := by
  refine ⟨fun s ch => exec_rawChan_of_depth, ?_⟩
  intro s ch hw hr i n bpc
  obtain ⟨-, hk, hd, -, -, hapart, -⟩ := (rawChan_ready_iff ch).mp hr
  have hbytes : 0 < s.bytesPerSample := Nat.div_pos (by omega) (by decide)
  have hch : BitVec.ofNat 5 ch.toNat = ch.setWidth 5 := BitVec.ofNat_toNat ..
  rw [exec_ready rfl hr, commandEffect]
  rcases copyPlane_done ch.toNat s with ⟨hcut, hraise⟩ | ⟨u, hok, hdone, hcopy⟩
  · refine ⟨fun _ => ?_, fun hle => absurd hcut (not_lt.mpr hle)⟩
    rw [hraise, beginCopy, hch]
    rfl
  · refine ⟨fun hcut => absurd hcut (not_lt.mpr hdone.fits), fun _ => ?_⟩
    refine ⟨u.mem, ?_, hdone.wf hw, hcopy hw fun p hp p' hp' => ?_, hdone.other hw⟩
    · rw [hok, hdone.frame, hch]
      rfl
    · have := State.sample_lt hbytes hp
      have := hdone.fits
      exact State.srcPos_ne_planeByte hapart (by omega) hk hp'

/-- Settles O38: the RLE path decodes every channel's directives, and Mux interleaves the planes. -/
theorem decodeImageRestoresRleImage : Obligations.DecodeImageRestoresRleImage := by
  intro s table dss hw hr hd htable hlen hfills stream hst
  obtain ⟨hhead, hchannels⟩ := State.streamHolds_append.mp hst
  obtain ⟨hcode, -⟩ := State.streamHolds_append.mp hhead
  obtain ⟨-, hcode⟩ := State.streamHolds_iff.mp hcode
  have hhigh : s.srcByte s.cursor.toNat = 0 := hcode 0 (by decide)
  have hlow : s.srcByte (s.cursor.toNat + 1) = 1 := hcode 1 (by decide)
  have hone : (afterCode s).comp.toNat = 1 := by
    rw [afterCode_comp_of_high hhigh, hlow]
    rfl
  have hfirst : s.cursor.toNat + ([0x00, 0x01] ++ table).length = s.cursor.toNat + 2 + s.tableLen := by
    rw [← htable, List.length_append]; exact (Nat.add_assoc ..).symm
  obtain ⟨u, hok, hcomp, hcursor, hbytes⟩ := decodePlanes_rle_image hr hw hd hone hfirst hlen hfills hchannels
  rw [Nat.add_assoc, ← List.length_append] at hcursor
  obtain ⟨m', hexec, hwf, himage, hother⟩ := exec_decodeImage_image hr hw hok
  rw [eq_ofNat_of_toNat hcomp, eq_ofNat_of_toNat hcursor] at hexec
  refine ⟨m', hexec, hwf, fun k p ds hds hp => ?_, hother⟩
  have hk : k < s.chanCount := hlen ▸ (List.getElem?_eq_some_iff.mp hds).1
  obtain ⟨hplane, hout⟩ := himage k hk p hp
  rw [hplane, hout]
  exact ⟨hbytes k p ds hds hp, hbytes k p ds hds hp⟩

/-- Settles O39: the raw path copies every channel's plane, and Mux interleaves the planes. -/
theorem decodeImageRestoresRawImage : Obligations.DecodeImageRestoresRawImage := by
  intro s hw hr hd cur bpc stop hhigh hlow hle
  have hzero : (afterCode s).comp.toNat = 0 := by
    rw [afterCode_comp_of_high hhigh, hlow]
    rfl
  obtain ⟨u, hok, hcomp, hcursor, hbytes⟩ := decodePlanes_raw_image hr hw hd hzero hle
  obtain ⟨m', hexec, hwf, himage, hother⟩ := exec_decodeImage_image hr hw hok
  rw [eq_ofNat_of_toNat hcomp, eq_ofNat_of_toNat hcursor] at hexec
  refine ⟨m', hexec, hwf, fun k hk p hp => ?_, hother⟩
  obtain ⟨hplane, hout⟩ := himage k hk p hp
  exact ⟨hplane.trans (hbytes k hk p hp), hout.trans (hbytes k hk p hp)⟩

/-- Settles O40: what raises before the Mux has written planes only, and what completes leaves ERR clear. -/
theorem failedDecodeKeepsOutput : Obligations.FailedDecodeKeepsOutput := by
  intro s t hw hs h ht q hq
  rcases exec_decodeImage_cases h with ⟨e, rfl⟩ | ⟨hr, ⟨e, u, -, hdone, rfl⟩ | ⟨u, hok⟩⟩
  · rfl
  · obtain ⟨-, -, -, -, -, -, -, hapart, -⟩ := decodeImage_ready_iff.mp hr
    exact hdone.other hw _ fun k hk => State.output_not_plane hapart hq hk
  · obtain ⟨m', hexec, -⟩ := exec_decodeImage_image hr hw hok
    cases hexec.symm.trans h
    cases hs.symm.trans ht

/-- Settles O41: only a decode whose planes are all there sets DONE. -/
theorem successfulDecodeResults : Obligations.SuccessfulDecodeResults := by
  intro s t hw hs h ht
  rcases exec_decodeImage_cases h with ⟨e, rfl⟩ | ⟨hr, ⟨e, u, -, hdone, rfl⟩ | ⟨u, hok⟩⟩
  · cases hs.symm.trans ht
  · rw [State.completeErr_done, hdone.frame] at ht
    cases hs.symm.trans ht
  · rcases decodePlanes_cases hr with ⟨e, u', hu, -⟩ | ⟨u', hu, -, hcomp, hch, hcount, hlo, hhi⟩ <;> cases hu.symm.trans hok
    obtain ⟨m', hexec, -, himage, -⟩ := exec_decodeImage_image hr hw hok
    rw [← eq_ofNat_of_toNat hch, ← eq_ofNat_of_toNat hcount] at hexec
    cases hexec.symm.trans h
    refine ⟨hcomp, hcount, hch, hlo, hhi, rfl, fun k hk p hp => ?_⟩
    obtain ⟨hplane, hout⟩ := himage k hk p hp
    exact hout.trans hplane.symm

/-- Settles O42: the registers are those of every command, and the memory is that of the planes and of Mux. -/
theorem decodeImageFrame : Obligations.DecodeImageFrame := by
  intro s t hw h
  have hdone := commandCompleted_of_exec rfl h
  have hdata : t.dataOut = s.dataOut := hdone.dataOut (by simp)
  refine ⟨hdone.eq_update.trans (by rw [hdata]), fun a hplane hout => ?_⟩
  rcases exec_decodeImage_cases h with ⟨e, rfl⟩ | ⟨hr, ⟨e, u, -, hplanes, rfl⟩ | ⟨u, hok⟩⟩
  · rfl
  · exact hplanes.other hw a hplane
  · obtain ⟨m', hexec, -, -, hother⟩ := exec_decodeImage_image hr hw hok
    cases hexec.symm.trans h
    exact hother a hplane hout

end Sys2Proof.Machine
